-- ==== Sys2Proof/Word.lean ====
section
/-! DEFINITION. The two bit-vector types of the model: a byte of M (R51) and a 32-bit register (R9, `REG_W`). -/

namespace Sys2Proof

/-- A byte of the memory M (R50, R51). -/
abbrev Byte := BitVec 8

/-- A register of the window, an argument or a command word: 32 bits (R9, `REG_W`). -/
abbrev Word := BitVec 32

end Sys2Proof
end

