-- ==== Sys2Proof/Config.lean ====
section
/-! DEFINITION. The parameters of R9, R55 and R67, the constants of R9, and the free values (log 4, log 9, log 14). -/

namespace Sys2Proof

/-- What the platform fixes. The spec leaves each of these open (R9, R55, R67); the model takes them as an argument,
a field of `State` that no step changes. -/
structure Config where
  /-- `MEM_BYTES`: the size of M (R9, D6). -/
  memBytes : Nat
  /-- `REG_BASE`: the address of the register window (R55). -/
  regBase : Nat
  /-- Whether the platform maps the register window inside M's address range (R67, item I12). -/
  regsInMem : Bool
  /-- `SIG_SUPPORTED` (R82). -/
  sigSupported : Word
  /-- `SIG_ALT1` (R82). -/
  sigAlt1 : Word
  /-- `SIG_ALT2` (R82). -/
  sigAlt2 : Word
  /-- `PALETTE_BLOCK_BYTES` (R96); no rule of the block depends on it. -/
  paletteBlockBytes : Nat
deriving DecidableEq, Repr

namespace Config

/-- R9: `1 ≤ MEM_BYTES ≤ 2^32`; item I1: the three signatures are distinct. -/
abbrev wf (c : Config) : Prop :=
  1 ≤ c.memBytes ∧ c.memBytes ≤ 2 ^ 32 ∧
    c.sigSupported ≠ c.sigAlt1 ∧ c.sigSupported ≠ c.sigAlt2 ∧ c.sigAlt1 ≠ c.sigAlt2

/-- The parameters `State.reset` takes. DESIGN CHOICE (log 1, log 3): the sizes and places; PRESUMED (log 2): the
signatures, the spec's defaults "PP20", "PPLS" and "PX20". -/
def atReset : Config where
  memBytes := 0x1000
  regBase := 0
  regsInMem := false
  sigSupported := 0x50503230#32
  sigAlt1 := 0x50504C53#32
  sigAlt2 := 0x50583230#32
  paletteBlockBytes := 0

/-- `BLOCK_ID`, the value of the ID register (R9, R23). -/
def blockId : Word := 0x42524C44#32

/-- `REM_CAP`: the capacity of the remainder buffer, never reached (R36, R37). -/
def remCap : Nat := 257

/-- `PLANES_MAX` (R9, R207). -/
def planesMax : Nat := 8

/-- `MASK_ROW_BYTES`, the row width the MASK unit is designed for; the command takes the width as an argument (R9). -/
def maskRowBytes : Nat := 40

/-- The length of the register window (R41, R55). -/
def windowBytes : Nat := 0x100

/-- Free value (log 4): the bytes the platform leaves in M at the reset that `State.reset` follows, as writes in order
(R281). -/
opaque leftAtReset : List (Nat × Byte)

/-- Free value (log 14): the byte left at an address by draw number `n`, for a byte R282 leaves arbitrary. -/
opaque drawnByte : Nat → Nat → Byte

/-- Free value (log 9): the 32-bit word a register shows for an exact value of 2^32 or more, which the spec does not state. -/
opaque unstatedWord : Nat → Word

end Config

end Sys2Proof
end

