-- ==== Sys2Proof/Syntax.lean ====
section
/-! DEFINITION. The instructions: one constructor for each of the 17 rows of spec/opcode_table.json. -/

namespace Sys2Proof

/-- The seven commands (R73), the three RLE records (R79) and the seven LZ codes (R85).

A command encodes no operand: its operands are the latched arguments (R74). A record carries the bits 6:0 of its
control byte. An LZ code carries its own bit groups: an offset group `off` as the list of its bits in stream order, the
first being the most significant (R83); and a unary extension as the number `k` of all-ones groups and the last group
`g` (R84). -/
inductive Instr where
  /-- RLE_OPEN, OP 0x01 (R132). -/
  | rleOpen
  /-- RLE_READ, OP 0x02 (R133). -/
  | rleRead
  /-- LZ_DECODE, OP 0x10 (R161). -/
  | lzDecode
  /-- PLANAR_UNPACK, OP 0x20 (R201). -/
  | planarUnpack
  /-- PLANAR_RES, OP 0x21 (R204). -/
  | planarRes
  /-- FIELD_SPLIT, OP 0x30 (R221). -/
  | fieldSplit
  /-- MASK_BUILD, OP 0x40 (R238). -/
  | maskBuild
  /-- RLE.LIT, control byte `0nnnnnnn`: a literal run of n+1 bytes (R135). -/
  | rleLit (n : BitVec 7)
  /-- RLE.NOP, control byte 0x80 (R137). -/
  | rleNop
  /-- RLE.REP, control byte `1nnnnnnn` with n ≠ 0: a replicate run of 257 − b copies (R136). -/
  | rleRep (n : BitVec 7)
  /-- LZ.LIT, control bit 0 and the count groups: `k` groups 11, then `g` (R171). -/
  | lzLit (k : Nat) (g : BitVec 2)
  /-- LZ.MATCH, control bit 1 (R174). -/
  | lzMatch
  /-- LZ.M0, selector 00: length 2, an offset of t[0] bits (R174). -/
  | lzM0 (off : List Bool)
  /-- LZ.M1, selector 01: length 3, an offset of t[1] bits (R174). -/
  | lzM1 (off : List Bool)
  /-- LZ.M2, selector 10: length 4, an offset of t[2] bits (R174). -/
  | lzM2 (off : List Bool)
  /-- LZ.M3S, selector 11 and extra bit 0: an offset of 7 bits, then the length groups (R175). -/
  | lzM3S (off : List Bool) (k : Nat) (g : BitVec 3)
  /-- LZ.M3L, selector 11 and extra bit 1: an offset of t[3] bits, then the length groups (R175). -/
  | lzM3L (off : List Bool) (k : Nat) (g : BitVec 3)
deriving DecidableEq, Repr

end Sys2Proof
end

