-- ==== Sys2Proof/WellFormed.lean ====
section
/-! DEFINITION. Which instruction terms some encoding stands for. -/

namespace Sys2Proof

namespace Instr

/-- The checks of an instruction term:
a replicate record's n is not 0 (R79: that control byte is the no-op);
a literal's last group is not 11 and a length's last group is not 111 (R84);
the offset of LZ.M3S is 7 bits (R175);
every other offset is at most 255 bits, since its width is a byte of the table (R81, R181). -/
def wf : Instr → Bool
  | .rleOpen => true
  | .rleRead => true
  | .lzDecode => true
  | .planarUnpack => true
  | .planarRes => true
  | .fieldSplit => true
  | .maskBuild => true
  | .rleLit _ => true
  | .rleNop => true
  | .rleRep n => n != 0#7
  | .lzLit _ g => g != 3#2
  | .lzMatch => true
  | .lzM0 off => decide (off.length ≤ 255)
  | .lzM1 off => decide (off.length ≤ 255)
  | .lzM2 off => decide (off.length ≤ 255)
  | .lzM3S off _ g => decide (off.length = 7) && g != 7#3
  | .lzM3L off _ g => decide (off.length ≤ 255) && g != 7#3

/-- The instructions that a write of CMD issues (R73). -/
def isCommand : Instr → Bool
  | .rleOpen => true
  | .rleRead => true
  | .lzDecode => true
  | .planarUnpack => true
  | .planarRes => true
  | .fieldSplit => true
  | .maskBuild => true
  | .rleLit _ => false
  | .rleNop => false
  | .rleRep _ => false
  | .lzLit _ _ => false
  | .lzMatch => false
  | .lzM0 _ => false
  | .lzM1 _ => false
  | .lzM2 _ => false
  | .lzM3S _ _ _ => false
  | .lzM3L _ _ _ => false

end Instr

end Sys2Proof
end

