-- ==== Sys2Proof/Decode.lean ====
section
/-! DEFINITION. The decoders (R72, R73, R79, R84, R85) and, after them, the encoder written from the same tables. -/

namespace Sys2Proof

/-! ### Bit groups of the LZ stream (R83, R84) -/

/-- The value of a bit group: its first bit is the most significant (R83, R167). -/
def bitsVal (bits : List Bool) : Nat :=
  bits.foldl (fun v b => 2 * v + b.toNat) 0

/-- The next `n` bits, and what is left; none when fewer than `n` bits remain (R167). -/
def takeBits : Nat → List Bool → Option (List Bool × List Bool)
  | 0, bits => some ([], bits)
  | _ + 1, [] => none
  | n + 1, b :: bits => (takeBits n bits).map fun p => (b :: p.1, p.2)

/-- A group of two bits. -/
def group2 (a b : Bool) : BitVec 2 := BitVec.ofBool a ++ BitVec.ofBool b

/-- A group of three bits. -/
def group3 (a b c : Bool) : BitVec 3 := BitVec.ofBool a ++ BitVec.ofBool b ++ BitVec.ofBool c

/-- The literal count groups `"11"* G2` (R84, R171): how many groups are 11, and the group that ends them. -/
def readExt2 : List Bool → Option (Nat × BitVec 2 × List Bool)
  | true :: true :: bits => (readExt2 bits).map fun p => (p.1 + 1, p.2.1, p.2.2)
  | a :: b :: bits => some (0, group2 a b, bits)
  | _ => none

/-- The length groups `"111"* G3` (R84, R175): how many groups are 111, and the group that ends them. -/
def readExt3 : List Bool → Option (Nat × BitVec 3 × List Bool)
  | true :: true :: true :: bits => (readExt3 bits).map fun p => (p.1 + 1, p.2.1, p.2.2)
  | a :: b :: c :: bits => some (0, group3 a b c, bits)
  | _ => none

/-- The offset-width table t[0..3] of a blob (R81, R181): four bytes, each a width in 0..255. -/
structure Widths where
  t0 : Byte
  t1 : Byte
  t2 : Byte
  t3 : Byte
deriving DecidableEq, Repr

/-! ### Decoders -/

/-- The operation codes of R73; every other code is reserved (R76). -/
def decodeOp (op : Byte) : Option Instr :=
  if op = 0x01#8 then some .rleOpen
  else if op = 0x02#8 then some .rleRead
  else if op = 0x10#8 then some .lzDecode
  else if op = 0x20#8 then some .planarUnpack
  else if op = 0x21#8 then some .planarRes
  else if op = 0x30#8 then some .fieldSplit
  else if op = 0x40#8 then some .maskBuild
  else none

/-- The command word (R72), checked in the order of R113: bits 31:8 must be 0, then the operation code. -/
def decodeCmd (w : Word) : Option Instr :=
  if w.extractLsb' 8 24 ≠ 0#24 then none else decodeOp (w.extractLsb' 0 8)

/-- The RLE control byte (R79). The code space is total. -/
def decodeRecord (b : Byte) : Instr :=
  if b.toNat ≤ 127 then .rleLit (b.extractLsb' 0 7)
  else if b.toNat = 128 then .rleNop
  else .rleRep (b.extractLsb' 0 7)

/-- The code at a control position of the LZ stream (R84, ITER): LZ.LIT with its count groups, or LZ.MATCH.
None when the bits run out first. -/
def decodeControl : List Bool → Option (Instr × List Bool)
  | false :: bits => (readExt2 bits).map fun p => (.lzLit p.1 p.2.1, p.2.2)
  | true :: bits => some (.lzMatch, bits)
  | [] => none

/-- The code at a match position of the LZ stream (R84, MATCH), with the widths `t`.
None when the bits run out first. -/
def decodeMatch (t : Widths) : List Bool → Option (Instr × List Bool)
  | false :: false :: bits => (takeBits t.t0.toNat bits).map fun p => (.lzM0 p.1, p.2)
  | false :: true :: bits => (takeBits t.t1.toNat bits).map fun p => (.lzM1 p.1, p.2)
  | true :: false :: bits => (takeBits t.t2.toNat bits).map fun p => (.lzM2 p.1, p.2)
  | true :: true :: false :: bits =>
    (takeBits 7 bits).bind fun p => (readExt3 p.2).map fun q => (.lzM3S p.1 q.1 q.2.1, q.2.2)
  | true :: true :: true :: bits =>
    (takeBits t.t3.toNat bits).bind fun p => (readExt3 p.2).map fun q => (.lzM3L p.1 q.1 q.2.1, q.2.2)
  | _ => none

/-! ### The encoder -/

/-- What an instruction is written as: a command word (R72), a control byte (R79) or a bit code in stream order (R84). -/
inductive Code where
  | word (w : Word)
  | byte (b : Byte)
  | bits (l : List Bool)
deriving DecidableEq, Repr

/-- The bits of `"11"* G2` in stream order (R84). -/
def ext2Bits : Nat → BitVec 2 → List Bool
  | 0, g => [g.getLsbD 1, g.getLsbD 0]
  | k + 1, g => true :: true :: ext2Bits k g

/-- The bits of `"111"* G3` in stream order (R84). -/
def ext3Bits : Nat → BitVec 3 → List Bool
  | 0, g => [g.getLsbD 2, g.getLsbD 1, g.getLsbD 0]
  | k + 1, g => true :: true :: true :: ext3Bits k g

/-- The encoding of every instruction: R73 for commands, R79 for records, R84 and R85 for LZ codes. -/
def encode : Instr → Code
  | .rleOpen => .word 0x00000001#32
  | .rleRead => .word 0x00000002#32
  | .lzDecode => .word 0x00000010#32
  | .planarUnpack => .word 0x00000020#32
  | .planarRes => .word 0x00000021#32
  | .fieldSplit => .word 0x00000030#32
  | .maskBuild => .word 0x00000040#32
  | .rleLit n => .byte (0#1 ++ n)
  | .rleNop => .byte 0x80#8
  | .rleRep n => .byte (1#1 ++ n)
  | .lzLit k g => .bits (false :: ext2Bits k g)
  | .lzMatch => .bits [true]
  | .lzM0 off => .bits (false :: false :: off)
  | .lzM1 off => .bits (false :: true :: off)
  | .lzM2 off => .bits (true :: false :: off)
  | .lzM3S off k g => .bits (true :: true :: false :: (off ++ ext3Bits k g))
  | .lzM3L off k g => .bits (true :: true :: true :: (off ++ ext3Bits k g))

/-- The bits of a code in an LZ stream; a command word or a control byte has none there. -/
def Code.streamBits : Code → List Bool
  | .word _ => []
  | .byte _ => []
  | .bits l => l

/-- How many stream bits an LZ code takes: the advance of the bit cursor over it (R167). -/
def codeLength (i : Instr) : Nat := (encode i).streamBits.length

/-- Where an instruction is read from: the CMD register, the RLE source, or the LZ stream at a control position or at a
match position with the table `t`. -/
inductive Place where
  | command
  | record
  | control
  | selector (t : Widths)
deriving DecidableEq, Repr

/-- The decoder of each place, over a code and the stream bits that follow it. -/
def decodeAt (p : Place) (c : Code) (rest : List Bool) : Option (Instr × List Bool) :=
  match p, c with
  | .command, .word w => (decodeCmd w).map fun i => (i, rest)
  | .record, .byte b => some (decodeRecord b, rest)
  | .control, .bits l => decodeControl (l ++ rest)
  | .selector t, .bits l => decodeMatch t (l ++ rest)
  | _, _ => none

/-- Whether an instruction may stand at a place: its kind, and for an offset its width (R174, R175). -/
def fitsAt (p : Place) (i : Instr) : Bool :=
  match i with
  | .rleOpen => p == .command
  | .rleRead => p == .command
  | .lzDecode => p == .command
  | .planarUnpack => p == .command
  | .planarRes => p == .command
  | .fieldSplit => p == .command
  | .maskBuild => p == .command
  | .rleLit _ => p == .record
  | .rleNop => p == .record
  | .rleRep _ => p == .record
  | .lzLit _ _ => p == .control
  | .lzMatch => p == .control
  | .lzM0 off => match p with | .selector t => t.t0.toNat == off.length | _ => false
  | .lzM1 off => match p with | .selector t => t.t1.toNat == off.length | _ => false
  | .lzM2 off => match p with | .selector t => t.t2.toNat == off.length | _ => false
  | .lzM3S _ _ _ => match p with | .selector _ => true | _ => false
  | .lzM3L off _ _ => match p with | .selector t => t.t3.toNat == off.length | _ => false

/-! ### Words of spec/opcode_table.json (log 21) -/

/-- The `n` low bits of `w`, bit 0 first: a bit code laid out in stream order. -/
def wordBits : Nat → Nat → List Bool
  | 0, _ => []
  | n + 1, w => (w % 2 == 1) :: wordBits n (w / 2)

/-- Stream bits that stand after a table word: operand groups of zeros. -/
def zeroTail : List Bool := List.replicate 32 false

/-- The offset widths under which a table word of `n` bits at a match position is whole: its bits after the selector
are the offset (log 21). -/
def tableWidths (n : Nat) : Widths where
  t0 := BitVec.ofNat 8 (n - 2)
  t1 := BitVec.ofNat 8 (n - 2)
  t2 := BitVec.ofNat 8 (n - 2)
  t3 := BitVec.ofNat 8 (n - 6)

/-- The instruction the decoders read from a table word: 32 bits are a command word, 8 bits a control byte, 1 bit the
code of an LZ control position, any other number the bits of an LZ match position in stream order, bit 0 first
(log 21). -/
def decodeTableWord (nbits w : Nat) : Option Instr :=
  if nbits = 32 then decodeCmd (BitVec.ofNat 32 w)
  else if nbits = 8 then some (decodeRecord (BitVec.ofNat 8 w))
  else if nbits = 1 then (decodeControl (wordBits 1 w ++ zeroTail)).map (·.1)
  else (decodeMatch (tableWidths nbits) (wordBits nbits w ++ zeroTail)).map (·.1)

end Sys2Proof
end

