-- ==== Sys2Proof/Machine/Memory.lean ====
section
/-! DEFINITION. The byte memory M (R13, R50 to R52) as a list in one canonical form, and its contents at reset (R281). -/

namespace Sys2Proof.Machine

/-- The memory M: a list of (address, byte) pairs in one canonical form (`Memory.wf`). -/
abbrev Memory := List Host.Cell

/-- What an address that the list does not hold reads as: DESIGN CHOICE, log 4. It fixes no byte of M: every content of M is
one list in canonical form, and reset chooses none (`Memory.atReset`). -/
def unlistedByte (_a : Nat) : Byte := 0#8

/-- `MemRead(a, 1)` (R13, R51). -/
def Memory.read : Memory → Nat → Byte
  | [], a => unlistedByte a
  | (k, v) :: m, a => if k = a then v else Memory.read m a

/-- `MemWrite(a, 1, v)` (R13, R51): only the byte at `a` changes. The list stays in its canonical form. -/
def Memory.write : Memory → Nat → Byte → Memory
  | [], a, v => if v = unlistedByte a then [] else [(a, v)]
  | (k, x) :: m, a, v =>
    if k < a then (k, x) :: Memory.write m a v
    else if k = a then (if v = unlistedByte a then m else (a, v) :: m)
    else if v = unlistedByte a then (k, x) :: m
    else (a, v) :: (k, x) :: m

/-- The canonical form: addresses strictly rising, and no entry equal to what an unlisted address reads as. -/
def Memory.wf : Memory → Bool
  | [] => true
  | (k, v) :: m => v != unlistedByte k && (m.all fun c => decide (k < c.1)) && Memory.wf m

/-- Every listed address lies in M (R50). -/
def Memory.within (bound : Nat) (m : Memory) : Bool := m.all fun c => decide (c.1 < bound)

/-- The `n` bytes at `a`, `a+1`, …, in address order. -/
def Memory.readList (m : Memory) (a : Nat) : Nat → List Byte
  | 0 => []
  | n + 1 => Memory.read m a :: Memory.readList m (a + 1) n

/-- Single-byte writes of `bs` at `a`, `a+1`, …, in increasing order. -/
def Memory.writeList (m : Memory) (a : Nat) : List Byte → Memory
  | [] => m
  | b :: bs => Memory.writeList (Memory.write m a b) (a + 1) bs

/-- `MemRead(a, 4)`: big-endian, the byte at the lowest address first (R13, R52). -/
def Memory.readWord (m : Memory) (a : Nat) : Word :=
  Memory.read m a ++ Memory.read m (a + 1) ++ Memory.read m (a + 2) ++ Memory.read m (a + 3)

/-- The bytes of M after the platform has left `left` in it (R281). -/
def Memory.overlay (bound : Nat) (m : Memory) : List Host.Cell → Memory
  | [] => m
  | (a, v) :: left => if a < bound then Memory.overlay bound (Memory.write m a v) left else Memory.overlay bound m left

/-- M right after reset (R281): whatever the platform leaves in it, a free value (log 4). -/
def Memory.atReset (bound : Nat) : Memory := Memory.overlay bound [] Config.leftAtReset

end Sys2Proof.Machine
end

