-- ==== Sys2Proof/Machine/State.lean ====
section
/-! DEFINITION. The state of the block, of M and of the host's port, as plain data; the reasons a step can stop; reset. -/

namespace Sys2Proof.Machine

/-- Eight 32-bit registers: ARG0..ARG7 (R28), or their latched copies (R39). -/
structure Args where
  a0 : Word
  a1 : Word
  a2 : Word
  a3 : Word
  a4 : Word
  a5 : Word
  a6 : Word
  a7 : Word
deriving DecidableEq, Repr

/-- The error kinds of R251; the codes 5..15 have no kind, since they are never written. -/
inductive ErrKind where
  | none
  | unsupportedFormat
  | corruptStream
  | truncatedInput
  | badCommand
deriving DecidableEq, Repr

/-- The signature classes of STATUS.LZ_SIG (R27). -/
inductive SigClass where
  | supported
  | alt1
  | alt2
  | unknown
deriving DecidableEq, Repr

/-- An address interval `[base, base+len)` (R15, R18). -/
structure Window where
  base : Nat
  len : Nat
deriving DecidableEq, Repr

/-- The cursors of an RLE_READ between two records (R133): its destination, MAX and the bytes produced. -/
structure ReadCursor where
  dst : Nat
  max : Nat
  produced : Nat
deriving DecidableEq, Repr

/-- The cursors of an LZ_DECODE between two codes (R161, R166 to R168, R170): the blob base B, the payload length P,
the destination D, the length L, the skip count, the table t, the bits consumed c, the bytes not yet written w, and
whether the next code stands at a match position. -/
structure LzCursor where
  base : Nat
  pay : Nat
  dst : Nat
  len : Nat
  skip : Byte
  tab : Widths
  c : Nat
  w : Nat
  atMatch : Bool
deriving DecidableEq, Repr

/-- What the engine is in the middle of. Between commands it is idle: these cursors do not survive a command (R22), and
a completion is atomic (R122), so a step that starts idle ends idle (log 7). -/
inductive Engine where
  | idle
  | reading (x : ReadCursor)
  | inflating (x : LzCursor)
deriving DecidableEq, Repr

/-- One move of one agent (R5): the ENGINE's completion step, or one access of the HOST (log 6, log 10). -/
inductive Turn where
  /-- The ENGINE moves. -/
  | engine
  /-- The HOST reads `width` bytes of the register window at `addr` (R70, R119). -/
  | regRead (addr width : Nat)
  /-- The HOST writes `v` to the register window at `addr`, `width` bytes wide (R70, R119). -/
  | regWrite (addr width : Nat) (v : Word)
  /-- The HOST reads one byte of M (PEEK, R101). -/
  | peek (addr : Nat)
  /-- The HOST writes one byte of M (POKE, R101). -/
  | poke (addr : Nat) (v : Byte)
  /-- A reset (R280). The list holds the bytes that the platform leaves changed in M (R281). -/
  | reset (left : List Host.Cell)
deriving DecidableEq, Repr

/-- The whole machine (R20, R34, R39, R41). -/
structure State where
  /-- The parameters, which no step changes (R9, R55, R67). -/
  cfg : Config
  /-- The byte memory M (R50). -/
  mem : Memory
  /-- CMD_LAST, the last accepted command word (R24). -/
  cmdLast : Word
  /-- STATUS.BUSY (R25). -/
  busy : Bool
  /-- STATUS.DONE (R25). -/
  done : Bool
  /-- STATUS.ERR (R25, R251). -/
  err : ErrKind
  /-- STATUS.CMD_IGN (R25, R111). -/
  cmdIgn : Bool
  /-- STATUS.LZ_SIG (R25, R27). -/
  lzSig : SigClass
  /-- ARG0..ARG7 (R28). -/
  arg : Args
  /-- RESULT0 (R29). -/
  result0 : Word
  /-- RESULT1 (R29). -/
  result1 : Word
  /-- RESULT2 (R29). -/
  result2 : Word
  /-- RLE_VALID (R34). -/
  rleValid : Bool
  /-- RLE_BASE (R30), the exact address (log 9). -/
  rleBase : Nat
  /-- RLE_PTR (R31), the exact address (log 9). -/
  rlePtr : Nat
  /-- RLE_END (R32), the exact address (log 9). -/
  rleEnd : Nat
  /-- REM, the remainder buffer, in output order (R36). -/
  rem : List Byte
  /-- RLE_TRUNC (R34, R141). -/
  rleTrunc : Bool
  /-- PEND, the pending command word (R39). -/
  pend : Word
  /-- LARG[0..7], the latched arguments (R39). -/
  larg : Args
  /-- The cursors of the command being completed (R22; log 7). -/
  engine : Engine
  /-- The moves still to come, the next one first (log 6). -/
  turns : List Turn
  /-- The word the last host register read returned (R119; log 10). -/
  regData : Word
  /-- The byte the last host memory read returned (R101; log 10). -/
  memData : Byte
  /-- How many free draws have been taken (log 14). -/
  draws : Nat
deriving DecidableEq, Repr

/-- The reasons a step stops in a fault. -/
inductive Fault where
  /-- Raised by a host write of a byte of the pending command's windows while BUSY = 1 (R286, item I10). Safe: the hardware
  goes on in an order no source fixes. -/
  | hazardHostWrite
  /-- Raised by a host read of a byte of the pending command's destination windows while BUSY = 1 (R286, item I10). Safe. -/
  | hazardHostRead
  /-- Raised by the completion of a command one of whose windows covers the block's own register window, on a platform that maps it
  inside M (R67, item I12). Safe. -/
  | windowCoversRegisters
  /-- Raised by a host access to an address of M that does not exist (R50; log 11). Safe. -/
  | hostOutsideMemory
deriving DecidableEq, Repr

/-- The reasons a step has no meaning. -/
inductive Refusal where
  /-- Raised by an arm of `exec` whose instruction has no meaning in the model. Safe. -/
  | notModelled (mnemonic : String)
  /-- Raised by a host access to the register window that is not an aligned 32-bit access (R54, R287, item I11). Safe. -/
  | registerAccessWidth
  /-- Raised by a host register access outside the register window, which is not the block's (R294; log 12). Safe. -/
  | outsideRegisterWindow
  /-- Raised by an RLE record run with no RLE_READ in flight, which no step does (log 8). Safe. -/
  | noReadInFlight
  /-- Raised by an LZ code run with no LZ_DECODE in flight, which no step does (log 8). Safe. -/
  | noDecodeInFlight
  /-- Raised by a command met where a record or an LZ code is decoded; no decoder of those gives one (log 8). Safe. -/
  | notAStreamCode
deriving DecidableEq, Repr

/-- What an instruction's meaning and a step answer with. -/
abbrev Result := Host.Outcome State Fault Refusal

/-- Eight zero registers. -/
def Args.zero : Args := ⟨0, 0, 0, 0, 0, 0, 0, 0⟩

/-- The machine right after reset: R42, with the values of the log for what R42 does not give (log 1 to 6, log 10,
log 14). -/
def State.reset : State where
  cfg := Config.atReset
  mem := Memory.atReset Config.atReset.memBytes
  cmdLast := 0
  busy := false
  done := false
  err := .none
  cmdIgn := false
  lzSig := .supported
  arg := Args.zero
  result0 := 0
  result1 := 0
  result2 := 0
  rleValid := false
  rleBase := 0
  rlePtr := 0
  rleEnd := 0
  rem := []
  rleTrunc := false
  pend := 0
  larg := Args.zero
  engine := .idle
  turns := []
  regData := 0
  memData := 0
  draws := 0

end Sys2Proof.Machine
end

