-- ==== Sys2Proof/Machine/Ops.lean ====
section
/-! DEFINITION. The shared operations besides those of M: windows (R15, R115, R116), issue (R110, R111), completion and
the raising of an error (R112, R117, R250), and the register values of exact numbers (R120). -/

namespace Sys2Proof.Machine

/-! ### Loops -/

/-- `for i in [0, n): f i`, in increasing order (R14). -/
def forN {α : Type} : Nat → (Nat → α → α) → α → α
  | 0, _, x => x
  | n + 1, f, x => f n (forN n f x)

/-! ### Windows -/

/-- The address lies in the window (R15). -/
def Window.holds (w : Window) (a : Nat) : Bool := decide (w.base ≤ a) && decide (a < w.base + w.len)

/-- The window lies in a memory of `bytes` bytes, computed exactly (R15, R115). -/
def Window.fits (bytes : Nat) (w : Window) : Bool := decide (w.base + w.len ≤ bytes)

/-- The two intervals have a common address; an empty one overlaps nothing (R15). -/
def Window.overlaps (v w : Window) : Bool :=
  decide (0 < v.len) && decide (0 < w.len) && decide (v.base < w.base + w.len) && decide (w.base < v.base + v.len)

/-- No two windows of the list overlap each other. -/
def pairwiseDisjoint : List Window → Bool
  | [] => true
  | w :: ws => (ws.all fun v => !Window.overlaps w v) && pairwiseDisjoint ws

/-- R116: no source overlaps a destination, and no two destinations overlap each other. -/
def separate (sources dests : List Window) : Bool :=
  (sources.all fun v => dests.all fun w => !Window.overlaps v w) && pairwiseDisjoint dests

/-- The block's register window (R55). -/
def registerWindow (c : Config) : Window := ⟨c.regBase, Config.windowBytes⟩

/-- R67: a window that covers the register window, where the platform maps it inside M. -/
def coversRegisters (c : Config) (ws : List Window) : Bool :=
  c.regsInMem && ws.any fun w => Window.overlaps w (registerWindow c)

/-! ### Registers -/

/-- The 32-bit word of an exact number (R120); for one that does not fit, a free value (log 9). -/
def regWord (v : Nat) : Word := if v < 2 ^ 32 then BitVec.ofNat 32 v else Config.unstatedWord v

/-- `trunc_32` (R11). -/
def trunc32 (v : Nat) : Word := BitVec.ofNat 32 v

/-- ARG[i] <- v (R28). -/
def Args.set (r : Args) (i : Nat) (v : Word) : Args :=
  match i with
  | 0 => { r with a0 := v }
  | 1 => { r with a1 := v }
  | 2 => { r with a2 := v }
  | 3 => { r with a3 := v }
  | 4 => { r with a4 := v }
  | 5 => { r with a5 := v }
  | 6 => { r with a6 := v }
  | 7 => { r with a7 := v }
  | _ => r

/-- ARG[i] (R28). -/
def Args.get (r : Args) (i : Nat) : Word :=
  match i with
  | 0 => r.a0
  | 1 => r.a1
  | 2 => r.a2
  | 3 => r.a3
  | 4 => r.a4
  | 5 => r.a5
  | 6 => r.a6
  | 7 => r.a7
  | _ => 0

/-! ### Issue and completion -/

/-- A host write of `v` to CMD: accepted when BUSY = 0 (R110), ignored but for CMD_IGN when BUSY = 1 (R111). -/
def State.issue (s : State) (v : Word) : State :=
  if s.busy then { s with cmdIgn := true }
  else
    { s with
      cmdLast := v
      pend := v
      larg := s.arg
      busy := true
      done := false
      err := .none
      cmdIgn := false
      result0 := 0
      result1 := 0
      result2 := 0 }

/-- The end of a command (R112 points 2 and 3): the results of R75, STATUS.ERR, BUSY and DONE; no cursor survives (R22). -/
def State.complete (s : State) (e : ErrKind) (r0 r1 r2 : Word) : State :=
  { s with
    err := e
    busy := false
    done := true
    result0 := r0
    result1 := r1
    result2 := r2
    engine := .idle }

/-- `raise Error(E)`: the command ends at once, its memory writes so far stay, and on an error the three results are 0
(R75, R117, R250). The one error that keeps results, a truncated RLE_READ, is completed by its own rule (R142). -/
def State.raise (s : State) (e : ErrKind) : State := s.complete e 0 0 0

end Sys2Proof.Machine
end

