-- ==== Sys2Proof/Machine/Flags.lean ====
section
/-! DEFINITION. The STATUS register (R25): its computed bits, its codes and its word. -/

namespace Sys2Proof.Machine

/-- The code of an error kind (R251). -/
def ErrKind.code : ErrKind → BitVec 4
  | .none => 0#4
  | .unsupportedFormat => 1#4
  | .corruptStream => 2#4
  | .truncatedInput => 3#4
  | .badCommand => 4#4

/-- The code of a signature class (R27). -/
def SigClass.code : SigClass → BitVec 2
  | .supported => 0#2
  | .alt1 => 1#2
  | .alt2 => 2#2
  | .unknown => 3#2

/-- STATUS.RLE_AT_END, computed from the current state (R38). -/
def State.rleAtEnd (s : State) : Bool :=
  s.rleValid && decide (s.rlePtr = s.rleEnd) && s.rem.isEmpty

/-- The word a read of STATUS returns (R25), from bit 31 down to bit 0: reserved 31:14, LZ_SIG 13:12, reserved 11,
RLE_TRUNC, RLE_AT_END, RLE_VALID, reserved 7, CMD_IGN, ERR 5:2, DONE, BUSY. -/
def State.statusWord (s : State) : Word :=
  0#18 ++ s.lzSig.code ++ 0#1 ++ BitVec.ofBool s.rleTrunc ++ BitVec.ofBool s.rleAtEnd ++ BitVec.ofBool s.rleValid ++
    0#1 ++ BitVec.ofBool s.cmdIgn ++ s.err.code ++ BitVec.ofBool s.done ++ BitVec.ofBool s.busy

/-- The signature class of a signature word (R162). -/
def classify (c : Config) (sig : Word) : SigClass :=
  if sig = c.sigSupported then .supported
  else if sig = c.sigAlt1 then .alt1
  else if sig = c.sigAlt2 then .alt2
  else .unknown

end Sys2Proof.Machine
end

