-- ==== Sys2Proof/Machine/Operands.lean ====
section
/-! DEFINITION. The operand forms of every command (R74), its windows (R115), and the checks made before its first access
(R114 to R116, R67). -/

namespace Sys2Proof.Machine

/-- LARG[i] as an unsigned natural, with no sign extension and no scaling (R74). -/
def State.operand (s : State) (i : Nat) : Nat := (s.larg.get i).toNat

/-- `ceil_div` (R11). -/
def ceilDiv (a b : Nat) : Nat := (a + b - 1) / b

/-- FLAGS.HAS_FC, bit 0 of LARG3 of PLANAR_RES (R74). -/
def State.hasFrameCount (s : State) : Bool := s.larg.a3.getLsbD 0

/-- The RLE source window `[RLE_BASE, RLE_END)` (R35). -/
def State.rleSource (s : State) : Window := ⟨s.rleBase, s.rleEnd - s.rleBase⟩

/-- The source windows each command's rule names (R132, R133, R161, R201, R204, R221, R238). -/
def sourceWindows (i : Instr) (s : State) : List Window :=
  match i with
  | .rleOpen => [⟨s.operand 0, s.operand 1⟩]
  | .rleRead => [s.rleSource]
  | .lzDecode => [⟨s.operand 0, s.operand 1⟩]
  | .planarUnpack => [⟨s.operand 0, s.operand 4 * s.operand 2 * s.operand 3⟩]
  | .planarRes => [⟨s.operand 0, s.operand 5⟩]
  | .fieldSplit => [⟨s.operand 0, s.operand 1⟩]
  | .maskBuild => [⟨s.operand 0, 2 * s.operand 3 * s.operand 2⟩]
  | .rleLit _ => []
  | .rleNop => []
  | .rleRep _ => []
  | .lzLit _ _ => []
  | .lzMatch => []
  | .lzM0 _ => []
  | .lzM1 _ => []
  | .lzM2 _ => []
  | .lzM3S _ _ _ => []
  | .lzM3L _ _ _ => []

/-- The destination windows each command's rule names (R133, R161, R201, R204, R221, R238); RLE_OPEN has none. -/
def destWindows (i : Instr) (s : State) : List Window :=
  match i with
  | .rleOpen => []
  | .rleRead => [⟨s.operand 0, s.operand 1⟩]
  | .lzDecode => [⟨s.operand 2, s.operand 3⟩]
  | .planarUnpack => [⟨s.operand 1, s.operand 4 * s.operand 3 * 8⟩]
  | .planarRes => [⟨s.operand 1, s.operand 4⟩]
  | .fieldSplit =>
    [⟨s.operand 3, s.operand 6⟩, ⟨s.operand 4, ceilDiv (s.operand 6) 4⟩, ⟨s.operand 5, ceilDiv (s.operand 6) 8⟩]
  | .maskBuild => [⟨s.operand 1, 2 * s.operand 3 * s.operand 2⟩]
  | .rleLit _ => []
  | .rleNop => []
  | .rleRep _ => []
  | .lzLit _ _ => []
  | .lzMatch => []
  | .lzM0 _ => []
  | .lzM1 _ => []
  | .lzM2 _ => []
  | .lzM3S _ _ _ => []
  | .lzM3L _ _ _ => []

/-- The operand values each command's own rule accepts, before its windows are looked at (R114): an open stream for
RLE_READ (R145), the plane count and the capacity (R201), the FLAGS and the plane count (R204), the image bound (R221). -/
def operandsLegal (i : Instr) (s : State) : Bool :=
  match i with
  | .rleOpen => true
  | .rleRead => s.rleValid
  | .lzDecode => true
  | .planarUnpack =>
    decide (1 ≤ s.operand 2) && decide (s.operand 2 ≤ Config.planesMax) &&
      decide (s.operand 4 * s.operand 3 * 8 ≤ s.operand 5)
  | .planarRes =>
    s.larg.a3.extractLsb' 1 31 == 0#31 && decide (1 ≤ s.operand 2) && decide (s.operand 2 ≤ Config.planesMax)
  | .fieldSplit => decide (s.operand 2 + s.operand 1 ≤ s.operand 6)
  | .maskBuild => true
  | .rleLit _ => true
  | .rleNop => true
  | .rleRep _ => true
  | .lzLit _ _ => true
  | .lzMatch => true
  | .lzM0 _ => true
  | .lzM1 _ => true
  | .lzM2 _ => true
  | .lzM3S _ _ _ => true
  | .lzM3L _ _ _ => true

/-- The one overlap that is allowed: MASK_BUILD in place, D = S (R116, R241). -/
def inPlace (i : Instr) (s : State) : Bool :=
  match i with
  | .maskBuild => decide (s.operand 1 = s.operand 0)
  | _ => false

/-- Every window lies in M (R115) and none overlaps where R116 forbids it. -/
def windowsAdmitted (i : Instr) (s : State) : Bool :=
  ((sourceWindows i s ++ destWindows i s).all (Window.fits s.cfg.memBytes)) &&
    (inPlace i s || separate (sourceWindows i s) (destWindows i s))

/-- What a command does before its own operation, in the order of R256: operand checks (R114), then, with a window over
the register window, the fault of R67 (log 13), then the range and overlap checks (R115, R116). A failed check completes
the command with BadCommand; `body` runs only on an admitted command. -/
def guarded (i : Instr) (s : State) (body : State → Result) : Result :=
  if operandsLegal i s then
    if coversRegisters s.cfg (sourceWindows i s ++ destWindows i s) then .fault .windowCoversRegisters
    else if windowsAdmitted i s then body s
    else .next (s.raise .badCommand)
  else .next (s.raise .badCommand)

end Sys2Proof.Machine
end

