-- ==== Sys2Proof/Machine/Lz.lean ====
section
/-! DEFINITION. The LZ codes (R166 to R168, R171 to R177), run inside an LZ_DECODE at its bit cursor. -/

namespace Sys2Proof.Machine

/-- Bit m of the stream bit sequence of a payload of `pay` bytes at `base + 8` (R166). -/
def streamBit (m : Memory) (base pay i : Nat) : Bool :=
  (Memory.read m (base + 8 + (pay - 1 - i / 8))).getLsbD (i % 8)

/-- The `n` stream bits from bit `i` on. -/
def streamBits (m : Memory) (base pay i : Nat) : Nat → List Bool
  | 0 => []
  | n + 1 => streamBit m base pay i :: streamBits m base pay (i + 1) n

/-- How many payload bits are unread: 8P − c. -/
def LzCursor.left (x : LzCursor) : Nat := 8 * x.pay - x.c

/-- The unread payload bits, in stream order. -/
def LzCursor.bits (x : LzCursor) (m : Memory) : List Bool := streamBits m x.base x.pay x.c x.left

/-- The state of a code's byte loop: whether it went on to its end, the cursors, and M. -/
structure Written where
  ok : Bool
  cur : LzCursor
  mem : Memory
deriving DecidableEq, Repr

/-- `Out(ReadBits(8))`, `count` times (R168, R170, R172): it stops where the bits run out (R167) or where the output is
full (R168). -/
def literalRun : Nat → LzCursor → Memory → Written
  | 0, x, m => ⟨true, x, m⟩
  | n + 1, x, m =>
    if x.left < 8 then ⟨false, x, m⟩
    else if x.w = 0 then ⟨false, x, m⟩
    else
      literalRun n { x with c := x.c + 8, w := x.w - 1 }
        (Memory.write m (x.dst + (x.w - 1)) (BitVec.ofNat 8 (bitsVal (streamBits m x.base x.pay x.c 8))))

/-- `Out(M[D + w + off])`, `len` times (R168, R177): each read sees the bytes this copy has already written, and the copy
stops where the output is full. -/
def copyRun (off : Nat) : Nat → LzCursor → Memory → Written
  | 0, x, m => ⟨true, x, m⟩
  | n + 1, x, m =>
    if x.w = 0 then ⟨false, x, m⟩
    else
      copyRun off n { x with w := x.w - 1 }
        (Memory.write m (x.dst + (x.w - 1)) (Memory.read m (x.dst + x.w + off)))

/-- The end of a code: with its byte loop run to the end, decoding goes on at the next code; otherwise CorruptStream, and
the bytes written stay (R117). -/
def afterCode (r : Written) (atMatch : Bool) (s : State) : State :=
  if r.ok then { s with mem := r.mem, engine := .inflating { r.cur with atMatch := atMatch } }
  else { s with mem := r.mem }.raise .corruptStream

/-- A match of `len` bytes at offset `off`, whose code takes `bits` bits: validated before any byte is copied (R176), then
copied (R177); the next code stands at a control position (R170). -/
def runMatch (bits len off : Nat) (s : State) : Result :=
  match s.engine with
  | .inflating x =>
    if x.w + off < x.len then .next (afterCode (copyRun off len { x with c := x.c + bits } s.mem) false s)
    else .next (s.raise .corruptStream)
  | _ => .refused .noDecodeInFlight

/-- The literal count of LZ.LIT: 1 + 3k + g (R171). -/
def literalCount (k : Nat) (g : BitVec 2) : Nat := 1 + 3 * k + g.toNat

/-- The length of a long match: 5 + 7k + g (R175). -/
def longLength (k : Nat) (g : BitVec 3) : Nat := 5 + 7 * k + g.toNat

/-- LZ.LIT (R171 to R173): after its code, `literalCount` raw bytes; a match follows unless the output is full. -/
def execLzLit (k : Nat) (g : BitVec 2) (s : State) : Result :=
  match s.engine with
  | .inflating x =>
    .next (afterCode (literalRun (literalCount k g) { x with c := x.c + codeLength (.lzLit k g) } s.mem) true s)
  | _ => .refused .noDecodeInFlight

/-- LZ.MATCH (R174): the control bit is consumed and a match follows. -/
def execLzMatch (s : State) : Result :=
  match s.engine with
  | .inflating x => .next { s with engine := .inflating { x with c := x.c + codeLength .lzMatch, atMatch := true } }
  | _ => .refused .noDecodeInFlight

/-- LZ.M0 (R174): length 2. -/
def execLzM0 (off : List Bool) (s : State) : Result := runMatch (codeLength (.lzM0 off)) 2 (bitsVal off) s

/-- LZ.M1 (R174): length 3. -/
def execLzM1 (off : List Bool) (s : State) : Result := runMatch (codeLength (.lzM1 off)) 3 (bitsVal off) s

/-- LZ.M2 (R174): length 4. -/
def execLzM2 (off : List Bool) (s : State) : Result := runMatch (codeLength (.lzM2 off)) 4 (bitsVal off) s

/-- LZ.M3S (R175): an offset of 7 bits, length 5 and its extension. -/
def execLzM3S (off : List Bool) (k : Nat) (g : BitVec 3) (s : State) : Result :=
  runMatch (codeLength (.lzM3S off k g)) (longLength k g) (bitsVal off) s

/-- LZ.M3L (R175): an offset of t[3] bits, length 5 and its extension. -/
def execLzM3L (off : List Bool) (k : Nat) (g : BitVec 3) (s : State) : Result :=
  runMatch (codeLength (.lzM3L off k g)) (longLength k g) (bitsVal off) s

end Sys2Proof.Machine
end

