-- ==== Sys2Proof/Machine/Rle.lean ====
section
/-! DEFINITION. The RLE records (R131, R135 to R137), run inside an RLE_READ at RLE_PTR. -/

namespace Sys2Proof.Machine

/-- Delivery of a decoded record (R133, R139): the first `MAX − produced` bytes go to the destination, the rest become
REM. -/
def deliver (x : ReadCursor) (rec : List Byte) (s : State) : State :=
  let t := min rec.length (x.max - x.produced)
  { s with
    mem := Memory.writeList s.mem (x.dst + x.produced) (rec.take t)
    rem := rec.drop t
    engine := .reading { x with produced := x.produced + t } }

/-- The end of RLE_READ (R133, R142): RESULT0 is what was produced, RESULT1 the length of REM. -/
def finishRead (x : ReadCursor) (s : State) : State :=
  s.complete .none (regWord x.produced) (regWord s.rem.length) 0

/-- A truncated record (R141): every remaining source byte is consumed, RLE_TRUNC is set, and the command completes with
TruncatedInput, keeping its results (R142). -/
def truncateRead (x : ReadCursor) (s : State) : State :=
  { s with rlePtr := s.rleEnd, rleTrunc := true }.complete .truncatedInput (regWord x.produced) (regWord s.rem.length) 0

/-- RLE.LIT (R135): after the control byte, n+1 source bytes verbatim; a shorter rest is a truncated record (R141). -/
def execRleLit (n : BitVec 7) (s : State) : Result :=
  match s.engine with
  | .reading x =>
    let count := n.toNat + 1
    let ptr := s.rlePtr + 1
    if s.rleEnd - ptr < count then .next (truncateRead x s)
    else .next (deliver x (Memory.readList s.mem ptr count) { s with rlePtr := ptr + count })
  | _ => .refused .noReadInFlight

/-- RLE.NOP (R137): the control byte is consumed, nothing else is read and nothing is produced. -/
def execRleNop (s : State) : Result :=
  match s.engine with
  | .reading _ => .next { s with rlePtr := s.rlePtr + 1 }
  | _ => .refused .noReadInFlight

/-- RLE.REP (R136): with b = 128 + n, one byte v is read and the expansion is 257 − b = 129 − n copies of it; with no
byte left the record is truncated (R141). -/
def execRleRep (n : BitVec 7) (s : State) : Result :=
  match s.engine with
  | .reading x =>
    let ptr := s.rlePtr + 1
    if s.rleEnd ≤ ptr then .next (truncateRead x s)
    else .next (deliver x (List.replicate (129 - n.toNat) (Memory.read s.mem ptr)) { s with rlePtr := ptr + 1 })
  | _ => .refused .noReadInFlight

end Sys2Proof.Machine
end

