-- ==== Sys2Proof/Machine/Stream.lean ====
section
/-! DEFINITION. The loop of the two stream commands (R133, R170): the next code at the cursor, one code, and the run to the
end of the command. -/

namespace Sys2Proof.Machine

/-- The end of LZ_DECODE (R178, R179): RESULT0 = L, RESULT1 = the unread payload bits, RESULT2 = the skip count. -/
def finishInflate (x : LzCursor) (s : State) : State :=
  s.complete .none (regWord x.len) (trunc32 x.left) (x.skip.setWidth 32)

/-- The place a code of the LZ stream is decoded at (R84). -/
def LzCursor.place (x : LzCursor) : Place := if x.atMatch then .selector x.tab else .control

/-- The code at the LZ cursor; none when the payload ends inside it (R167). -/
def LzCursor.next (x : LzCursor) (m : Memory) : Option Instr :=
  (decodeAt x.place (.bits []) (x.bits m)).map (·.1)

/-- Whether the command in progress still wants a code: RLE_READ while bytes are requested and the source is not
exhausted (R138), LZ_DECODE while the output is not full (R170). -/
def State.wantsCode (s : State) : Bool :=
  match s.engine with
  | .idle => false
  | .reading x => decide (x.produced < x.max) && decide (s.rlePtr < s.rleEnd)
  | .inflating x => decide (0 < x.w)

/-- The code at the cursor of the command in progress. -/
def State.codeAtCursor (s : State) : Option Instr :=
  match s.engine with
  | .idle => none
  | .reading _ => some (decodeRecord (Memory.read s.mem s.rlePtr))
  | .inflating x => x.next s.mem

/-- The end of a command that wants no further code. -/
def State.finish (s : State) : State :=
  match s.engine with
  | .idle => s
  | .reading x => finishRead x s
  | .inflating x => finishInflate x s

/-- The meaning of a record or an LZ code inside its command: the same definitions `exec` calls. -/
def execStream (i : Instr) (s : State) : Result :=
  match i with
  | .rleOpen => .refused .notAStreamCode
  | .rleRead => .refused .notAStreamCode
  | .lzDecode => .refused .notAStreamCode
  | .planarUnpack => .refused .notAStreamCode
  | .planarRes => .refused .notAStreamCode
  | .fieldSplit => .refused .notAStreamCode
  | .maskBuild => .refused .notAStreamCode
  | .rleLit n => execRleLit n s
  | .rleNop => execRleNop s
  | .rleRep n => execRleRep n s
  | .lzLit k g => execLzLit k g s
  | .lzMatch => execLzMatch s
  | .lzM0 off => execLzM0 off s
  | .lzM1 off => execLzM1 off s
  | .lzM2 off => execLzM2 off s
  | .lzM3S off k g => execLzM3S off k g s
  | .lzM3L off k g => execLzM3L off k g s

/-- One move inside a command: the code at the cursor runs; bits that run out inside a code are CorruptStream (R167); a
command that wants no further code ends. -/
def streamStep (s : State) : Result :=
  if s.wantsCode then
    match s.codeAtCursor with
    | some i => execStream i s
    | none => .next (s.raise .corruptStream)
  else .next s.finish

/-- The loop of a stream command, run to its end in one completion (R112, R122). `fuel` bounds the codes: each takes at
least one byte of the RLE source or one bit of the payload. -/
def runStream : Nat → State → Result
  | 0, s => .next s
  | fuel + 1, s =>
    match s.engine with
    | .idle => .next s
    | _ =>
      match streamStep s with
      | .next t => runStream fuel t
      | .fault r => .fault r
      | .refused r => .refused r

end Sys2Proof.Machine
end

