-- ==== Sys2Proof/Machine/Decompress.lean ====
section
/-! DEFINITION. The stream commands: RLE_OPEN (R132), RLE_READ (R133), LZ_DECODE (R161). -/

namespace Sys2Proof.Machine

/-- The RLE unit after a successful RLE_OPEN (R132). -/
def State.openStream (s : State) (base len : Nat) : State :=
  { s with
    rleBase := base
    rlePtr := base
    rleEnd := base + len
    rem := []
    rleTrunc := false
    rleValid := true }

/-- RLE_OPEN (R132). -/
def execRleOpen (s : State) : Result :=
  guarded .rleOpen s fun s => .next ((s.openStream (s.operand 0) (s.operand 1)).complete .none 0 0 0)

/-- RLE_READ's first move (R134): the remainder is flushed, and the loop of R133 begins. -/
def State.startRead (s : State) (dst max : Nat) : State :=
  let k := min s.rem.length max
  { s with
    mem := Memory.writeList s.mem dst (s.rem.take k)
    rem := s.rem.drop k
    engine := .reading ⟨dst, max, k⟩ }

/-- RLE_READ (R133): the remainder, then records until MAX bytes are produced or the source is exhausted. -/
def execRleRead (s : State) : Result :=
  guarded .rleRead s fun s => runStream (s.rleEnd - s.rlePtr + 1) (s.startRead (s.operand 0) (s.operand 1))

/-- The main decoder with the cursors `x` (R169, R170): the skip bits are read first. -/
def inflate (x : LzCursor) (s : State) : Result :=
  if x.left < x.skip.toNat then .next (s.raise .corruptStream)
  else
    runStream (8 * x.pay + 1) { s with engine := .inflating { x with c := x.c + x.skip.toNat } }

/-- The offset-width table at `a` (R181). -/
def readWidths (m : Memory) (a : Nat) : Widths :=
  ⟨Memory.read m a, Memory.read m (a + 1), Memory.read m (a + 2), Memory.read m (a + 3)⟩

/-- The cursors LZ_DECODE starts with, for a blob of `n ≥ 12` bytes at `b` (R161, R164, R181). -/
def lzStart (m : Memory) (b n d : Nat) : LzCursor :=
  let t := Memory.readWord m (b + n - 4)
  let len := (t.extractLsb' 8 24).toNat
  { base := b
    pay := n - 12
    dst := d
    len := len
    skip := t.extractLsb' 0 8
    tab := readWidths m (b + 4)
    c := 0
    w := len
    atMatch := false }

/-- The outer part of LZ_DECODE on an admitted command (R161), with the errors in the order of R180. -/
def lzBody (b n d cap : Nat) (s : State) : Result :=
  if n < 4 then .next ({ s with lzSig := .supported }.raise .corruptStream)
  else
    let sig := classify s.cfg (Memory.readWord s.mem b)
    let s := { s with lzSig := sig }
    if sig ≠ .supported then .next (s.raise .unsupportedFormat)
    else if n < 12 then .next (s.raise .corruptStream)
    else
      let x := lzStart s.mem b n d
      if cap < x.len then .next (s.raise .corruptStream) else inflate x s

/-- LZ_DECODE (R161). -/
def execLzDecode (s : State) : Result :=
  guarded .lzDecode s fun s => lzBody (s.operand 0) (s.operand 1) (s.operand 2) (s.operand 3) s

end Sys2Proof.Machine
end

