-- ==== Sys2Proof/Machine/Mask.lean ====
section
/-! DEFINITION. The MASK unit (R235 to R242): the two nibble tables and MASK_BUILD. -/

namespace Sys2Proof.Machine

/-- T0, the expansion of a nibble of plane 0 (R236). -/
def tableT0 : List Byte :=
  [0x00#8, 0x40#8, 0x10#8, 0x50#8, 0x04#8, 0x44#8, 0x14#8, 0x54#8,
    0x01#8, 0x41#8, 0x11#8, 0x51#8, 0x05#8, 0x45#8, 0x15#8, 0x55#8]

/-- T1, the expansion of a nibble of plane 1 (R237). -/
def tableT1 : List Byte :=
  [0x00#8, 0x80#8, 0x20#8, 0xA0#8, 0x08#8, 0x88#8, 0x28#8, 0xA8#8,
    0x02#8, 0x82#8, 0x22#8, 0xA2#8, 0x0A#8, 0x8A#8, 0x2A#8, 0xAA#8]

/-- `T0[a] | T1[b]` for two nibbles (R235). -/
def maskEntry (a b : BitVec 4) : Byte := tableT0.getD a.toNat 0 ||| tableT1.getD b.toNat 0

/-- The output bytes of a row of plane-0 bytes and a row of plane-1 bytes: high nibbles, then low nibbles (R238, R240). -/
def maskRow : List Byte → List Byte → List Byte
  | a :: p0, b :: p1 =>
    maskEntry (a.extractLsb' 4 4) (b.extractLsb' 4 4) :: maskEntry (a.extractLsb' 0 4) (b.extractLsb' 0 4) ::
      maskRow p0 p1
  | _, _ => []

/-- Scanline `r` (R238 to R241): its 2W input bytes are read before its 2W output bytes are written. -/
def maskScanline (src dst w r : Nat) (m : Memory) : Memory :=
  let base := 2 * w * r
  Memory.writeList m (dst + base)
    (maskRow (Memory.readList m (src + base) w) (Memory.readList m (src + base + w) w))

/-- The scanlines r in [0, ROWS) (R238). -/
def maskRows (src dst rows w : Nat) (m : Memory) : Memory := forN rows (fun r m => maskScanline src dst w r m) m

/-- MASK_BUILD (R238). -/
def execMaskBuild (s : State) : Result :=
  guarded .maskBuild s fun s =>
    let m := maskRows (s.operand 0) (s.operand 1) (s.operand 2) (s.operand 3) s.mem
    .next ({ s with mem := m }.complete .none (regWord (2 * s.operand 3 * s.operand 2)) 0 0)

end Sys2Proof.Machine
end

