-- ==== Sys2Proof/Machine/Planar.lean ====
section
/-! DEFINITION. The PLANAR unit (R200 to R207): PLANAR_UNPACK and PLANAR_RES over one transform (R202). -/

namespace Sys2Proof.Machine

/-- One byte of each of `planes` planes: `q[p] <- M[src + j + p*PS]` with `a = src + j` (R202). -/
def planeBytes (m : Memory) (a ps : Nat) : Nat → List Byte
  | 0 => []
  | planes + 1 => Memory.read m a :: planeBytes m (a + ps) ps planes

/-- A pixel byte: bit p is bit `bit` of `q[p]`, from plane `p` on (R202). -/
def gatherBits (q : List Byte) (bit p : Nat) : Byte :=
  match q with
  | [] => 0
  | b :: q => ((BitVec.ofBool (b.getLsbD bit)).setWidth 8 <<< p) ||| gatherBits q bit (p + 1)

/-- The 8 pixels of a byte column, most-significant bit first: pixel i takes bit 7 − i (R202). -/
def columnPixels (q : List Byte) : List Byte :=
  [gatherBits q 7 0, gatherBits q 6 0, gatherBits q 5 0, gatherBits q 4 0,
    gatherBits q 3 0, gatherBits q 2 0, gatherBits q 1 0, gatherBits q 0 0]

/-- One frame of `Unpack` (R202): byte columns j in [0, PS). -/
def unpackFrame (src dst planes ps : Nat) (m : Memory) : Memory :=
  forN ps (fun j m => Memory.writeList m (dst + 8 * j) (columnPixels (planeBytes m (src + j) ps planes))) m

/-- `Unpack(S, D, PC, PS, FC)` (R202): frames f in [0, FC). -/
def unpack (src dst planes ps frames : Nat) (m : Memory) : Memory :=
  forN frames (fun f m => unpackFrame (src + f * ps * planes) (dst + f * ps * 8) planes ps m) m

/-- PLANAR_UNPACK (R201). -/
def execPlanarUnpack (s : State) : Result :=
  guarded .planarUnpack s fun s =>
    let m := unpack (s.operand 0) (s.operand 1) (s.operand 2) (s.operand 3) (s.operand 4) s.mem
    .next ({ s with mem := m }.complete .none (regWord (s.operand 4 * s.operand 3 * 8)) 0 0)

/-- The header of a planar bitmap resource (R86, R204): its length, frame count, width and height. -/
structure PlanarHeader where
  bytes : Nat
  frames : Nat
  width : Nat
  height : Nat
deriving DecidableEq, Repr

/-- How many header bytes a resource has (R86). -/
def headerBytes (hasFc : Bool) : Nat := if hasFc then 3 else 2

/-- The header at `src`, in the form FLAGS.HAS_FC says (R86, R205). -/
def readHeader (m : Memory) (src : Nat) (hasFc : Bool) : PlanarHeader :=
  if hasFc then
    ⟨3, (Memory.read m src).toNat, (Memory.read m (src + 1)).toNat, (Memory.read m (src + 2)).toNat⟩
  else ⟨2, 1, (Memory.read m src).toNat, (Memory.read m (src + 1)).toNat⟩

/-- `planeSize = (W div 8) * H` (R87). -/
def PlanarHeader.planeSize (h : PlanarHeader) : Nat := h.width / 8 * h.height

/-- `W | H << 8 | FC << 16` (R75): the three are bytes, so the fields do not meet. -/
def PlanarHeader.word (h : PlanarHeader) : Word :=
  0#8 ++ BitVec.ofNat 8 h.frames ++ BitVec.ofNat 8 h.height ++ BitVec.ofNat 8 h.width

/-- PLANAR_RES (R204), with its errors in the order of the pseudocode. -/
def execPlanarRes (s : State) : Result :=
  guarded .planarRes s fun s =>
    let planes := s.operand 2
    let cap := s.operand 4
    let rlen := s.operand 5
    if rlen < headerBytes s.hasFrameCount then .next (s.raise .truncatedInput)
    else
      let h := readHeader s.mem (s.operand 0) s.hasFrameCount
      let ps := h.planeSize
      if h.width % 8 ≠ 0 then .next (s.raise .corruptStream)
      else if cap < h.frames * ps * 8 then .next (s.raise .corruptStream)
      else if rlen < h.bytes + h.frames * planes * ps then .next (s.raise .truncatedInput)
      else
        let m := unpack (s.operand 0 + h.bytes) (s.operand 1) planes ps h.frames s.mem
        .next ({ s with mem := m }.complete .none (regWord (h.frames * ps * 8)) h.word (regWord ps))

end Sys2Proof.Machine
end

