-- ==== Sys2Proof/Machine/Split.lean ====
section
/-! DEFINITION. The SPLIT unit (R220 to R227): FIELD_SPLIT. -/

namespace Sys2Proof.Machine

/-- The colour index, bits 4:0 of the packed byte (R88, R224). -/
def colourField (b : Byte) : Byte := (b.extractLsb' 0 5).setWidth 8

/-- The mask value, bits 6:5, at the bit pair of pixel `j` (R88, R223). -/
def maskField (b : Byte) (j : Nat) : Byte := (b.extractLsb' 5 2).setWidth 8 <<< (2 * (j % 4))

/-- The path bit, bit 7, at the bit of pixel `j` (R88, R222). -/
def pathField (b : Byte) (j : Nat) : Byte := (b.extractLsb' 7 1).setWidth 8 <<< (j % 8)

/-- A read of the byte at `a` and a write of its OR with `v` (R225). -/
def Memory.orAt (m : Memory) (a : Nat) (v : Byte) : Memory := Memory.write m a (Memory.read m a ||| v)

/-- The three writes of pixel `j` (R221): colour, mask, path. -/
def splitPixel (cd md pd : Nat) (b : Byte) (j : Nat) (m : Memory) : Memory :=
  Memory.orAt (Memory.orAt (Memory.orAt m (cd + j) (colourField b)) (md + j / 4) (maskField b j)) (pd + j / 8)
    (pathField b j)

/-- The pixels i in [0, COUNT) of a call, at image pixels J0 + i (R221, R226). -/
def splitPixels (src count j0 cd md pd : Nat) (m : Memory) : Memory :=
  forN count (fun i m => splitPixel cd md pd (Memory.read m (src + i)) (j0 + i) m) m

/-- FIELD_SPLIT (R221). -/
def execFieldSplit (s : State) : Result :=
  guarded .fieldSplit s fun s =>
    let m := splitPixels (s.operand 0) (s.operand 1) (s.operand 2) (s.operand 3) (s.operand 4) (s.operand 5) s.mem
    .next ({ s with mem := m }.complete .none (regWord (s.operand 1)) 0 0)

end Sys2Proof.Machine
end

