-- ==== Sys2Proof/Machine/Dispatch.lean ====
section
/-! DEFINITION. One arm for each instruction. -/

namespace Sys2Proof.Machine

def exec (i : Instr) (s : State) : Host.Outcome State Fault Refusal :=
  match i with
  | .rleOpen => Sys2Proof.Machine.execRleOpen s
  | .rleRead => Sys2Proof.Machine.execRleRead s
  | .lzDecode => Sys2Proof.Machine.execLzDecode s
  | .planarUnpack => Sys2Proof.Machine.execPlanarUnpack s
  | .planarRes => Sys2Proof.Machine.execPlanarRes s
  | .fieldSplit => Sys2Proof.Machine.execFieldSplit s
  | .maskBuild => Sys2Proof.Machine.execMaskBuild s
  | .rleLit n => Sys2Proof.Machine.execRleLit n s
  | .rleNop => Sys2Proof.Machine.execRleNop s
  | .rleRep n => Sys2Proof.Machine.execRleRep n s
  | .lzLit k g => Sys2Proof.Machine.execLzLit k g s
  | .lzMatch => Sys2Proof.Machine.execLzMatch s
  | .lzM0 off => Sys2Proof.Machine.execLzM0 off s
  | .lzM1 off => Sys2Proof.Machine.execLzM1 off s
  | .lzM2 off => Sys2Proof.Machine.execLzM2 off s
  | .lzM3S off k g => Sys2Proof.Machine.execLzM3S off k g s
  | .lzM3L off k g => Sys2Proof.Machine.execLzM3L off k g s

end Sys2Proof.Machine
end

