-- ==== Sys2Proof/Machine/HostPort.lean ====
section
/-! DEFINITION. The HOST's accesses: the register window (R23 to R33, R70, R119), single bytes of M (R101, R286), reset
(R280 to R282). -/

namespace Sys2Proof.Machine

/-! ### The register window -/

/-- The word register offset `off` reads as (R23 to R33, R70); a reserved offset reads 0 (R33). -/
def State.readReg (s : State) (off : Nat) : Word :=
  match off with
  | 0x00 => Config.blockId
  | 0x04 => s.cmdLast
  | 0x08 => s.statusWord
  | 0x10 => s.arg.a0
  | 0x14 => s.arg.a1
  | 0x18 => s.arg.a2
  | 0x1C => s.arg.a3
  | 0x20 => s.arg.a4
  | 0x24 => s.arg.a5
  | 0x28 => s.arg.a6
  | 0x2C => s.arg.a7
  | 0x30 => s.result0
  | 0x34 => s.result1
  | 0x38 => s.result2
  | 0x40 => regWord s.rleBase
  | 0x44 => regWord s.rlePtr
  | 0x48 => regWord s.rleEnd
  | 0x4C => (BitVec.ofNat 9 s.rem.length).setWidth 32
  | _ => 0

/-- The argument register at offset `off` (R28). -/
def argIndex (off : Nat) : Option Nat :=
  if 0x10 ≤ off ∧ off ≤ 0x2C ∧ off % 4 = 0 then some ((off - 0x10) / 4) else none

/-- A host write of `v` at offset `off` (R119): CMD issues, ARG0..ARG7 are set, every other offset ignores it. -/
def State.writeReg (s : State) (off : Nat) (v : Word) : State :=
  if off = 0x04 then s.issue v
  else
    match argIndex off with
    | some i => { s with arg := s.arg.set i v }
    | none => s

/-- The offset of a register access (R70), or why it has none: it must lie in the window (log 12) and be an aligned
32-bit access (R54, R287). -/
def registerOffset (c : Config) (addr width : Nat) : Except Refusal Nat :=
  if Window.holds (registerWindow c) addr then
    if width = 4 ∧ (addr - c.regBase) % 4 = 0 then .ok (addr - c.regBase) else .error .registerAccessWidth
  else .error .outsideRegisterWindow

/-- A host register read (R119): the word is returned, and nothing else changes (R57). -/
def hostRegRead (addr width : Nat) (s : State) : Result :=
  match registerOffset s.cfg addr width with
  | .ok off => .next { s with regData := s.readReg off }
  | .error r => .refused r

/-- A host register write (R119). -/
def hostRegWrite (addr width : Nat) (v : Word) (s : State) : Result :=
  match registerOffset s.cfg addr width with
  | .ok off => .next (s.writeReg off v)
  | .error r => .refused r

/-! ### Single bytes of M -/

/-- The source windows of the pending command; none while no legal command is pending (R113, R286; log 15). -/
def State.busySources (s : State) : List Window :=
  match s.busy, decodeCmd s.pend with
  | true, some i => sourceWindows i s
  | _, _ => []

/-- The destination windows of the pending command (R286; log 15). -/
def State.busyDests (s : State) : List Window :=
  match s.busy, decodeCmd s.pend with
  | true, some i => destWindows i s
  | _, _ => []

/-- Some window of the list holds the address. -/
def anyHolds (ws : List Window) (a : Nat) : Bool := ws.any fun w => Window.holds w a

/-- The byte access falls on the register window, where the platform maps it inside M: it is then a register access that
is not a 32-bit one (R67, R287; log 13). -/
def onRegisters (c : Config) (a : Nat) : Bool := c.regsInMem && Window.holds (registerWindow c) a

/-- A host read of one byte of M (PEEK, R101): a hazard on a busy command's destinations (R286). -/
def hostPeek (a : Nat) (s : State) : Result :=
  if onRegisters s.cfg a then .refused .registerAccessWidth
  else if s.cfg.memBytes ≤ a then .fault .hostOutsideMemory
  else if anyHolds s.busyDests a then .fault .hazardHostRead
  else .next { s with memData := Memory.read s.mem a }

/-- A host write of one byte of M (POKE, R101): a hazard on a busy command's windows (R286). -/
def hostPoke (a : Nat) (v : Byte) (s : State) : Result :=
  if onRegisters s.cfg a then .refused .registerAccessWidth
  else if s.cfg.memBytes ≤ a then .fault .hostOutsideMemory
  else if anyHolds (s.busySources ++ s.busyDests) a then .fault .hazardHostWrite
  else .next { s with mem := Memory.write s.mem a v }

/-! ### Reset -/

/-- Every byte of an abandoned destination window that lies in M takes a free value (R282; log 14). -/
def Memory.abandon (bound draw : Nat) (m : Memory) (w : Window) : Memory :=
  forN (min w.len (bound - w.base)) (fun i m => Memory.write m (w.base + i) (Config.drawnByte draw (w.base + i))) m

/-- M after a reset (R281, R282): the block writes nothing; the destination windows of an abandoned command are free,
and then the platform's own bytes are laid over. -/
def State.memAfterReset (s : State) (left : List Host.Cell) : Memory :=
  Memory.overlay s.cfg.memBytes (s.busyDests.foldl (Memory.abandon s.cfg.memBytes s.draws) s.mem) left

/-- A reset (R280): every piece of block state takes the value of R42. The parameters, the host's port and the turns to
come are no state of the block and stay. -/
def hostReset (left : List Host.Cell) (s : State) : State :=
  { State.reset with
    cfg := s.cfg
    mem := s.memAfterReset left
    turns := s.turns
    regData := s.regData
    memData := s.memData
    draws := s.draws + 1 }

end Sys2Proof.Machine
end

