-- ==== Sys2Proof/Machine/HostProgram.lean ====
section
/-! DEFINITION. The host's assembler syntax (R100) and pseudo-instructions (R101), as the turns they expand to; where a
host finds the packed pixels of a background resource (R96). -/

namespace Sys2Proof.Machine

/-- The assembler's command lines, with their operands in the order of R100, and the pseudo-instructions of R101. A WAIT
says how many polls read BUSY = 1 before the ENGINE moves (R293; log 24). -/
inductive HostStmt where
  | rleOpen (src len : Word)
  | rleRead (dst max : Word)
  | lzDecode (blob blen dst cap : Word)
  | planarUnpack (src dst planes psize frames cap : Word)
  | planarRes (src dst planes flags cap rlen : Word)
  | fieldSplit (src count j0 cdst mdst pdst npix : Word)
  | maskBuild (src dst rows w : Word)
  | wr (off : Nat) (v : Word)
  | rd (off : Nat)
  | wait (polls : Nat)
  | check (polls : Nat) (e : BitVec 4)
  | poke (a : Nat) (bytes : List Byte)
  | peek (a n : Nat)
deriving DecidableEq, Repr

/-- `WR off, v` (R100). -/
def wrTurn (c : Config) (off : Nat) (v : Word) : Turn := .regWrite (c.regBase + off) 4 v

/-- `RD off` (R101). -/
def rdTurn (c : Config) (off : Nat) : Turn := .regRead (c.regBase + off) 4

/-- The k register writes of a command's operands, from ARG`i` on (R100). -/
def wrOperands (c : Config) (i : Nat) : List Word → List Turn
  | [] => []
  | v :: vs => wrTurn c (0x10 + 4 * i) v :: wrOperands c (i + 1) vs

/-- A command line: its operand writes and then one CMD write (R100). -/
def wrCommand (c : Config) (op : Word) (vs : List Word) : List Turn := wrOperands c 0 vs ++ [wrTurn c 0x04 op]

/-- `WAIT` (R101): polls that read BUSY = 1, the ENGINE's move, and the poll that reads BUSY = 0. -/
def waitTurns (c : Config) (polls : Nat) : List Turn :=
  List.replicate polls (rdTurn c 0x08) ++ [.engine, rdTurn c 0x08]

/-- Byte writes at `a`, `a+1`, … (R101). -/
def pokeTurns (a : Nat) : List Byte → List Turn
  | [] => []
  | b :: bs => .poke a b :: pokeTurns (a + 1) bs

/-- Byte reads at `a`, `a+1`, … (R101). -/
def peekTurns (a : Nat) : Nat → List Turn
  | 0 => []
  | n + 1 => .peek a :: peekTurns (a + 1) n

/-- The turns of one line (R100, R101). The assertion of a CHECK is `checkHolds`. -/
def HostStmt.turns (c : Config) : HostStmt → List Turn
  | .rleOpen src len => wrCommand c 0x01#32 [src, len]
  | .rleRead dst max => wrCommand c 0x02#32 [dst, max]
  | .lzDecode blob blen dst cap => wrCommand c 0x10#32 [blob, blen, dst, cap]
  | .planarUnpack src dst planes psize frames cap => wrCommand c 0x20#32 [src, dst, planes, psize, frames, cap]
  | .planarRes src dst planes flags cap rlen => wrCommand c 0x21#32 [src, dst, planes, flags, cap, rlen]
  | .fieldSplit src count j0 cdst mdst pdst npix => wrCommand c 0x30#32 [src, count, j0, cdst, mdst, pdst, npix]
  | .maskBuild src dst rows w => wrCommand c 0x40#32 [src, dst, rows, w]
  | .wr off v => [wrTurn c off v]
  | .rd off => [rdTurn c off]
  | .wait polls => waitTurns c polls
  | .check polls _ => waitTurns c polls ++ [rdTurn c 0x08]
  | .poke a bytes => pokeTurns a bytes
  | .peek a n => peekTurns a n

/-- The turns of a host program (R100). -/
def programTurns (c : Config) (p : List HostStmt) : List Turn := p.flatMap (HostStmt.turns c)

/-- What `CHECK e` asserts of the STATUS word it has just read: bits 5:2 are e (R101). -/
def checkHolds (e : BitVec 4) (s : State) : Bool := s.regData.extractLsb' 2 4 == e

/-- Where the packed pixel data of a background resource at `header` begins (R96): after the palette block, 4 bytes of
depth values and 6 records of 8 bytes. -/
def backgroundPixels (c : Config) (header : Nat) : Nat := header + c.paletteBlockBytes + 4 + 6 * 8

end Sys2Proof.Machine
end

