-- ==== Sys2Proof/Machine/Advance.lean ====
section
/-! DEFINITION. What one step does (R5, R112): the ENGINE's completion, a HOST access, or the rest of a command a state is
in the middle of; and how a table word is placed to be run next (log 22, log 23). -/

namespace Sys2Proof.Machine

/-- The completion of the pending command (R112): command decode (R113), then the command's own rule. -/
def completion (s : State) : Result :=
  match decodeCmd s.pend with
  | some i => exec i s
  | none => .next (s.raise .badCommand)

/-- The ENGINE's step: the completion while BUSY = 1 (R112); with no command pending it has no step (R5). -/
def engineTurn (s : State) : Result := if s.busy then completion s else .next s

/-- One turn (R5). -/
def takeTurn (t : Turn) (s : State) : Result :=
  match t with
  | .engine => engineTurn s
  | .regRead addr width => hostRegRead addr width s
  | .regWrite addr width v => hostRegWrite addr width v s
  | .peek a => hostPeek a s
  | .poke a v => hostPoke a v s
  | .reset left => .next (hostReset left s)

/-- One step. From an idle engine: the next turn, or with no turn left the ENGINE's step, the weak fairness of R293
(log 6). In the middle of a command: its next record or code (log 7). -/
def advance (s : State) : Result :=
  match s.engine with
  | .idle =>
    match s.turns with
    | [] => engineTurn s
    | t :: ts => takeTurn t { s with turns := ts }
  | .reading _ => streamStep s
  | .inflating _ => streamStep s

/-! ### Placing a table word (log 22, log 23) -/

/-- A command word: it is the pending command of a busy block, and the ENGINE moves next. -/
def State.fetchCommand (s : State) (w : Word) : State :=
  { s with pend := w, busy := true, done := false, engine := .idle, turns := .engine :: s.turns }

/-- A control byte: an RLE_READ of 128 bytes is in flight over a source of the byte at address 0 and 128 bytes of zeros
after it, with destination 0x200. M holds these bytes alone, so that the code can be evaluated (log 23). -/
def State.fetchRecord (s : State) (b : Byte) : State :=
  { s with
    mem := Memory.writeList [] 0 (b :: List.replicate 128 0#8)
    pend := 0x02#32
    busy := true
    done := false
    rleValid := true
    rleBase := 0
    rlePtr := 0
    rleEnd := 129
    rem := []
    engine := .reading ⟨0x200, 128, 0⟩ }

/-- The payload bytes, in rising address order, that deliver the bits of `w` first and then zeros: the stream takes its
bytes from the highest address down and each byte from bit 0 up (R166). -/
def payloadOf (w : Nat) : Nat → List Byte
  | 0 => []
  | n + 1 => payloadOf (w / 256) n ++ [BitVec.ofNat 8 w]

/-- A bit code: an LZ_DECODE is in flight over a payload of 16 bytes at address 8 that delivers the bits of `w` first, with
8 of 32 output bytes at 0x200 written. M holds these bytes alone (log 23). -/
def State.fetchBits (s : State) (nbits w : Nat) : State :=
  { s with
    mem := Memory.writeList [] 8 (payloadOf (w % 2 ^ nbits) 16)
    pend := 0x10#32
    busy := true
    done := false
    engine :=
      .inflating
        { base := 0
          pay := 16
          dst := 0x200
          len := 32
          skip := 0
          tab := tableWidths nbits
          c := 0
          w := 24
          atMatch := nbits != 1 } }

/-- The placing of a table word, by the same reading of `nbits` as `decodeTableWord` (log 21). -/
def State.placeWord (s : State) (nbits w : Nat) : State :=
  if nbits = 32 then s.fetchCommand (BitVec.ofNat 32 w)
  else if nbits = 8 then s.fetchRecord (BitVec.ofNat 8 w)
  else s.fetchBits nbits w

end Sys2Proof.Machine
end

