-- ==== Sys2Proof/Machine/Step.lean ====
section
/-! DEFINITION. The step function and the placing of an instruction where the next step runs it. -/

namespace Sys2Proof.Machine

/-- One step of the machine (R5, R112). -/
def step (s : State) : Host.Outcome State Fault Refusal := advance s

/-- `s` with the instruction of a table word placed where the next step runs it (log 22, log 23). -/
def State.withFetchWord (s : State) (nbits w : Nat) : State := s.placeWord nbits w

end Sys2Proof.Machine
end

