-- ==== Sys2Proof/Reference.lean ====
section
/-! DEFINITION. The two stream formats as an encoder writes them (R78 to R80, R84), over lists and apart from any machine:
the claims about RLE_READ and LZ_DECODE are stated against these. -/

namespace Sys2Proof.Reference

/-- A record an RLE encoder writes (R79, R80): a literal run, a replicate run of `n` copies, or a no-op. -/
inductive RleItem where
  | lit (bs : List Byte)
  | rep (v : Byte) (n : Nat)
  | nop
deriving DecidableEq, Repr

/-- R80: a literal run has 1 to 128 bytes, a replicate run 2 to 128. -/
def RleItem.valid : RleItem → Bool
  | .lit bs => decide (1 ≤ bs.length) && decide (bs.length ≤ 128)
  | .rep _ n => decide (2 ≤ n) && decide (n ≤ 128)
  | .nop => true

/-- The bytes of a record (R79): a literal run of b+1 bytes has control byte b, a replicate run of 257 − b copies has
control byte b, the no-op is 0x80. -/
def RleItem.bytes : RleItem → List Byte
  | .lit bs => BitVec.ofNat 8 (bs.length - 1) :: bs
  | .rep v n => [BitVec.ofNat 8 (257 - n), v]
  | .nop => [0x80#8]

/-- What a record expands to (R79). -/
def RleItem.expand : RleItem → List Byte
  | .lit bs => bs
  | .rep v n => List.replicate n v
  | .nop => []

/-- The stream of a list of records (R78). -/
def rleBytes (items : List RleItem) : List Byte := items.flatMap RleItem.bytes

/-- The expansion of a list of records. -/
def rleExpand (items : List RleItem) : List Byte := items.flatMap RleItem.expand

/-- The bytes are the beginning of a record whose payload is cut off (R141): a literal control byte b with fewer than
b+1 bytes after it, or a replicate control byte alone. -/
def cutRecord : List Byte → Bool
  | [] => false
  | b :: rest =>
    (decide (b.toNat ≤ 127) && decide (rest.length < b.toNat + 1)) || (decide (129 ≤ b.toNat) && rest.isEmpty)

/-- One element of an LZ stream (R84): a literal run, or a match with its code. -/
inductive LzItem where
  | literal (bs : List Byte)
  | copy (i : Instr)
deriving DecidableEq, Repr

/-- The 8-bit group of a byte, its most significant bit first (R83, R84). -/
def byteBits (b : Byte) : List Bool :=
  [b.getLsbD 7, b.getLsbD 6, b.getLsbD 5, b.getLsbD 4, b.getLsbD 3, b.getLsbD 2, b.getLsbD 1, b.getLsbD 0]

/-- LITRUN (R84): `count = 1 + 3k + g`, then the bytes. -/
def literalBits (bs : List Byte) : List Bool :=
  ext2Bits ((bs.length - 1) / 3) (BitVec.ofNat 2 ((bs.length - 1) % 3)) ++ bs.flatMap byteBits

/-- The length of a match (R174, R175). -/
def matchLength : Instr → Nat
  | .lzM0 _ => 2
  | .lzM1 _ => 3
  | .lzM2 _ => 4
  | .lzM3S _ k g => 5 + 7 * k + g.toNat
  | .lzM3L _ k g => 5 + 7 * k + g.toNat
  | _ => 0

/-- The offset of a match (R174, R175). -/
def matchOffset : Instr → Nat
  | .lzM0 off => bitsVal off
  | .lzM1 off => bitsVal off
  | .lzM2 off => bitsVal off
  | .lzM3S off _ _ => bitsVal off
  | .lzM3L off _ _ => bitsVal off
  | _ => 0

/-- The bits of a list of elements (R84, ITER): a literal run takes a control bit 0; a match takes a control bit 1 unless
it directly follows a literal run. -/
def lzBits : Bool → List LzItem → List Bool
  | _, [] => []
  | _, .literal bs :: items => false :: literalBits bs ++ lzBits true items
  | atMatch, .copy i :: items =>
    (if atMatch then [] else [true]) ++ (encode i).streamBits ++ lzBits false items

/-- A match over the output written so far, lowest address first: each byte is the one `off` places up, so a byte just
written may be copied again (R177). -/
def copyBytes (off : Nat) : Nat → List Byte → List Byte
  | 0, out => out
  | n + 1, out => copyBytes off n (out.getD off 0 :: out)

/-- The output of a list of elements, lowest address first, from the output `out` already written (R172, R174 to R177);
none where a literal run is empty or follows a literal run, a code is no match with the table `t`, or an offset reaches
past the output written (R176). -/
def lzOutput (t : Widths) : Bool → List LzItem → List Byte → Option (List Byte)
  | _, [], out => some out
  | atMatch, .literal bs :: items, out =>
    if atMatch || bs.isEmpty then none else lzOutput t true items (bs.reverse ++ out)
  | _, .copy i :: items, out =>
    if fitsAt (.selector t) i && i.wf && decide (matchOffset i < out.length) then
      lzOutput t false items (copyBytes (matchOffset i) (matchLength i) out)
    else none

end Sys2Proof.Reference
end

