-- ==== Sys2Proof/Safety.lean ====
section
/-! DEFINITION. What a good state is (the invariant of R26, R31, R36, R37 and of the cursors), and when a host program has
ended (R294). -/

namespace Sys2Proof.Machine

/-- The RLE unit's state (R31, R34, R37): `RLE_BASE ≤ RLE_PTR ≤ RLE_END`, the source window lies in M, at most 127 bytes
remain, and with no stream open there is no source, no remainder and no truncation. -/
abbrev State.rleOk (s : State) : Prop :=
  s.rleBase ≤ s.rlePtr ∧ s.rlePtr ≤ s.rleEnd ∧ s.rleEnd ≤ s.cfg.memBytes ∧ s.rem.length ≤ 127 ∧
    (s.rleValid = false → s.rleEnd = 0 ∧ s.rem = [] ∧ s.rleTrunc = false)

/-- The cursors of an RLE_READ in progress: an admitted destination (R115, R116), at most MAX bytes produced (R142), and
a remainder only when all of MAX is produced (R139). -/
abbrev ReadCursor.ok (s : State) (x : ReadCursor) : Prop :=
  s.busy = true ∧ s.rleValid = true ∧ x.dst + x.max ≤ s.cfg.memBytes ∧ x.produced ≤ x.max ∧
    (s.rem ≠ [] → x.produced = x.max) ∧ Window.overlaps s.rleSource ⟨x.dst, x.max⟩ = false

/-- The cursors of an LZ_DECODE in progress: an admitted output (R115), w and c in their ranges (R167, R168), a length
below 2^24 (R164). -/
abbrev LzCursor.ok (s : State) (x : LzCursor) : Prop :=
  s.busy = true ∧ x.dst + x.len ≤ s.cfg.memBytes ∧ x.w ≤ x.len ∧ x.len < 2 ^ 24 ∧ x.c ≤ 8 * x.pay ∧
    x.base + 12 + x.pay ≤ s.cfg.memBytes

/-- The cursors of the command in progress, if any. -/
def State.engineOk (s : State) : Prop :=
  match s.engine with
  | .idle => True
  | .reading x => x.ok s
  | .inflating x => x.ok s

/-- The invariant every step keeps: legal parameters (R9), M in its canonical form and inside its size (R50), BUSY and
DONE never both 1 (R26), an error only with DONE (R25, R110), results 0 while BUSY (R29), and the two units' states. -/
structure State.Inv (s : State) : Prop where
  cfg : s.cfg.wf
  canonical : Memory.wf s.mem = true
  inside : Memory.within s.cfg.memBytes s.mem = true
  busyDone : ¬(s.busy = true ∧ s.done = true)
  errDone : s.done = false → s.err = .none
  busyResults : s.busy = true → s.result0 = 0 ∧ s.result1 = 0 ∧ s.result2 = 0
  rle : s.rleOk
  engine : s.engineOk

/-- The host program has ended (R294): the host has no move left and BUSY = 0. -/
def State.ended (s : State) : Bool := s.turns.isEmpty && !s.busy

end Sys2Proof.Machine
end

