-- ==== Sys2Proof/Claims.lean ====
section
/-! DEFINITION. The words the statements are written in. -/

open Sys2Proof Sys2Proof.Machine Sys2Proof.Reference

namespace Sys2Proof.Claims

/-- Everything that no completion of a command writes: the parameters, CMD_LAST, CMD_IGN, the arguments, the latched
command, the host's port and turns, and the count of draws. -/
structure Untouched (s t : State) : Prop where
  cfg : t.cfg = s.cfg
  cmdLast : t.cmdLast = s.cmdLast
  cmdIgn : t.cmdIgn = s.cmdIgn
  arg : t.arg = s.arg
  pend : t.pend = s.pend
  larg : t.larg = s.larg
  turns : t.turns = s.turns
  regData : t.regData = s.regData
  memData : t.memData = s.memData
  draws : t.draws = s.draws

/-- The RLE unit's state is as it was (R34). -/
structure SameRle (s t : State) : Prop where
  valid : t.rleValid = s.rleValid
  base : t.rleBase = s.rleBase
  ptr : t.rlePtr = s.rlePtr
  fin : t.rleEnd = s.rleEnd
  rem : t.rem = s.rem
  trunc : t.rleTrunc = s.rleTrunc

/-- A completion (R112): the error kind, BUSY = 0, DONE = 1, the three results, no cursor left, and the rest of the
machine outside the unit and M untouched. -/
structure Completed (s t : State) (e : ErrKind) (r0 r1 r2 : Word) : Prop where
  err : t.err = e
  busy : t.busy = false
  done : t.done = true
  result0 : t.result0 = r0
  result1 : t.result1 = r1
  result2 : t.result2 = r2
  idle : t.engine = .idle
  rest : Untouched s t

/-- The completion that reports `e` and does nothing else. -/
def failed (e : ErrKind) (s : State) : State :=
  { s with
    err := e
    busy := false
    done := true
    result0 := 0
    result1 := 0
    result2 := 0
    engine := .idle }

/-- The address lies in the interval (R15). -/
abbrev In (w : Window) (a : Nat) : Prop := w.base ≤ a ∧ a < w.base + w.len

/-- No byte of M outside the windows differs. -/
def SameOutside (ws : List Window) (s t : State) : Prop :=
  ∀ a, (∀ w ∈ ws, ¬In w a) → Memory.read t.mem a = Memory.read s.mem a

/-- No byte of M differs. -/
def SameMemory (s t : State) : Prop := ∀ a, Memory.read t.mem a = Memory.read s.mem a

/-- Two intervals have no common address (R15). -/
def Apart (v w : Window) : Prop := ∀ a, ¬(In v a ∧ In w a)

/-- Every window lies in M, computed exactly (R15, R115). -/
abbrev InMemory (s : State) (ws : List Window) : Prop := ∀ w ∈ ws, w.base + w.len ≤ s.cfg.memBytes

/-- R116: no source meets a destination, and no two destinations meet. -/
def NoOverlap (sources dests : List Window) : Prop :=
  (∀ v ∈ sources, ∀ w ∈ dests, Apart v w) ∧ dests.Pairwise Apart

/-- No window meets the register window, on a platform that maps it inside M (R67). -/
def OffRegisters (s : State) (ws : List Window) : Prop :=
  s.cfg.regsInMem = true → ∀ w ∈ ws, Apart w ⟨s.cfg.regBase, 0x100⟩

/-- The windows pass R115, R116 and R67. -/
structure Admitted (s : State) (sources dests : List Window) : Prop where
  inMemory : InMemory s (sources ++ dests)
  noOverlap : NoOverlap sources dests
  offRegisters : OffRegisters s (sources ++ dests)

/-- The byte at `a` is not a byte of the register window, on a platform that maps it inside M (R67). -/
abbrev OffRegister (s : State) (a : Nat) : Prop :=
  s.cfg.regsInMem = true → ¬(s.cfg.regBase ≤ a ∧ a < s.cfg.regBase + 0x100)

/-- The register map (R70). `regWord` is the 32-bit word of an exact number; for one of 2^32 it is free (log 9). -/
def registerWord (s : State) (off : Nat) : Word :=
  if off = 0x00 then 0x42524C44#32
  else if off = 0x04 then s.cmdLast
  else if off = 0x08 then s.statusWord
  else if 0x10 ≤ off ∧ off ≤ 0x2C then s.arg.get ((off - 0x10) / 4)
  else if off = 0x30 then s.result0
  else if off = 0x34 then s.result1
  else if off = 0x38 then s.result2
  else if off = 0x40 then regWord s.rleBase
  else if off = 0x44 then regWord s.rlePtr
  else if off = 0x48 then regWord s.rleEnd
  else if off = 0x4C then BitVec.ofNat 32 s.rem.length
  else 0#32

/-- The OP and the operands of a command line (R73, R100). -/
def commandLine : HostStmt → Option (Word × List Word)
  | .rleOpen src len => some (0x01#32, [src, len])
  | .rleRead dst max => some (0x02#32, [dst, max])
  | .lzDecode blob blen dst cap => some (0x10#32, [blob, blen, dst, cap])
  | .planarUnpack src dst planes psize frames cap => some (0x20#32, [src, dst, planes, psize, frames, cap])
  | .planarRes src dst planes flags cap rlen => some (0x21#32, [src, dst, planes, flags, cap, rlen])
  | .fieldSplit src count j0 cdst mdst pdst npix => some (0x30#32, [src, count, j0, cdst, mdst, pdst, npix])
  | .maskBuild src dst rows w => some (0x40#32, [src, dst, rows, w])
  | _ => none

/-- The unread bytes of the RLE source. -/
def unreadSource (s : State) : List Byte := Memory.readList s.mem s.rlePtr (s.rleEnd - s.rlePtr)

/-- An RLE_READ of `max` bytes to `dst`. -/
def readCall (dst max : Nat) (s : State) : State :=
  { s with larg := { s.larg with a0 := BitVec.ofNat 32 dst, a1 := BitVec.ofNat 32 max } }

/-- Successive RLE_READs of the sizes, each to where the one before it would have ended with a full read. -/
def readCalls (dst : Nat) : List Nat → State → Option State
  | [], s => some s
  | n :: sizes, s =>
    match exec .rleRead (readCall dst n s) with
    | .next t => readCalls (dst + n) sizes t
    | _ => none

/-- The length and the skip count that the trailer of an LZ blob declares (R164). -/
def declaredLength (s : State) : Nat :=
  (Memory.readWord s.mem (s.operand 0 + s.operand 1 - 4)).toNat / 256

/-- The skip count of the trailer (R164). -/
def declaredSkip (s : State) : Nat :=
  (Memory.readWord s.mem (s.operand 0 + s.operand 1 - 4)).toNat % 256

/-- The signature of an LZ blob (R162). -/
def signature (s : State) : Word := Memory.readWord s.mem (s.operand 0)

/-- The windows of an LZ_DECODE (R161). -/
def lzAdmitted (s : State) : Prop :=
  Admitted s [⟨s.operand 0, s.operand 1⟩] [⟨s.operand 2, s.operand 3⟩]

/-- The cursors of an LZ_DECODE in progress are `x`, inside their windows, and the output does not meet the blob
(R115, R116). -/
def Inflating (s : State) (x : LzCursor) : Prop :=
  s.engine = .inflating x ∧ x.w ≤ x.len ∧ x.c ≤ 8 * x.pay ∧ Apart ⟨x.base, 12 + x.pay⟩ ⟨x.dst, x.len⟩

/-- Single steps lead from `s` to `t`, all of them inside one command, and `t` is the first state after it. -/
def CodeByCode (s t : State) : Prop :=
  t.engine = .idle ∧
    ∃ k, core.run k s = .next t ∧ ∀ j, j < k → ∃ u : State, core.run j s = .next u ∧ u.engine ≠ .idle

end Sys2Proof.Claims
end

