-- ==== Sys2Proof/Certificates/Slice0/Obligations.lean ====
section
/-! DEFINITION. The statements for the provers. -/

open Sys2Proof Sys2Proof.Machine Sys2Proof.Reference Sys2Proof.Claims


/-! ### Encodings -/

/-- R84, R85, R79, R73: the decoder of each place reads back what the encoder writes, whatever bits follow. -/
def Obligations.DecodeInvertsEncode : Prop :=
  ∀ (i : Instr) (p : Place) (rest : List Bool), i.wf = true → fitsAt p i = true →
    decodeAt p (encode i) rest = some (i, rest)

/-- Whatever a decoder reads is well-formed, belongs to the place, and encodes to the bits that were read. -/
def Obligations.EncodeInvertsDecode : Prop :=
  ∀ (p : Place) (c : Code) (rest : List Bool) (i : Instr) (rest' : List Bool),
    decodeAt p c rest = some (i, rest') →
      i.wf = true ∧ fitsAt p i = true ∧ c.streamBits ++ rest = (encode i).streamBits ++ rest' ∧
        (p = .command ∨ p = .record → encode i = c ∧ rest' = rest)

/-- R72, R73, R76: the seven command words, and no other. -/
def Obligations.SevenCommandWords : Prop :=
  ∀ w : Word, decodeCmd w =
    if w = 0x01#32 then some .rleOpen
    else if w = 0x02#32 then some .rleRead
    else if w = 0x10#32 then some .lzDecode
    else if w = 0x20#32 then some .planarUnpack
    else if w = 0x21#32 then some .planarRes
    else if w = 0x30#32 then some .fieldSplit
    else if w = 0x40#32 then some .maskBuild
    else none

/-- R79, R80: the three kinds of control byte, with the lengths 1..128 of a literal run and 2..128 of a replicate run. -/
def Obligations.ControlByteKinds : Prop :=
  ∀ b : Byte,
    (b.toNat ≤ 127 → ∃ n, decodeRecord b = .rleLit n ∧ n.toNat = b.toNat) ∧
      (b.toNat = 128 → decodeRecord b = .rleNop) ∧
      (129 ≤ b.toNat → ∃ n, decodeRecord b = .rleRep n ∧ n ≠ 0#7 ∧ 129 - n.toNat = 257 - b.toNat)

/-- A few words of R73, R79 and R85, written out. -/
def Obligations.SpecWordsDecode : Prop :=
  decodeCmd 0x00000010#32 = some .lzDecode ∧ decodeCmd 0x00000101#32 = none ∧ decodeCmd 0x00000003#32 = none ∧
    decodeRecord 0x02#8 = .rleLit 2#7 ∧ decodeRecord 0x80#8 = .rleNop ∧ decodeRecord 0xFE#8 = .rleRep 0x7E#7 ∧
    decodeControl [false, true, true, true, true, false, true] = some (.lzLit 2 1#2, []) ∧
    decodeControl [true] = some (.lzMatch, []) ∧
    decodeMatch ⟨2#8, 10#8, 12#8, 12#8⟩ [false, false, true, false, true] = some (.lzM0 [true, false], [true]) ∧
    decodeMatch ⟨9#8, 10#8, 12#8, 1#8⟩ [true, true, true, true, true, true, true, false, false, true] =
      some (.lzM3L [true] 1 1#3, [])

/-! ### The register window and the host's accesses -/

/-- R70, R119: a 32-bit host read of every register offset returns the register's word and changes nothing else; an RLE register's
address below 2^32 is its word. The premise on REM is R37's, which the invariant implies. -/
def Obligations.RegisterReadReturnsWord : Prop :=
  (∀ (s : State) (ts : List Turn) (off : Nat),
    s.engine = .idle → s.turns = .regRead (s.cfg.regBase + off) 4 :: ts → off < 0x100 → off % 4 = 0 →
    s.rem.length ≤ 127 →
      step s = .next { s with turns := ts, regData := registerWord s off }) ∧
    ∀ v, v < 2 ^ 32 → (regWord v).toNat = v

/-- R25, R38, R251, R27: the fields of the STATUS word, its reserved bits, and the codes of ERR and LZ_SIG. -/
def Obligations.StatusFields : Prop :=
  (∀ s : State,
    s.statusWord.getLsbD 0 = s.busy ∧ s.statusWord.getLsbD 1 = s.done ∧
      s.statusWord.extractLsb' 2 4 = s.err.code ∧ s.statusWord.getLsbD 6 = s.cmdIgn ∧
      s.statusWord.getLsbD 7 = false ∧ s.statusWord.getLsbD 8 = s.rleValid ∧
      (s.statusWord.getLsbD 9 = true ↔ s.rleValid = true ∧ s.rlePtr = s.rleEnd ∧ s.rem = []) ∧
      s.statusWord.getLsbD 10 = s.rleTrunc ∧ s.statusWord.getLsbD 11 = false ∧
      s.statusWord.extractLsb' 12 2 = s.lzSig.code ∧ s.statusWord.extractLsb' 14 18 = 0#18) ∧
    (ErrKind.none.code = 0#4 ∧ ErrKind.unsupportedFormat.code = 1#4 ∧ ErrKind.corruptStream.code = 2#4 ∧
      ErrKind.truncatedInput.code = 3#4 ∧ ErrKind.badCommand.code = 4#4) ∧
    (SigClass.supported.code = 0#2 ∧ SigClass.alt1.code = 1#2 ∧ SigClass.alt2.code = 2#2 ∧
      SigClass.unknown.code = 3#2)

/-- R110: a CMD write with BUSY = 0 is accepted, whatever the word. -/
def Obligations.CommandWriteIsAccepted : Prop :=
  ∀ (s : State) (ts : List Turn) (v : Word),
    s.engine = .idle → s.turns = .regWrite (s.cfg.regBase + 0x04) 4 v :: ts → s.busy = false →
      step s =
        .next
          { s with
            turns := ts
            cmdLast := v
            pend := v
            larg := s.arg
            busy := true
            done := false
            err := .none
            cmdIgn := false
            result0 := 0
            result1 := 0
            result2 := 0 }

/-- R111: a CMD write with BUSY = 1 only sets CMD_IGN. -/
def Obligations.CommandWriteWhileBusyIsIgnored : Prop :=
  ∀ (s : State) (ts : List Turn) (v : Word),
    s.engine = .idle → s.turns = .regWrite (s.cfg.regBase + 0x04) 4 v :: ts → s.busy = true →
      step s = .next { s with turns := ts, cmdIgn := true }

/-- R28, R288: a write of ARGi, busy or not, sets that register alone; it reads back as written, and the latched
arguments keep their values. -/
def Obligations.ArgumentWriteSetsRegister : Prop :=
  ∀ (s : State) (ts : List Turn) (i : Nat) (v : Word),
    s.engine = .idle → i < 8 → s.turns = .regWrite (s.cfg.regBase + (0x10 + 4 * i)) 4 v :: ts →
      ∃ r : Args, step s = .next { s with turns := ts, arg := r } ∧
        ∀ j, j < 8 → r.get j = if j = i then v else s.arg.get j

/-- R119: a 32-bit write of an offset that is neither CMD nor an argument register is ignored. -/
def Obligations.OtherRegisterWritesAreIgnored : Prop :=
  ∀ (s : State) (ts : List Turn) (off : Nat) (v : Word),
    s.engine = .idle → s.turns = .regWrite (s.cfg.regBase + off) 4 v :: ts → off < 0x100 → off % 4 = 0 →
    off ≠ 0x04 → ¬(0x10 ≤ off ∧ off ≤ 0x2C) →
      step s = .next { s with turns := ts }

/-- R287, R54: a register access that is not an aligned 32-bit access is refused by name. -/
def Obligations.NarrowRegisterAccessIsRefused : Prop :=
  ∀ (s : State) (ts : List Turn) (off width : Nat) (v : Word),
    s.engine = .idle → off < 0x100 → (width ≠ 4 ∨ off % 4 ≠ 0) →
      (s.turns = .regRead (s.cfg.regBase + off) width :: ts → step s = .refused .registerAccessWidth) ∧
        (s.turns = .regWrite (s.cfg.regBase + off) width v :: ts → step s = .refused .registerAccessWidth)

/-- R286: with a command pending, a host write of a byte of its windows, or a host read of a byte of its destinations, is
a hazard fault. The premise on the register window keeps out the bytes of log 13.
That a command which will end in BadCommand has windows as well is the model's reading (log 15). -/
def Obligations.HostAccessToBusyWindowsFaults : Prop :=
  ∀ (s : State) (ts : List Turn) (i : Instr) (a : Nat) (v : Byte),
    s.engine = .idle → s.busy = true → decodeCmd s.pend = some i → a < s.cfg.memBytes → OffRegister s a →
      (s.turns = .poke a v :: ts → (∃ w ∈ sourceWindows i s ++ destWindows i s, In w a) →
        step s = .fault .hazardHostWrite) ∧
        (s.turns = .peek a :: ts → (∃ w ∈ destWindows i s, In w a) → step s = .fault .hazardHostRead)

/-- R286: every other host access to M runs, busy or not: a read returns the byte, a write changes that byte alone. -/
def Obligations.HostAccessElsewhereRuns : Prop :=
  ∀ (s : State) (ts : List Turn) (a : Nat) (v : Byte),
    s.engine = .idle → Memory.wf s.mem = true → a < s.cfg.memBytes → OffRegister s a →
      (s.turns = .peek a :: ts →
        (s.busy = true → ∀ i, decodeCmd s.pend = some i → ∀ w ∈ destWindows i s, ¬In w a) →
        step s = .next { s with turns := ts, memData := Memory.read s.mem a }) ∧
        (s.turns = .poke a v :: ts →
          (s.busy = true → ∀ i, decodeCmd s.pend = some i → ∀ w ∈ sourceWindows i s ++ destWindows i s, ¬In w a) →
          ∃ m : Memory, step s = .next { s with turns := ts, mem := m } ∧ Memory.wf m = true ∧
            ∀ b, Memory.read m b = if b = a then v else Memory.read s.mem b)

/-- R100, R73, R74: a command line of the assembler, run from an idle block, leaves its OP pending and its operands latched in order. -/
def Obligations.CommandLineIssuesItsCommand : Prop :=
  ∀ (s : State) (line : HostStmt) (op : Word) (vs : List Word) (ts : List Turn),
    s.engine = .idle → s.busy = false → commandLine line = some (op, vs) → s.turns = line.turns s.cfg ++ ts →
      ∃ t : State, core.run (line.turns s.cfg).length s = .next t ∧ t.busy = true ∧ t.pend = op ∧ t.cmdLast = op ∧
        t.turns = ts ∧ (∀ j, j < vs.length → t.larg.get j = vs.getD j 0) ∧ t.mem = s.mem

/-! ### Reset -/

/-- R42: every register of the window after reset, and no stream, no remainder and no command. -/
def Obligations.ResetRegisters : Prop :=
  (∀ n, n < 64 → State.reset.readReg (4 * n) = if n = 0 then 0x42524C44#32 else 0#32) ∧
    State.reset.rleValid = false ∧ State.reset.rem = [] ∧ State.reset.busy = false ∧ State.reset.done = false

/-- R280, R42: a reset, from any state, gives every piece of block state its value of R42. Of M it says nothing. -/
def Obligations.ResetClearsTheBlock : Prop :=
  ∀ (s : State) (ts : List Turn) (left : List Host.Cell),
    s.engine = .idle → s.turns = .reset left :: ts →
      ∃ t : State, step s = .next t ∧ t.busy = false ∧ t.done = false ∧ t.err = .none ∧ t.cmdIgn = false ∧
        t.cmdLast = 0 ∧ t.arg = ⟨0, 0, 0, 0, 0, 0, 0, 0⟩ ∧ t.result0 = 0 ∧ t.result1 = 0 ∧ t.result2 = 0 ∧
        t.rleValid = false ∧ t.rleBase = 0 ∧ t.rlePtr = 0 ∧ t.rleEnd = 0 ∧ t.rem = [] ∧ t.rleTrunc = false ∧
        t.lzSig = .supported ∧ t.engine = .idle ∧ t.cfg = s.cfg ∧ t.turns = ts

/-- R281, R282: the block writes nothing in M at a reset, outside the destination windows of an abandoned command; there each byte
of M takes the free value of this draw (log 14). The statement holds whatever that value is. The platform's own bytes (the list) are
empty here. -/
def Obligations.ResetLeavesMemory : Prop :=
  ∀ (s : State) (ts : List Turn),
    s.engine = .idle → s.turns = .reset [] :: ts → Memory.wf s.mem = true →
      ∃ t : State, step s = .next t ∧
        (s.busy = false → t.mem = s.mem) ∧
        (s.busy = true → decodeCmd s.pend = none → t.mem = s.mem) ∧
        (∀ i, s.busy = true → decodeCmd s.pend = some i →
          SameOutside (destWindows i s) s t ∧
            ∀ a, a < s.cfg.memBytes → (∃ w ∈ destWindows i s, In w a) →
              Memory.read t.mem a = Config.drawnByte s.draws a)

/-! ### Completion, common to every command -/

/-- The ENGINE's turn runs the instruction its pending word decodes to (R112, R113); with no turn left the engine moves
too. -/
def Obligations.StepRunsPendingCommand : Prop :=
  ∀ (s : State) (ts : List Turn) (i : Instr),
    s.engine = .idle → s.busy = true → decodeCmd s.pend = some i →
      (s.turns = .engine :: ts → step s = exec i { s with turns := ts }) ∧ (s.turns = [] → step s = exec i s)

/-- In the middle of a command (the model's states between two codes, log 7), a step runs the record at RLE_PTR or the code at
the bit cursor. -/
def Obligations.StepRunsStreamCode : Prop :=
  ∀ s : State,
    (∀ x, s.engine = .reading x → x.produced < x.max → s.rlePtr < s.rleEnd →
      step s = exec (decodeRecord (Memory.read s.mem s.rlePtr)) s) ∧
      (∀ x i rest, s.engine = .inflating x → 0 < x.w →
        decodeAt (if x.atMatch then .selector x.tab else .control)
          (.bits (streamBits s.mem x.base x.pay x.c (8 * x.pay - x.c))) [] = some (i, rest) →
        step s = exec i s)

/-- R112: while BUSY = 1 the ENGINE's step completes the command, whatever memory holds: BUSY = 0, DONE = 1, no cursor
left. -/
def Obligations.EngineStepCompletes : Prop :=
  ∀ (s : State) (ts : List Turn),
    s.engine = .idle → s.busy = true → (s.turns = .engine :: ts ∨ s.turns = [] ∧ ts = []) →
    (∀ i, decodeCmd s.pend = some i → OffRegisters s (sourceWindows i s ++ destWindows i s)) →
      ∃ t : State, step s = .next t ∧ t.busy = false ∧ t.done = true ∧ t.engine = .idle ∧
        Untouched { s with turns := ts } t

/-- R113: a pending word that is no command completes with BadCommand, with no other effect. -/
def Obligations.IllegalWordIsBadCommand : Prop :=
  ∀ (s : State) (ts : List Turn),
    s.engine = .idle → s.busy = true → s.turns = .engine :: ts →
    (s.pend.toNat / 256 ≠ 0 ∨ s.pend.toNat % 256 ∉ [0x01, 0x02, 0x10, 0x20, 0x21, 0x30, 0x40]) →
      step s = .next (failed .badCommand { s with turns := ts })

/-- R115, R116: a command with a window that does not lie in M, or with a source that meets a destination or two destinations that
meet, completes with BadCommand and no other effect; MASK_BUILD with D = S may overlap. -/
def Obligations.WindowChecksAreBadCommand : Prop :=
  ∀ (s : State) (i : Instr),
    i.isCommand = true → OffRegisters s (sourceWindows i s ++ destWindows i s) →
      (¬InMemory s (sourceWindows i s ++ destWindows i s) → exec i s = .next (failed .badCommand s)) ∧
        (¬NoOverlap (sourceWindows i s) (destWindows i s) → (i = .maskBuild → s.operand 1 ≠ s.operand 0) →
          exec i s = .next (failed .badCommand s))

/-- R145, R201, R204, R207, R221: the operand values each command rejects.
That an operand check comes before the fault of R67, for a command over the register window, is the
model's choice (log 13). -/
def Obligations.IllegalOperandIsBadCommand : Prop :=
  ∀ s : State,
    (s.rleValid = false → exec .rleRead s = .next (failed .badCommand s)) ∧
      (s.operand 2 < 1 ∨ 8 < s.operand 2 ∨ s.operand 5 < s.operand 4 * s.operand 3 * 8 →
        exec .planarUnpack s = .next (failed .badCommand s)) ∧
      (s.operand 3 / 2 ≠ 0 ∨ s.operand 2 < 1 ∨ 8 < s.operand 2 →
        exec .planarRes s = .next (failed .badCommand s)) ∧
      (s.operand 6 < s.operand 2 + s.operand 1 → exec .fieldSplit s = .next (failed .badCommand s))

/-- R67: a command whose window covers the register window, on a platform that maps it inside M, stops in a fault; its
operand checks come first (log 13). -/
def Obligations.WindowOverRegistersFaults : Prop :=
  ∀ (s : State) (i : Instr),
    i.isCommand = true → operandsLegal i s = true → ¬OffRegisters s (sourceWindows i s ++ destWindows i s) →
      exec i s = .fault .windowCoversRegisters

/-- R255: a command that reports BadCommand has no other effect. -/
def Obligations.BadCommandHasNoEffect : Prop :=
  ∀ (s t : State) (i : Instr),
    i.isCommand = true → exec i s = .next t → t.err = .badCommand → t = failed .badCommand s

/-- R121: a command writes no byte outside its destination windows, in an error or not; RLE_OPEN has none. -/
def Obligations.CommandsWriteOnlyDestinations : Prop :=
  ∀ (s t : State) (i : Instr),
    i.isCommand = true → Memory.wf s.mem = true → exec i s = .next t → SameOutside (destWindows i s) s t

/-- R34, R27, R40: what a command leaves alone besides M: no other command touches the RLE unit, none but LZ_DECODE touches LZ_SIG, and
none touches the registers of the host's side. -/
def Obligations.CommandsKeepOtherUnits : Prop :=
  ∀ (s t : State) (i : Instr),
    i.isCommand = true → exec i s = .next t →
      Untouched s t ∧ (i ≠ .rleOpen → i ≠ .rleRead → SameRle s t) ∧ (i ≠ .lzDecode → t.lzSig = s.lzSig)

/-! ### RLE unit -/

/-- R132: RLE_OPEN of a window in M. -/
def Obligations.RleOpenOpensStream : Prop :=
  ∀ s : State,
    Admitted s [⟨s.operand 0, s.operand 1⟩] [] →
      exec .rleOpen s =
        .next
          { s with
            rleBase := s.operand 0
            rlePtr := s.operand 0
            rleEnd := s.operand 0 + s.operand 1
            rem := []
            rleTrunc := false
            rleValid := true
            err := .none
            busy := false
            done := true
            result0 := 0
            result1 := 0
            result2 := 0
            engine := .idle }

/-- R133, R134, R138 to R140, R142: over a source of whole records, or one whose truncated end is not reached, RLE_READ delivers the
remainder and then the expansions, in order, as far as MAX; it consumes the records that give the bytes delivered and
begins none once MAX bytes are there; what is left of the last one is the new remainder. -/
def Obligations.RleReadDeliversExpansions : Prop :=
  ∀ (s : State) (items : List RleItem) (cut : List Byte),
    Memory.wf s.mem = true → s.rleValid = true → s.rleBase ≤ s.rlePtr → s.rlePtr ≤ s.rleEnd →
    s.rem.length < 2 ^ 32 → Admitted s [⟨s.rleBase, s.rleEnd - s.rleBase⟩] [⟨s.operand 0, s.operand 1⟩] →
    items.all RleItem.valid = true → unreadSource s = rleBytes items ++ cut →
    (cut = [] ∨ cutRecord cut = true ∧ s.operand 1 ≤ (s.rem ++ rleExpand items).length) →
      ∃ (t : State) (pre post : List RleItem),
        exec .rleRead s = .next t ∧ items = pre ++ post ∧
          (let out := s.rem ++ rleExpand items
           let k := min out.length (s.operand 1)
           Completed s t .none (BitVec.ofNat 32 k) (BitVec.ofNat 32 t.rem.length) 0 ∧
             t.mem = Memory.writeList s.mem (s.operand 0) (out.take k) ∧
             t.rlePtr = s.rlePtr + (rleBytes pre).length ∧
             t.rem = (s.rem ++ rleExpand pre).drop k ∧
             (k < s.operand 1 → post = []) ∧ k ≤ (s.rem ++ rleExpand pre).length ∧
             (∀ front last, pre = front ++ [last] → (s.rem ++ rleExpand front).length < s.operand 1)) ∧
          t.rleBase = s.rleBase ∧ t.rleEnd = s.rleEnd ∧ t.rleValid = true ∧ t.rleTrunc = s.rleTrunc ∧
          t.lzSig = s.lzSig

/-- R141, R142: a read that reaches a truncated record delivers what came before it, consumes the source to its end, sets
RLE_TRUNC and reports TruncatedInput with its results kept. That the partial payload is discarded is the spec's own choice
(log 20). -/
def Obligations.RleReadReportsTruncation : Prop :=
  ∀ (s : State) (items : List RleItem) (cut : List Byte),
    Memory.wf s.mem = true → s.rleValid = true → s.rleBase ≤ s.rlePtr → s.rlePtr ≤ s.rleEnd →
    Admitted s [⟨s.rleBase, s.rleEnd - s.rleBase⟩] [⟨s.operand 0, s.operand 1⟩] →
    items.all RleItem.valid = true → cutRecord cut = true → unreadSource s = rleBytes items ++ cut →
    (s.rem ++ rleExpand items).length < s.operand 1 →
      ∃ t : State,
        exec .rleRead s = .next t ∧
          Completed s t .truncatedInput (BitVec.ofNat 32 (s.rem ++ rleExpand items).length) 0 0 ∧
          t.mem = Memory.writeList s.mem (s.operand 0) (s.rem ++ rleExpand items) ∧
          t.rlePtr = s.rleEnd ∧ t.rem = [] ∧ t.rleTrunc = true ∧
          t.rleBase = s.rleBase ∧ t.rleEnd = s.rleEnd ∧ t.rleValid = true ∧ t.lzSig = s.lzSig

/-- R135: a literal record whose payload is there, inside an RLE_READ: its n+1 source bytes are delivered verbatim as far as MAX, the
rest become REM, and nothing else changes. -/
def Obligations.LiteralRecordExpands : Prop :=
  ∀ (s : State) (x : ReadCursor) (n : BitVec 7),
    s.engine = .reading x → s.rlePtr + 1 + (n.toNat + 1) ≤ s.rleEnd →
      (let rec' := Memory.readList s.mem (s.rlePtr + 1) (n.toNat + 1)
       let k := min (n.toNat + 1) (x.max - x.produced)
       exec (.rleLit n) s =
        .next
          { s with
            rlePtr := s.rlePtr + 1 + (n.toNat + 1)
            mem := Memory.writeList s.mem (x.dst + x.produced) (rec'.take k)
            rem := rec'.drop k
            engine := .reading { x with produced := x.produced + k } })

/-- R136: a replicate record with control byte b = 128 + n whose payload byte is there expands to 257 − b copies of it. -/
def Obligations.ReplicateRecordExpands : Prop :=
  ∀ (s : State) (x : ReadCursor) (n : BitVec 7),
    s.engine = .reading x → s.rlePtr + 1 < s.rleEnd →
      (let count := 257 - (128 + n.toNat)
       let rec' := List.replicate count (Memory.read s.mem (s.rlePtr + 1))
       let k := min count (x.max - x.produced)
       exec (.rleRep n) s =
        .next
          { s with
            rlePtr := s.rlePtr + 2
            mem := Memory.writeList s.mem (x.dst + x.produced) (rec'.take k)
            rem := rec'.drop k
            engine := .reading { x with produced := x.produced + k } })

/-- R137: the no-op record consumes its control byte and has no other effect. -/
def Obligations.NoOpRecordIsSkipped : Prop :=
  ∀ (s : State) (x : ReadCursor),
    s.engine = .reading x → exec .rleNop s = .next { s with rlePtr := s.rlePtr + 1 }

/-- R141: a record whose payload is cut off ends its RLE_READ: the source is consumed to its end, REM and M are as they
were, RLE_TRUNC is set, the results are the bytes produced and the length of REM.
That the payload bytes left are consumed and discarded is the spec's own choice (log 20). -/
def Obligations.CutRecordEndsRead : Prop :=
  ∀ (s : State) (x : ReadCursor) (n : BitVec 7),
    s.engine = .reading x → x.produced < 2 ^ 32 → s.rem.length < 2 ^ 32 →
      (let ended : State :=
        { s with
          rlePtr := s.rleEnd
          rleTrunc := true
          err := .truncatedInput
          busy := false
          done := true
          result0 := BitVec.ofNat 32 x.produced
          result1 := BitVec.ofNat 32 s.rem.length
          result2 := 0
          engine := .idle }
       (s.rleEnd < s.rlePtr + 1 + (n.toNat + 1) → exec (.rleLit n) s = .next ended) ∧
        (s.rleEnd ≤ s.rlePtr + 1 → exec (.rleRep n) s = .next ended))

/-- R143: many small reads deliver what one read of their sum delivers, and leave the unit where it leaves it, as long as that read
meets no truncated record. -/
def Obligations.ChunkedReadsAgree : Prop :=
  ∀ (s u : State) (dst : Nat) (sizes : List Nat),
    Memory.wf s.mem = true → s.rleValid = true → s.rleBase ≤ s.rlePtr → s.rlePtr ≤ s.rleEnd →
    dst + sizes.sum < 2 ^ 32 →
    Admitted s [⟨s.rleBase, s.rleEnd - s.rleBase⟩] [⟨dst, sizes.sum⟩] →
    exec .rleRead (readCall dst sizes.sum s) = .next u → u.err = .none →
      ∃ t : State, readCalls dst sizes s = some t ∧ t.mem = u.mem ∧ t.rlePtr = u.rlePtr ∧ t.rem = u.rem ∧
        t.rleTrunc = u.rleTrunc

/-- R146: opening an encoder's stream of x and reading it with any sizes that ask for at least |x| bytes delivers exactly x. -/
def Obligations.RleRoundTrip : Prop :=
  ∀ (s u : State) (items : List RleItem) (dst : Nat) (sizes : List Nat),
    Memory.wf s.mem = true → items.all RleItem.valid = true →
    Memory.readList s.mem (s.operand 0) (s.operand 1) = rleBytes items →
    Admitted s [⟨s.operand 0, s.operand 1⟩] [⟨dst, sizes.sum⟩] → dst + sizes.sum < 2 ^ 32 →
    (rleExpand items).length ≤ sizes.sum → exec .rleOpen s = .next u →
      ∃ t : State, readCalls dst sizes u = some t ∧
        Memory.readList t.mem dst (rleExpand items).length = rleExpand items ∧
        SameOutside [⟨dst, (rleExpand items).length⟩] s t

/-! ### LZ unit -/

/-- R180 points 3 to 6, R162, R163, R165: the errors before decoding, in order, with M and the RLE unit as they were and LZ_SIG
telling the signature's class. -/
def Obligations.LzOuterErrors : Prop :=
  ∀ s : State,
    lzAdmitted s →
      (s.operand 1 < 4 → exec .lzDecode s = .next (failed .corruptStream { s with lzSig := .supported })) ∧
        (4 ≤ s.operand 1 → signature s ≠ s.cfg.sigSupported →
          exec .lzDecode s =
            .next
              (failed .unsupportedFormat
                { s with
                  lzSig :=
                    if signature s = s.cfg.sigAlt1 then .alt1
                    else if signature s = s.cfg.sigAlt2 then .alt2 else .unknown })) ∧
        (4 ≤ s.operand 1 → s.operand 1 < 12 → signature s = s.cfg.sigSupported →
          exec .lzDecode s = .next (failed .corruptStream { s with lzSig := .supported })) ∧
        (12 ≤ s.operand 1 → signature s = s.cfg.sigSupported → s.operand 3 < declaredLength s →
          exec .lzDecode s = .next (failed .corruptStream { s with lzSig := .supported })) ∧
        (12 ≤ s.operand 1 → signature s = s.cfg.sigSupported → declaredLength s ≤ s.operand 3 →
          8 * (s.operand 1 - 12) < declaredSkip s →
          exec .lzDecode s = .next (failed .corruptStream { s with lzSig := .supported }))

/-- R161, R170, R178, R179: where the stream after the skip bits is the code of a sequence of literal runs and matches whose output
has the declared length, LZ_DECODE completes with that output at D, RESULT0 = L, RESULT1 = the bits left, RESULT2 = the skip count. The
bit order and the literal count base are the spec's own choices (logs 16 and 17). -/
def Obligations.LzDecodeInvertsEncoding : Prop :=
  ∀ (s : State) (items : List LzItem) (skipped rest : List Bool) (out : List Byte),
    Memory.wf s.mem = true → lzAdmitted s → 12 ≤ s.operand 1 → signature s = s.cfg.sigSupported →
    declaredLength s ≤ s.operand 3 →
    streamBits s.mem (s.operand 0) (s.operand 1 - 12) 0 (8 * (s.operand 1 - 12)) =
      skipped ++ lzBits false items ++ rest →
    skipped.length = declaredSkip s →
    lzOutput (readWidths s.mem (s.operand 0 + 4)) false items [] = some out → out.length = declaredLength s →
      ∃ t : State,
        exec .lzDecode s = .next t ∧
          Completed s t .none (BitVec.ofNat 32 (declaredLength s)) (BitVec.ofNat 32 rest.length)
            (BitVec.ofNat 32 (declaredSkip s)) ∧
          t.lzSig = .supported ∧ SameRle s t ∧
          Memory.readList t.mem (s.operand 2) (declaredLength s) = out ∧
          SameOutside [⟨s.operand 2, declaredLength s⟩] s t

/-- R161, R168: whatever its end, LZ_DECODE writes no byte outside `[D, D+L)`. -/
def Obligations.LzWritesOnlyDeclaredLength : Prop :=
  ∀ s t : State,
    Memory.wf s.mem = true → exec .lzDecode s = .next t →
      SameOutside [⟨s.operand 2, declaredLength s⟩] s t

/-- R171, R172: an LZ.LIT whose bytes are in the payload and fit the output: `1 + 3k + g` bytes, the first at the highest free
address, each an 8-bit group with its first bit the most significant; a match position follows. The bit order and the count base
are the spec's own choices (logs 16 and 17). -/
def Obligations.LzLiteralWritesBytes : Prop :=
  ∀ (s : State) (x : LzCursor) (k : Nat) (g : BitVec 2),
    Memory.wf s.mem = true → Inflating s x → 1 + 3 * k + g.toNat ≤ x.w →
    x.c + (1 + 2 * (k + 1)) + 8 * (1 + 3 * k + g.toNat) ≤ 8 * x.pay →
      (let count := 1 + 3 * k + g.toNat
       let c := x.c + (1 + 2 * (k + 1))
       ∃ m : Memory,
        exec (.lzLit k g) s =
          .next
            { s with
              mem := m
              engine := .inflating { x with c := c + 8 * count, w := x.w - count, atMatch := true } } ∧
          (∀ j b, j < count → b < 8 →
            (Memory.read m (x.dst + (x.w - 1 - j))).getLsbD (7 - b) = streamBit s.mem x.base x.pay (c + 8 * j + b)) ∧
          ∀ a, ¬(x.dst + (x.w - count) ≤ a ∧ a < x.dst + x.w) → Memory.read m a = Memory.read s.mem a)

/-- R174: LZ.MATCH consumes its control bit, and a match follows; nothing else changes. -/
def Obligations.LzMatchBitIsConsumed : Prop :=
  ∀ (s : State) (x : LzCursor),
    s.engine = .inflating x →
      exec .lzMatch s = .next { s with engine := .inflating { x with c := x.c + 1, atMatch := true } }

/-- R174, R175, R177: a match that passes R176 and fits the output, for each of the five codes: its bytes are copied one by one from
`off` above the write position, and a control position follows. `matchLength` and `matchOffset` are the code's length and offset; an
offset's first bit is its most significant (log 16). -/
def Obligations.LzMatchCopies : Prop :=
  ∀ (s : State) (x : LzCursor) (i : Instr),
    Memory.wf s.mem = true → Inflating s x → fitsAt (.selector x.tab) i = true →
    x.w + matchOffset i < x.len → matchLength i ≤ x.w →
      ∃ m : Memory,
        exec i s =
          .next
            { s with
              mem := m
              engine :=
                .inflating
                  { x with c := x.c + (encode i).streamBits.length, w := x.w - matchLength i, atMatch := false } } ∧
          Memory.readList m (x.dst + (x.w - matchLength i)) (x.len - (x.w - matchLength i)) =
            copyBytes (matchOffset i) (matchLength i) (Memory.readList s.mem (x.dst + x.w) (x.len - x.w)) ∧
          ∀ a, ¬(x.dst + (x.w - matchLength i) ≤ a ∧ a < x.dst + x.w) → Memory.read m a = Memory.read s.mem a

/-- R176: an offset past the bytes written completes the command with CorruptStream before any byte is copied.
An offset's first bit is its most significant (log 16). -/
def Obligations.LzBadOffsetIsCorrupt : Prop :=
  ∀ (s : State) (x : LzCursor) (i : Instr),
    s.engine = .inflating x → fitsAt (.selector x.tab) i = true → x.len ≤ x.w + matchOffset i →
      exec i s = .next (failed .corruptStream s)

/-- R177, R168, R117: a match longer than the output left copies the bytes that fit, keeps them, and completes with CorruptStream. -/
def Obligations.LzOverlongMatchIsCorrupt : Prop :=
  ∀ (s : State) (x : LzCursor) (i : Instr),
    Memory.wf s.mem = true → Inflating s x → fitsAt (.selector x.tab) i = true →
    x.w + matchOffset i < x.len → x.w < matchLength i →
      ∃ m : Memory,
        exec i s = .next (failed .corruptStream { s with mem := m }) ∧
          Memory.readList m x.dst x.len =
            copyBytes (matchOffset i) x.w (Memory.readList s.mem (x.dst + x.w) (x.len - x.w)) ∧
          ∀ a, ¬(x.dst ≤ a ∧ a < x.dst + x.w) → Memory.read m a = Memory.read s.mem a

/-- R171, R172, R167, R168: an LZ.LIT with more bytes than the payload or the output has room for writes those there is room for, which
stay (R117), and completes with CorruptStream. The bit order and the count base are the spec's own choices (logs 16 and 17). -/
def Obligations.LzOverlongLiteralIsCorrupt : Prop :=
  ∀ (s : State) (x : LzCursor) (k : Nat) (g : BitVec 2),
    Memory.wf s.mem = true → Inflating s x → x.c + (1 + 2 * (k + 1)) ≤ 8 * x.pay →
      (let c := x.c + (1 + 2 * (k + 1))
       let room := min ((8 * x.pay - c) / 8) x.w
       room < 1 + 3 * k + g.toNat →
       ∃ m : Memory,
        exec (.lzLit k g) s = .next (failed .corruptStream { s with mem := m }) ∧
          (∀ j b, j < room → b < 8 →
            (Memory.read m (x.dst + (x.w - 1 - j))).getLsbD (7 - b) = streamBit s.mem x.base x.pay (c + 8 * j + b)) ∧
          ∀ a, ¬(x.dst + (x.w - room) ≤ a ∧ a < x.dst + x.w) → Memory.read m a = Memory.read s.mem a)

/-- R167: with output still wanted and the unread bits a proper beginning of a code of the position (so also with no bit left), the
step completes the command with CorruptStream and no byte is written (bit order: log 16; tokens decoded whole: log 25). -/
def Obligations.LzExhaustedInputIsCorrupt : Prop :=
  ∀ (s : State) (x : LzCursor) (i : Instr) (more : List Bool),
    s.engine = .inflating x → 0 < x.w → i.wf = true →
    fitsAt (if x.atMatch then .selector x.tab else .control) i = true → more ≠ [] →
    streamBits s.mem x.base x.pay x.c (8 * x.pay - x.c) ++ more = (encode i).streamBits →
      step s = .next (failed .corruptStream s)

/-! ### PLANAR unit -/

/-- R201, R202: PLANAR_UNPACK on admitted operands: every output bit, the count in RESULT0, and no other byte. -/
def Obligations.PlanarUnpackSetsPixels : Prop :=
  ∀ s : State,
    (let src := s.operand 0
     let dst := s.operand 1
     let pc := s.operand 2
     let ps := s.operand 3
     let fc := s.operand 4
     Memory.wf s.mem = true → 1 ≤ pc → pc ≤ 8 → fc * ps * 8 ≤ s.operand 5 →
     Admitted s [⟨src, fc * pc * ps⟩] [⟨dst, fc * ps * 8⟩] →
      ∃ t : State,
        exec .planarUnpack s = .next t ∧ Completed s t .none (BitVec.ofNat 32 (fc * ps * 8)) 0 0 ∧ SameRle s t ∧
          t.lzSig = s.lzSig ∧
          (∀ f j i p, f < fc → j < ps → i < 8 → p < 8 →
            (Memory.read t.mem (dst + f * ps * 8 + 8 * j + i)).getLsbD p =
              (decide (p < pc) && (Memory.read s.mem (src + f * ps * pc + j + p * ps)).getLsbD (7 - i))) ∧
          SameOutside [⟨dst, fc * ps * 8⟩] s t)

/-- R204, R86, R87: PLANAR_RES on an admitted resource that is whole and fits: every output bit, the three results, and no other
byte. -/
def Obligations.PlanarResSetsPixels : Prop :=
  ∀ (s : State) (h fc w ht : Nat),
    (let src := s.operand 0
     let dst := s.operand 1
     let pc := s.operand 2
     let byte := fun k => (Memory.read s.mem (src + k)).toNat
     let ps := w / 8 * ht
     Memory.wf s.mem = true → s.operand 3 / 2 = 0 → 1 ≤ pc → pc ≤ 8 →
     (s.operand 3 = 1 → h = 3 ∧ fc = byte 0 ∧ w = byte 1 ∧ ht = byte 2) →
     (s.operand 3 = 0 → h = 2 ∧ fc = 1 ∧ w = byte 0 ∧ ht = byte 1) →
     w % 8 = 0 → fc * ps * 8 ≤ s.operand 4 → h + fc * pc * ps ≤ s.operand 5 →
     Admitted s [⟨src, s.operand 5⟩] [⟨dst, s.operand 4⟩] →
      ∃ t : State,
        exec .planarRes s = .next t ∧
          Completed s t .none (BitVec.ofNat 32 (fc * ps * 8)) (BitVec.ofNat 32 (w + 256 * ht + 65536 * fc))
            (BitVec.ofNat 32 ps) ∧
          SameRle s t ∧ t.lzSig = s.lzSig ∧
          (∀ f j i p, f < fc → j < ps → i < 8 → p < 8 →
            (Memory.read t.mem (dst + f * ps * 8 + 8 * j + i)).getLsbD p =
              (decide (p < pc) && (Memory.read s.mem (src + h + f * ps * pc + j + p * ps)).getLsbD (7 - i))) ∧
          SameOutside [⟨dst, fc * ps * 8⟩] s t)

/-- R204, R206: the errors of PLANAR_RES on admitted operands, in the order of the pseudocode, each with no other
effect. -/
def Obligations.PlanarResErrors : Prop :=
  ∀ (s : State) (h fc w ht : Nat),
    (let src := s.operand 0
     let pc := s.operand 2
     let byte := fun k => (Memory.read s.mem (src + k)).toNat
     let ps := w / 8 * ht
     s.operand 3 / 2 = 0 → 1 ≤ pc → pc ≤ 8 →
     (s.operand 3 = 1 → h = 3 ∧ fc = byte 0 ∧ w = byte 1 ∧ ht = byte 2) →
     (s.operand 3 = 0 → h = 2 ∧ fc = 1 ∧ w = byte 0 ∧ ht = byte 1) →
     Admitted s [⟨src, s.operand 5⟩] [⟨s.operand 1, s.operand 4⟩] →
      (s.operand 5 < h → exec .planarRes s = .next (failed .truncatedInput s)) ∧
        (h ≤ s.operand 5 → w % 8 ≠ 0 → exec .planarRes s = .next (failed .corruptStream s)) ∧
        (h ≤ s.operand 5 → w % 8 = 0 → s.operand 4 < fc * ps * 8 →
          exec .planarRes s = .next (failed .corruptStream s)) ∧
        (h ≤ s.operand 5 → w % 8 = 0 → fc * ps * 8 ≤ s.operand 4 → s.operand 5 < h + fc * pc * ps →
          exec .planarRes s = .next (failed .truncatedInput s)))

/-! ### SPLIT unit -/

/-- R221 to R226: FIELD_SPLIT on admitted operands ORs the colour, the mask value and the path bit of each pixel of the call into the
three buffers, bit by bit; the bits of other pixels and the bytes outside the buffers keep their values. The mask order and the path
numbering are the spec's own choices (log 26). -/
def Obligations.FieldSplitOrsFields : Prop :=
  ∀ s : State,
    (let src := s.operand 0
     let count := s.operand 1
     let j0 := s.operand 2
     let cd := s.operand 3
     let md := s.operand 4
     let pd := s.operand 5
     let npix := s.operand 6
     let dests : List Window := [⟨cd, npix⟩, ⟨md, (npix + 3) / 4⟩, ⟨pd, (npix + 7) / 8⟩]
     Memory.wf s.mem = true → j0 + count ≤ npix → Admitted s [⟨src, count⟩] dests →
      ∃ t : State,
        exec .fieldSplit s = .next t ∧ Completed s t .none (BitVec.ofNat 32 count) 0 0 ∧ SameRle s t ∧
          t.lzSig = s.lzSig ∧
          (∀ j b, j < npix → b < 8 →
            (Memory.read t.mem (cd + j)).getLsbD b =
              ((Memory.read s.mem (cd + j)).getLsbD b ||
                (decide (j0 ≤ j) && decide (j < j0 + count) && decide (b < 5) &&
                  (Memory.read s.mem (src + (j - j0))).getLsbD b))) ∧
          (∀ j b, j < 4 * ((npix + 3) / 4) → b < 2 →
            (Memory.read t.mem (md + j / 4)).getLsbD (2 * (j % 4) + b) =
              ((Memory.read s.mem (md + j / 4)).getLsbD (2 * (j % 4) + b) ||
                (decide (j0 ≤ j) && decide (j < j0 + count) &&
                  (Memory.read s.mem (src + (j - j0))).getLsbD (5 + b)))) ∧
          (∀ j, j < 8 * ((npix + 7) / 8) →
            (Memory.read t.mem (pd + j / 8)).getLsbD (j % 8) =
              ((Memory.read s.mem (pd + j / 8)).getLsbD (j % 8) ||
                (decide (j0 ≤ j) && decide (j < j0 + count) &&
                  (Memory.read s.mem (src + (j - j0))).getLsbD 7))) ∧
          SameOutside dests s t)

/-- R221, R225: a FIELD_SPLIT repeated with the same operands leaves every byte as the first one left it. -/
def Obligations.FieldSplitRepeatChangesNothing : Prop :=
  ∀ s t u : State,
    Memory.wf s.mem = true → exec .fieldSplit s = .next t → exec .fieldSplit t = .next u → SameMemory t u

/-! ### MASK unit -/

/-- R238 to R242: MASK_BUILD on admitted operands, or in place: every output bit in terms of the input planes, the count in
RESULT0 (free for the one count, 2^32, that does not fit: log 9), and no other byte. The tables and the plane order are the spec's own choices (log 18). -/
def Obligations.MaskBuildInterleaves : Prop :=
  ∀ s : State,
    (let src := s.operand 0
     let dst := s.operand 1
     let rows := s.operand 2
     let w := s.operand 3
     let n := 2 * w * rows
     Memory.wf s.mem = true → InMemory s [⟨src, n⟩, ⟨dst, n⟩] → OffRegisters s [⟨src, n⟩, ⟨dst, n⟩] →
     (dst = src ∨ Apart ⟨src, n⟩ ⟨dst, n⟩) →
      ∃ (t : State) (r0 : Word),
        exec .maskBuild s = .next t ∧ Completed s t .none r0 0 0 ∧ (n < 2 ^ 32 → r0 = BitVec.ofNat 32 n) ∧ SameRle s t ∧
          t.lzSig = s.lzSig ∧
          (∀ r j k, r < rows → j < w → k < 4 →
            (let p0 := Memory.read s.mem (src + 2 * w * r + j)
             let p1 := Memory.read s.mem (src + 2 * w * r + w + j)
             let high := Memory.read t.mem (dst + 2 * w * r + 2 * j)
             let low := Memory.read t.mem (dst + 2 * w * r + 2 * j + 1)
             high.getLsbD (2 * k) = p0.getLsbD (7 - k) ∧ high.getLsbD (2 * k + 1) = p1.getLsbD (7 - k) ∧
               low.getLsbD (2 * k) = p0.getLsbD (3 - k) ∧ low.getLsbD (2 * k + 1) = p1.getLsbD (3 - k))) ∧
          SameOutside [⟨dst, n⟩] s t)

/-- R236, R237: the two tables by their formulas. -/
def Obligations.MaskTablesMatchFormulas : Prop :=
  ∀ n : BitVec 4,
    (tableT0.getD n.toNat 0).toNat =
        (n.toNat / 8 % 2) + 4 * (n.toNat / 4 % 2) + 16 * (n.toNat / 2 % 2) + 64 * (n.toNat % 2) ∧
      tableT1.getD n.toNat 0 = tableT0.getD n.toNat 0 <<< 1

/-! ### The whole machine -/

/-- Two memories in their form that read alike are the same list. -/
def Obligations.CanonicalMemoryIsUnique : Prop :=
  ∀ m m' : Memory,
    Memory.wf m = true → Memory.wf m' = true → (∀ a, Memory.read m a = Memory.read m' a) → m = m'

/-- R13, R52: a four-byte field is big-endian. -/
def Obligations.WordsAreBigEndian : Prop :=
  ∀ (m : Memory) (a : Nat),
    (Memory.readWord m a).toNat =
      (Memory.read m a).toNat * 2 ^ 24 + (Memory.read m (a + 1)).toNat * 2 ^ 16 +
        (Memory.read m (a + 2)).toNat * 2 ^ 8 + (Memory.read m (a + 3)).toNat

/-- The machine after reset meets the invariant, whatever the platform leaves in M (log 4). -/
def Obligations.InvariantAtReset : Prop := State.reset.Inv

/-- R26, R31, R37 and the ranges of the cursors: every step from a state that meets the invariant gives one that meets
it. -/
def Obligations.StepKeepsInvariant : Prop :=
  ∀ s t : State, s.Inv → step s = .next t → t.Inv

/-- R22, R122, R9: a step that starts between commands ends between commands (no cursor survives a completion), and no step changes
a parameter. -/
def Obligations.StepEndsIdleAndKeepsParameters : Prop :=
  ∀ s t : State, step s = .next t → t.cfg = s.cfg ∧ (s.engine = .idle → t.engine = .idle)

/-- R112, R133, R161, R170: every RLE_READ of an open stream on admitted windows completes, and so does every LZ_DECODE of an
admitted blob that passes the checks of R161; and the one completion is the sequence of its records or codes: single steps lead to its
end state from the state with the remainder flushed (R134), or with the table, the trailer and the skip bits read (R164, R169, R181).
The states between are the model's own (log 7). -/
def Obligations.CompletionIsItsCodesInOrder : Prop :=
  (∀ s : State,
    s.rleValid = true → Admitted s [⟨s.rleBase, s.rleEnd - s.rleBase⟩] [⟨s.operand 0, s.operand 1⟩] →
      (let k := min s.rem.length (s.operand 1)
       ∃ t : State,
        exec .rleRead s = .next t ∧
          CodeByCode
            { s with
              mem := Memory.writeList s.mem (s.operand 0) (s.rem.take k)
              rem := s.rem.drop k
              engine := .reading ⟨s.operand 0, s.operand 1, k⟩ }
            t)) ∧
    (∀ s : State,
      lzAdmitted s → 12 ≤ s.operand 1 → signature s = s.cfg.sigSupported → declaredLength s ≤ s.operand 3 →
      declaredSkip s ≤ 8 * (s.operand 1 - 12) →
        ∃ t : State,
          exec .lzDecode s = .next t ∧
            CodeByCode
              { s with
                lzSig := .supported
                engine :=
                  .inflating
                    { base := s.operand 0
                      pay := s.operand 1 - 12
                      dst := s.operand 2
                      len := declaredLength s
                      skip := BitVec.ofNat 8 (declaredSkip s)
                      tab := readWidths s.mem (s.operand 0 + 4)
                      c := declaredSkip s
                      w := declaredLength s
                      atMatch := false } }
              t)
end

