-- ==== Sys2Proof/Laws/Memory.lean ====
section
/-! SUPPORT. The laws of M: read after write, the canonical form, block reads and writes, the bounded loop,
and M at reset. -/

namespace Sys2Proof.Machine

/-! ### One byte -/

@[simp] theorem Memory.read_nil (a : Nat) : Memory.read [] a = unlistedByte a := rfl

theorem Memory.read_cons (k : Nat) (v : Byte) (m : Memory) (a : Nat) :
    Memory.read ((k, v) :: m) a = if k = a then v else Memory.read m a := rfl

/-- In a canonical list an address below every listed one reads as unlisted. -/
theorem Memory.read_of_lt (m : Memory) (a : Nat) (h : ∀ c ∈ m, a < c.1) : Memory.read m a = unlistedByte a := by
  induction m with
  | nil => rfl
  | cons c m ih =>
    obtain ⟨k, v⟩ := c
    have hk : a < k := h (k, v) (by simp)
    rw [Memory.read_cons, if_neg (by omega)]
    exact ih fun c hc => h c (by simp [hc])

theorem Memory.wf_cons (k : Nat) (v : Byte) (m : Memory) :
    Memory.wf ((k, v) :: m) = true ↔ v ≠ unlistedByte k ∧ (∀ c ∈ m, k < c.1) ∧ Memory.wf m = true := by
  simp [Memory.wf, and_assoc]

/-- Every listed address after a write was listed before, or is the one written. -/
theorem Memory.mem_write {m : Memory} {a : Nat} {v : Byte} {c : Host.Cell} (h : c ∈ Memory.write m a v) :
    c ∈ m ∨ c = (a, v) := by
  induction m with
  | nil =>
    simp only [Memory.write] at h
    split at h <;> simp_all
  | cons x m ih =>
    obtain ⟨k, y⟩ := x
    simp only [Memory.write] at h
    split at h
    · rcases List.mem_cons.1 h with h | h
      · exact .inl (by simp [h])
      · rcases ih h with h | h
        · exact .inl (by simp [h])
        · exact .inr h
    · split at h
      · split at h
        · exact .inl (by simp [h])
        · rcases List.mem_cons.1 h with h | h
          · exact .inr h
          · exact .inl (by simp [h])
      · split at h
        · exact .inl h
        · rcases List.mem_cons.1 h with h | h
          · exact .inr h
          · exact .inl h

/-- A write keeps the canonical form. -/
theorem Memory.wf_write {m : Memory} (hm : Memory.wf m = true) (a : Nat) (v : Byte) :
    Memory.wf (Memory.write m a v) = true := by
  induction m with
  | nil =>
    simp only [Memory.write]
    split
    · rfl
    · simp_all [Memory.wf]
  | cons x m ih =>
    obtain ⟨k, y⟩ := x
    rw [Memory.wf_cons] at hm
    obtain ⟨hy, hk, hm⟩ := hm
    simp only [Memory.write]
    split
    · rw [Memory.wf_cons]
      refine ⟨hy, fun c hc => ?_, ih hm⟩
      rcases Memory.mem_write hc with hc | hc
      · exact hk c hc
      · simpa [hc] using ‹k < a›
    · split
      · subst_vars
        split
        · exact hm
        · rw [Memory.wf_cons]
          exact ⟨‹_›, hk, hm⟩
      · have hak : a < k := by omega
        split
        · rw [Memory.wf_cons]; exact ⟨hy, hk, hm⟩
        · rw [Memory.wf_cons]
          refine ⟨‹_›, fun c hc => ?_, by rw [Memory.wf_cons]; exact ⟨hy, hk, hm⟩⟩
          rcases List.mem_cons.1 hc with hc | hc
          · simpa [hc] using hak
          · exact hak.trans (hk c hc)

/-- Reading after a write (R59): the written byte at its address, the old byte elsewhere. -/
theorem Memory.read_write {m : Memory} (hm : Memory.wf m = true) (a : Nat) (v : Byte) (b : Nat) :
    Memory.read (Memory.write m a v) b = if b = a then v else Memory.read m b := by
  induction m with
  | nil =>
    simp only [Memory.write]
    split <;> split <;> simp_all [Memory.read_cons]
    omega
  | cons x m ih =>
    obtain ⟨k, y⟩ := x
    rw [Memory.wf_cons] at hm
    obtain ⟨hy, hk, hm⟩ := hm
    have hr : ∀ c, c ≤ k → Memory.read m c = unlistedByte c := fun c hc =>
      Memory.read_of_lt m c fun d hd => lt_of_le_of_lt hc (hk d hd)
    simp only [Memory.write]
    split
    · rw [Memory.read_cons, Memory.read_cons, ih hm]
      by_cases hb : b = a
      · subst hb; rw [if_neg (by omega)]; simp
      · simp [hb]
    · split
      · subst_vars
        by_cases hb : b = k
        · subst hb
          split
          · simp_all
          · simp [Memory.read_cons]
        · have : ¬k = b := fun h => hb h.symm
          split <;> simp [Memory.read_cons, this]
      · have hak : a < k := by omega
        by_cases hb : b = a
        · subst hb
          split
          · rw [Memory.read_cons, if_neg (by omega), hr _ hak.le]; simp_all
          · simp [Memory.read_cons]
        · have : ¬a = b := fun h => hb h.symm
          split <;> simp [Memory.read_cons, this]

theorem Memory.within_iff {bound : Nat} {m : Memory} :
    Memory.within bound m = true ↔ ∀ c ∈ m, c.1 < bound := by simp [Memory.within]

theorem Memory.within_write {bound : Nat} {m : Memory} (hm : Memory.within bound m = true) {a : Nat} (ha : a < bound)
    (v : Byte) : Memory.within bound (Memory.write m a v) = true := by
  rw [Memory.within_iff] at *
  intro c hc
  rcases Memory.mem_write hc with hc | hc
  · exact hm c hc
  · simpa [hc] using ha

/-! ### Blocks -/

@[simp] theorem Memory.writeList_nil (m : Memory) (a : Nat) : Memory.writeList m a [] = m := rfl

theorem Memory.writeList_cons (m : Memory) (a : Nat) (b : Byte) (bs : List Byte) :
    Memory.writeList m a (b :: bs) = Memory.writeList (Memory.write m a b) (a + 1) bs := rfl

theorem Memory.writeList_append (m : Memory) (a : Nat) (bs cs : List Byte) :
    Memory.writeList m a (bs ++ cs) = Memory.writeList (Memory.writeList m a bs) (a + bs.length) cs := by
  induction bs generalizing m a with
  | nil => simp
  | cons b bs ih =>
    simp only [List.cons_append, Memory.writeList_cons, ih, List.length_cons]
    congr 1; omega

theorem Memory.wf_writeList {m : Memory} (hm : Memory.wf m = true) (a : Nat) (bs : List Byte) :
    Memory.wf (Memory.writeList m a bs) = true := by
  induction bs generalizing m a with
  | nil => exact hm
  | cons b bs ih => exact ih (Memory.wf_write hm a b) _

theorem Memory.within_writeList {bound : Nat} {m : Memory} (hm : Memory.within bound m = true) (a : Nat)
    (bs : List Byte) (h : a + bs.length ≤ bound) : Memory.within bound (Memory.writeList m a bs) = true := by
  induction bs generalizing m a with
  | nil => exact hm
  | cons b bs ih =>
    simp only [List.length_cons] at h
    exact ih (Memory.within_write hm (by omega) b) _ (by omega)

/-- Reading after a block write: the bytes written inside the block, the old bytes outside it. -/
theorem Memory.read_writeList {m : Memory} (hm : Memory.wf m = true) (a : Nat) (bs : List Byte) (b : Nat) :
    Memory.read (Memory.writeList m a bs) b =
      if a ≤ b ∧ b < a + bs.length then bs.getD (b - a) 0 else Memory.read m b := by
  induction bs generalizing m a with
  | nil => simp
  | cons c bs ih =>
    rw [Memory.writeList_cons, ih (Memory.wf_write hm a c), Memory.read_write hm]
    simp only [List.length_cons]
    by_cases h1 : a + 1 ≤ b ∧ b < a + 1 + bs.length
    · rw [if_pos h1, if_pos (by omega), show b - a = (b - (a + 1)) + 1 by omega]; simp
    · rw [if_neg h1]
      by_cases h2 : b = a
      · subst h2; simp
      · rw [if_neg h2, if_neg (by omega)]

theorem Memory.read_writeList_outside {m : Memory} (hm : Memory.wf m = true) (a : Nat) (bs : List Byte) (b : Nat)
    (h : b < a ∨ a + bs.length ≤ b) : Memory.read (Memory.writeList m a bs) b = Memory.read m b := by
  rw [Memory.read_writeList hm, if_neg (by omega)]

@[simp] theorem Memory.readList_length (m : Memory) (a n : Nat) : (Memory.readList m a n).length = n := by
  induction n generalizing a with
  | zero => rfl
  | succ n ih => simp [Memory.readList, ih]

theorem Memory.getElem_readList (m : Memory) (a n i : Nat) (h : i < (Memory.readList m a n).length) :
    (Memory.readList m a n)[i] = Memory.read m (a + i) := by
  induction n generalizing a i with
  | zero => simp at h
  | succ n ih =>
    cases i with
    | zero => rfl
    | succ i =>
      have h' : i < (Memory.readList m (a + 1) n).length := by simpa [Memory.readList] using h
      simp only [Memory.readList, List.getElem_cons_succ, ih (a + 1) i h']
      congr 1; omega

theorem Memory.getD_readList (m : Memory) (a n i : Nat) (h : i < n) (d : Byte) :
    (Memory.readList m a n).getD i d = Memory.read m (a + i) := by
  rw [List.getD_eq_getElem?_getD, List.getElem?_eq_getElem (by simpa using h), Option.getD_some,
    Memory.getElem_readList]

theorem Memory.readList_congr {m m' : Memory} {a n : Nat}
    (h : ∀ i, i < n → Memory.read m' (a + i) = Memory.read m (a + i)) :
    Memory.readList m' a n = Memory.readList m a n := by
  apply List.ext_getElem (by simp)
  intro i h1 h2
  rw [Memory.getElem_readList, Memory.getElem_readList]
  exact h i (by simpa using h1)

theorem Memory.readList_append (m : Memory) (a n k : Nat) :
    Memory.readList m a (n + k) = Memory.readList m a n ++ Memory.readList m (a + n) k := by
  induction n generalizing a with
  | zero => simp [Memory.readList]
  | succ n ih =>
    rw [show n + 1 + k = (n + k) + 1 by omega]
    simp only [Memory.readList, ih, List.cons_append]
    congr 3; omega

/-! ### The bounded loop -/

@[simp] theorem forN_zero {α : Type} (f : Nat → α → α) (x : α) : forN 0 f x = x := rfl

theorem forN_succ {α : Type} (n : Nat) (f : Nat → α → α) (x : α) : forN (n + 1) f x = f n (forN n f x) := rfl

/-- What every body of a loop keeps, the loop keeps. -/
theorem forN_keeps {α : Type} (P : α → Prop) (n : Nat) (f : Nat → α → α) (x : α) (hx : P x)
    (hf : ∀ i y, i < n → P y → P (f i y)) : P (forN n f x) := by
  induction n with
  | zero => exact hx
  | succ n ih => exact hf n _ (by omega) (ih fun i y hi => hf i y (by omega))

/-- An invariant of the loop that counts its bodies. -/
theorem forN_induct {α : Type} (P : Nat → α → Prop) (n : Nat) (f : Nat → α → α) (x : α) (h0 : P 0 x)
    (hs : ∀ i y, i < n → P i y → P (i + 1) (f i y)) : P n (forN n f x) := by
  induction n with
  | zero => exact h0
  | succ n ih => exact hs n _ (by omega) (ih fun i y hi => hs i y (by omega))

/-! ### M at reset -/

/-- The platform's bytes keep the canonical form. -/
theorem Memory.wf_overlay {bound : Nat} {m : Memory} (hm : Memory.wf m = true) (left : List Host.Cell) :
    Memory.wf (Memory.overlay bound m left) = true := by
  induction left generalizing m with
  | nil => exact hm
  | cons c left ih =>
    obtain ⟨a, v⟩ := c
    simp only [Memory.overlay]
    split
    · exact ih (Memory.wf_write hm a v)
    · exact ih hm

/-- The platform's bytes lie in M. -/
theorem Memory.within_overlay {bound : Nat} {m : Memory} (hm : Memory.within bound m = true) (left : List Host.Cell) :
    Memory.within bound (Memory.overlay bound m left) = true := by
  induction left generalizing m with
  | nil => exact hm
  | cons c left ih =>
    obtain ⟨a, v⟩ := c
    simp only [Memory.overlay]
    split
    · exact ih (Memory.within_write hm ‹_› v)
    · exact ih hm

/-- A write beyond every listed address lists its byte last. -/
theorem Memory.write_last {m : Memory} {a : Nat} {v : Byte} (h : ∀ c ∈ m, c.1 < a) (hv : v ≠ unlistedByte a) :
    Memory.write m a v = m ++ [(a, v)] := by
  induction m with
  | nil => simp [Memory.write, hv]
  | cons c m ih =>
    obtain ⟨hc, hm⟩ := List.forall_mem_cons.1 h
    simp [Memory.write, hc, ih hm]

/-- The writes of a canonical memory inside M give that memory back, so the platform's bytes can be any contents of M. -/
theorem Memory.overlay_self {bound : Nat} {m : Memory} (hm : Memory.wf m = true) (hb : Memory.within bound m = true) :
    Memory.overlay bound [] m = m := by
  suffices h : ∀ pre : Memory, (∀ c ∈ pre, ∀ d ∈ m, c.1 < d.1) → Memory.overlay bound pre m = pre ++ m by
    simpa using h [] (by simp)
  induction m with
  | nil => simp [Memory.overlay]
  | cons c m ih =>
    obtain ⟨a, v⟩ := c
    intro pre hp
    obtain ⟨hv, ha, hm⟩ := (Memory.wf_cons a v m).1 hm
    rw [Memory.within_iff, List.forall_mem_cons] at hb
    rw [Memory.overlay, if_pos hb.1, Memory.write_last (fun c hc => hp c hc _ (List.mem_cons_self ..)) hv,
      ih hm (Memory.within_iff.2 hb.2)]
    · simp
    · intro c hc d hd
      rcases List.mem_append.1 hc with hc | hc
      · exact hp c hc d (List.mem_cons_of_mem _ hd)
      · obtain rfl := List.mem_singleton.1 hc
        exact ha d hd

theorem Memory.wf_atReset (bound : Nat) : Memory.wf (Memory.atReset bound) = true := Memory.wf_overlay rfl _

theorem Memory.within_atReset (bound : Nat) : Memory.within bound (Memory.atReset bound) = true :=
  Memory.within_overlay rfl _

/-- The memory of `State.reset` is in its canonical form. -/
theorem State.wf_reset_mem : Memory.wf State.reset.mem = true := Memory.wf_atReset _

/-- The memory of `State.reset` lists addresses of M only. -/
theorem State.within_reset_mem : Memory.within State.reset.cfg.memBytes State.reset.mem = true := Memory.within_atReset _

end Sys2Proof.Machine
end

