-- ==== Sys2Proof/Laws/Admission.lean ====
section
/-! SUPPORT. The checks every command makes first: what the window tests decide, and the cases of `guarded`. -/

namespace Sys2Proof.Machine

open Sys2Proof.Claims

theorem Window.holds_iff {w : Window} {a : Nat} : Window.holds w a = true ↔ In w a := by
  simp [Window.holds, In]

theorem anyHolds_iff {ws : List Window} {a : Nat} : anyHolds ws a = true ↔ ∃ w ∈ ws, In w a := by
  simp [anyHolds, Window.holds_iff]

/-- Two windows overlap when they have a common address (R15). -/
theorem Window.overlaps_iff {v w : Window} : Window.overlaps v w = true ↔ ∃ a, In v a ∧ In w a := by
  simp only [Window.overlaps, In, Bool.and_eq_true, decide_eq_true_eq]
  constructor
  · rintro ⟨⟨⟨hv, hw⟩, h1⟩, h2⟩
    exact ⟨max v.base w.base, by omega, by omega⟩
  · rintro ⟨a, h1, h2⟩
    omega

theorem Window.overlaps_eq_false {v w : Window} : Window.overlaps v w = false ↔ Apart v w := by
  rw [← Bool.not_eq_true, Window.overlaps_iff]
  simp [Apart]

theorem pairwiseDisjoint_iff {ws : List Window} : pairwiseDisjoint ws = true ↔ ws.Pairwise Apart := by
  induction ws with
  | nil => simp [pairwiseDisjoint]
  | cons w ws ih => simp [pairwiseDisjoint, ih, Window.overlaps_eq_false]

theorem separate_iff {vs ws : List Window} : separate vs ws = true ↔ NoOverlap vs ws := by
  simp [separate, NoOverlap, Window.overlaps_eq_false, pairwiseDisjoint_iff]

theorem fits_all_iff {s : State} {ws : List Window} :
    ws.all (Window.fits s.cfg.memBytes) = true ↔ InMemory s ws := by
  simp [Window.fits, InMemory]

theorem coversRegisters_eq_false {s : State} {ws : List Window} :
    coversRegisters s.cfg ws = false ↔ OffRegisters s ws := by
  rw [coversRegisters, OffRegisters]
  cases s.cfg.regsInMem
  · simp
  · rw [Bool.true_and, List.any_eq_false]
    simp [Window.overlaps_eq_false, registerWindow, Config.windowBytes]

theorem onRegisters_eq_false {s : State} {a : Nat} : onRegisters s.cfg a = false ↔ OffRegister s a := by
  rw [onRegisters, OffRegister]
  cases s.cfg.regsInMem
  · simp
  · rw [Bool.true_and, ← Bool.not_eq_true, Window.holds_iff]
    simp [In, registerWindow, Config.windowBytes]

/-- An admitted command with legal operands runs its body. -/
theorem guarded_of_admitted {i : Instr} {s : State} {body : State → Result} (hl : operandsLegal i s = true)
    (h : Admitted s (sourceWindows i s) (destWindows i s)) : guarded i s body = body s := by
  have h1 := coversRegisters_eq_false.2 h.offRegisters
  have h2 : windowsAdmitted i s = true := by
    simp [windowsAdmitted, separate_iff.2 h.noOverlap, fits_all_iff.2 h.inMemory]
  simp [guarded, hl, h1, h2]

/-- Every command makes its checks first: its meaning is `guarded` with a body. -/
theorem exec_command {i : Instr} (hi : i.isCommand = true) : ∃ body : State → Result, ∀ s, exec i s = guarded i s body := by
  cases i <;> first | exact ⟨_, fun _ => rfl⟩ | simp [Instr.isCommand] at hi

/-- The cases of `guarded`: the fault of R67, BadCommand, or the body of a command that passed its checks. -/
theorem guarded_cases (i : Instr) (s : State) (body : State → Result) :
    guarded i s body = .fault .windowCoversRegisters ∨
      guarded i s body = .next (s.raise .badCommand) ∨
      (operandsLegal i s = true ∧ windowsAdmitted i s = true ∧ guarded i s body = body s) := by
  unfold guarded
  split
  · split
    · exact .inl rfl
    · split
      · exact .inr (.inr ⟨‹_›, ‹_›, rfl⟩)
      · exact .inr (.inl rfl)
  · exact .inr (.inl rfl)

/-- With no window over the register window, `guarded` faults nowhere but in its body. -/
theorem guarded_of_offRegisters {i : Instr} {s : State} {body : State → Result}
    (h : OffRegisters s (sourceWindows i s ++ destWindows i s)) :
    guarded i s body =
      if operandsLegal i s = true ∧ windowsAdmitted i s = true then body s else .next (s.raise .badCommand) := by
  simp only [guarded, coversRegisters_eq_false.2 h]
  by_cases h1 : operandsLegal i s = true <;> by_cases h2 : windowsAdmitted i s = true <;> simp [h1, h2]

/-- What admitted windows are, as intervals. -/
theorem windowsAdmitted_iff {i : Instr} {s : State} :
    windowsAdmitted i s = true ↔
      InMemory s (sourceWindows i s ++ destWindows i s) ∧
        (inPlace i s = true ∨ NoOverlap (sourceWindows i s) (destWindows i s)) := by
  rw [windowsAdmitted, Bool.and_eq_true, Bool.or_eq_true, fits_all_iff, separate_iff]

theorem failed_eq_raise (e : ErrKind) (s : State) : failed e s = s.raise e := rfl

end Sys2Proof.Machine
end

