-- ==== Sys2Proof/Laws/Decode.lean ====
section
/-! SUPPORT. The laws of the bit groups and of the decoders' parts. -/

namespace Sys2Proof

/-! ### Groups -/

theorem takeBits_append (l rest : List Bool) : takeBits l.length (l ++ rest) = some (l, rest) := by
  induction l with
  | nil => rfl
  | cons b l ih => simp [takeBits, ih]

/-- A group that was read is the front of the bits. -/
theorem takeBits_eq_some {n : Nat} {bits : List Bool} {p : List Bool × List Bool} (h : takeBits n bits = some p) :
    bits = p.1 ++ p.2 ∧ p.1.length = n := by
  induction n generalizing bits p with
  | zero =>
    simp only [takeBits, Option.some.injEq] at h
    subst h; simp
  | succ n ih =>
    cases bits with
    | nil => simp [takeBits] at h
    | cons b bits =>
      simp only [takeBits, Option.map_eq_some_iff] at h
      obtain ⟨q, hq, rfl⟩ := h
      obtain ⟨h1, h2⟩ := ih hq
      simp [h1, h2]

theorem takeBits_eq_none {n : Nat} {bits : List Bool} (h : takeBits n bits = none) : bits.length < n := by
  induction n generalizing bits with
  | zero => simp [takeBits] at h
  | succ n ih =>
    cases bits with
    | nil => simp
    | cons b bits =>
      simp only [takeBits, Option.map_eq_none_iff] at h
      simpa using ih h

theorem group2_bits (g : BitVec 2) : group2 (g.getLsbD 1) (g.getLsbD 0) = g := by
  revert g; decide

theorem group3_bits (g : BitVec 3) : group3 (g.getLsbD 2) (g.getLsbD 1) (g.getLsbD 0) = g := by
  revert g; decide

theorem bits_group2 : ∀ a b : Bool, (group2 a b).getLsbD 1 = a ∧ (group2 a b).getLsbD 0 = b := by decide

theorem bits_group3 : ∀ a b c : Bool,
    (group3 a b c).getLsbD 2 = a ∧ (group3 a b c).getLsbD 1 = b ∧ (group3 a b c).getLsbD 0 = c := by decide

@[simp] theorem ext2Bits_length (k : Nat) (g : BitVec 2) : (ext2Bits k g).length = 2 * (k + 1) := by
  induction k with
  | zero => rfl
  | succ k ih => simp [ext2Bits, ih]; omega

@[simp] theorem ext3Bits_length (k : Nat) (g : BitVec 3) : (ext3Bits k g).length = 3 * (k + 1) := by
  induction k with
  | zero => rfl
  | succ k ih => simp [ext3Bits, ih]; omega

/-- A count extension whose last group is not 11 is read back. -/
theorem readExt2_ext2Bits (k : Nat) (g : BitVec 2) (hg : g ≠ 3#2) (rest : List Bool) :
    readExt2 (ext2Bits k g ++ rest) = some (k, g, rest) := by
  induction k with
  | zero =>
    have : ∀ g : BitVec 2, g ≠ 3#2 → ¬(g.getLsbD 1 = true ∧ g.getLsbD 0 = true) := by decide
    have hg' := this g hg
    have := group2_bits g
    rcases h1 : g.getLsbD 1 with - | - <;> rcases h0 : g.getLsbD 0 with - | - <;>
      simp_all [ext2Bits, readExt2]
  | succ k ih => simp [ext2Bits, readExt2, ih]

/-- A length extension whose last group is not 111 is read back. -/
theorem readExt3_ext3Bits (k : Nat) (g : BitVec 3) (hg : g ≠ 7#3) (rest : List Bool) :
    readExt3 (ext3Bits k g ++ rest) = some (k, g, rest) := by
  induction k with
  | zero =>
    have : ∀ g : BitVec 3, g ≠ 7#3 → ¬(g.getLsbD 2 = true ∧ g.getLsbD 1 = true ∧ g.getLsbD 0 = true) := by decide
    have hg' := this g hg
    have := group3_bits g
    rcases h2 : g.getLsbD 2 with - | - <;> rcases h1 : g.getLsbD 1 with - | - <;>
      rcases h0 : g.getLsbD 0 with - | - <;> simp_all [ext3Bits, readExt3]
  | succ k ih => simp [ext3Bits, readExt3, ih]

/-- A count extension that was read is the front of the bits, and its last group is not 11. -/
theorem readExt2_eq_some {bits : List Bool} {p : Nat × BitVec 2 × List Bool} (h : readExt2 bits = some p) :
    bits = ext2Bits p.1 p.2.1 ++ p.2.2 ∧ p.2.1 ≠ 3#2 := by
  induction bits using readExt2.induct generalizing p with
  | case1 bits ih =>
    simp only [readExt2, Option.map_eq_some_iff] at h
    obtain ⟨q, hq, rfl⟩ := h
    obtain ⟨h1, h2⟩ := ih hq
    exact ⟨by simp [ext2Bits, ← h1], h2⟩
  | case2 a b bits hab =>
    rw [readExt2.eq_2 _ _ _ hab] at h
    cases h
    have := bits_group2 a b
    refine ⟨?_, ?_⟩
    · change a :: b :: bits = (group2 a b).getLsbD 1 :: (group2 a b).getLsbD 0 :: bits
      rw [this.1, this.2]
    · cases a <;> cases b <;> simp_all [group2]
  | case3 bits h1 h2 =>
    rw [readExt2.eq_3 _ h1 h2] at h
    exact absurd h (by simp)

/-- A length extension that was read is the front of the bits, and its last group is not 111. -/
theorem readExt3_eq_some {bits : List Bool} {p : Nat × BitVec 3 × List Bool} (h : readExt3 bits = some p) :
    bits = ext3Bits p.1 p.2.1 ++ p.2.2 ∧ p.2.1 ≠ 7#3 := by
  induction bits using readExt3.induct generalizing p with
  | case1 bits ih =>
    simp only [readExt3, Option.map_eq_some_iff] at h
    obtain ⟨q, hq, rfl⟩ := h
    obtain ⟨h1, h2⟩ := ih hq
    exact ⟨by simp [ext3Bits, ← h1], h2⟩
  | case2 a b c bits hab =>
    rw [readExt3.eq_2 _ _ _ _ hab] at h
    cases h
    have := bits_group3 a b c
    refine ⟨?_, ?_⟩
    · change a :: b :: c :: bits =
        (group3 a b c).getLsbD 2 :: (group3 a b c).getLsbD 1 :: (group3 a b c).getLsbD 0 :: bits
      rw [this.1, this.2.1, this.2.2]
    · cases a <;> cases b <;> cases c <;> simp_all [group3]
  | case3 bits h1 h2 =>
    rw [readExt3.eq_3 _ h1 h2] at h
    exact absurd h (by simp)

/-! ### The value of a group -/

theorem bitsVal_cons (b : Bool) (l : List Bool) : bitsVal (b :: l) = b.toNat * 2 ^ l.length + bitsVal l := by
  have : ∀ (l : List Bool) (v : Nat), l.foldl (fun v b => 2 * v + b.toNat) v = v * 2 ^ l.length + bitsVal l := by
    intro l
    induction l with
    | nil => simp [bitsVal]
    | cons b l ih =>
      intro v
      simp only [bitsVal, List.foldl_cons, List.length_cons]
      rw [ih, ih (2 * 0 + b.toNat)]
      ring
  rw [bitsVal, List.foldl_cons, this]
  simp

/-- The value of a group is below 2^n (R167). -/
theorem bitsVal_lt (l : List Bool) : bitsVal l < 2 ^ l.length := by
  induction l with
  | nil => simp [bitsVal]
  | cons b l ih =>
    rw [bitsVal_cons, List.length_cons, pow_succ]
    cases b <;> simp <;> omega

/-- The bits of an 8-bit group, as a byte: the first is bit 7 (R83). -/
theorem byte_of_bits (b : Byte) : BitVec.ofNat 8 (bitsVal (Reference.byteBits b)) = b := by
  revert b; decide

/-- Bit 7 − j of the byte of an 8-bit group is its bit j. -/
theorem getLsbD_byte_of_bits : ∀ b0 b1 b2 b3 b4 b5 b6 b7 : Bool, ∀ j : Fin 8,
    (BitVec.ofNat 8 (bitsVal [b0, b1, b2, b3, b4, b5, b6, b7])).getLsbD (7 - j.val) =
      [b0, b1, b2, b3, b4, b5, b6, b7].getD j.val false := by
  decide

/-! ### Every code of the LZ stream takes at least one bit -/

theorem decodeControl_length {bits : List Bool} {p : Instr × List Bool} (h : decodeControl bits = some p) :
    p.2.length + codeLength p.1 = bits.length ∧ 0 < codeLength p.1 := by
  cases bits with
  | nil => simp [decodeControl] at h
  | cons b bits =>
    cases b
    · simp only [decodeControl, Option.map_eq_some_iff] at h
      obtain ⟨q, hq, rfl⟩ := h
      have := (readExt2_eq_some hq).1
      rw [this]
      simp [codeLength, encode, Code.streamBits]; omega
    · simp only [decodeControl, Option.some.injEq] at h
      subst h
      simp [codeLength, encode, Code.streamBits]

theorem decodeMatch_length {t : Widths} {bits : List Bool} {p : Instr × List Bool} (h : decodeMatch t bits = some p) :
    p.2.length + codeLength p.1 = bits.length ∧ 0 < codeLength p.1 := by
  unfold decodeMatch at h
  split at h
  · simp only [Option.map_eq_some_iff] at h
    obtain ⟨q, hq, rfl⟩ := h
    have := (takeBits_eq_some hq).1
    subst this
    simp [codeLength, encode, Code.streamBits]; omega
  · simp only [Option.map_eq_some_iff] at h
    obtain ⟨q, hq, rfl⟩ := h
    have := (takeBits_eq_some hq).1
    subst this
    simp [codeLength, encode, Code.streamBits]; omega
  · simp only [Option.map_eq_some_iff] at h
    obtain ⟨q, hq, rfl⟩ := h
    have := (takeBits_eq_some hq).1
    subst this
    simp [codeLength, encode, Code.streamBits]; omega
  · simp only [Option.bind_eq_some_iff, Option.map_eq_some_iff] at h
    obtain ⟨q, hq, r, hr, rfl⟩ := h
    have h1 := (takeBits_eq_some hq).1
    have h2 := (readExt3_eq_some hr).1
    rw [h1, h2]
    simp [codeLength, encode, Code.streamBits]; omega
  · simp only [Option.bind_eq_some_iff, Option.map_eq_some_iff] at h
    obtain ⟨q, hq, r, hr, rfl⟩ := h
    have h1 := (takeBits_eq_some hq).1
    have h2 := (readExt3_eq_some hr).1
    rw [h1, h2]
    simp [codeLength, encode, Code.streamBits]; omega
  · simp at h

end Sys2Proof
end

