-- ==== Sys2Proof/Laws/State.lean ====
section
/-! SUPPORT. One lemma for each field of each named update of the state: what the field holds after it. -/

namespace Sys2Proof.Machine

variable (s : State)

/-! ### `State.complete` -/

@[simp] theorem State.complete_cfg (e : ErrKind) (r0 r1 r2 : Word) : (s.complete e r0 r1 r2).cfg = s.cfg := rfl
@[simp] theorem State.complete_mem (e : ErrKind) (r0 r1 r2 : Word) : (s.complete e r0 r1 r2).mem = s.mem := rfl
@[simp] theorem State.complete_cmdLast (e : ErrKind) (r0 r1 r2 : Word) : (s.complete e r0 r1 r2).cmdLast = s.cmdLast := rfl
@[simp] theorem State.complete_busy (e : ErrKind) (r0 r1 r2 : Word) : (s.complete e r0 r1 r2).busy = false := rfl
@[simp] theorem State.complete_done (e : ErrKind) (r0 r1 r2 : Word) : (s.complete e r0 r1 r2).done = true := rfl
@[simp] theorem State.complete_err (e : ErrKind) (r0 r1 r2 : Word) : (s.complete e r0 r1 r2).err = e := rfl
@[simp] theorem State.complete_cmdIgn (e : ErrKind) (r0 r1 r2 : Word) : (s.complete e r0 r1 r2).cmdIgn = s.cmdIgn := rfl
@[simp] theorem State.complete_lzSig (e : ErrKind) (r0 r1 r2 : Word) : (s.complete e r0 r1 r2).lzSig = s.lzSig := rfl
@[simp] theorem State.complete_arg (e : ErrKind) (r0 r1 r2 : Word) : (s.complete e r0 r1 r2).arg = s.arg := rfl
@[simp] theorem State.complete_result0 (e : ErrKind) (r0 r1 r2 : Word) : (s.complete e r0 r1 r2).result0 = r0 := rfl
@[simp] theorem State.complete_result1 (e : ErrKind) (r0 r1 r2 : Word) : (s.complete e r0 r1 r2).result1 = r1 := rfl
@[simp] theorem State.complete_result2 (e : ErrKind) (r0 r1 r2 : Word) : (s.complete e r0 r1 r2).result2 = r2 := rfl
@[simp] theorem State.complete_rleValid (e : ErrKind) (r0 r1 r2 : Word) : (s.complete e r0 r1 r2).rleValid = s.rleValid := rfl
@[simp] theorem State.complete_rleBase (e : ErrKind) (r0 r1 r2 : Word) : (s.complete e r0 r1 r2).rleBase = s.rleBase := rfl
@[simp] theorem State.complete_rlePtr (e : ErrKind) (r0 r1 r2 : Word) : (s.complete e r0 r1 r2).rlePtr = s.rlePtr := rfl
@[simp] theorem State.complete_rleEnd (e : ErrKind) (r0 r1 r2 : Word) : (s.complete e r0 r1 r2).rleEnd = s.rleEnd := rfl
@[simp] theorem State.complete_rem (e : ErrKind) (r0 r1 r2 : Word) : (s.complete e r0 r1 r2).rem = s.rem := rfl
@[simp] theorem State.complete_rleTrunc (e : ErrKind) (r0 r1 r2 : Word) : (s.complete e r0 r1 r2).rleTrunc = s.rleTrunc := rfl
@[simp] theorem State.complete_pend (e : ErrKind) (r0 r1 r2 : Word) : (s.complete e r0 r1 r2).pend = s.pend := rfl
@[simp] theorem State.complete_larg (e : ErrKind) (r0 r1 r2 : Word) : (s.complete e r0 r1 r2).larg = s.larg := rfl
@[simp] theorem State.complete_engine (e : ErrKind) (r0 r1 r2 : Word) : (s.complete e r0 r1 r2).engine = .idle := rfl
@[simp] theorem State.complete_turns (e : ErrKind) (r0 r1 r2 : Word) : (s.complete e r0 r1 r2).turns = s.turns := rfl
@[simp] theorem State.complete_regData (e : ErrKind) (r0 r1 r2 : Word) : (s.complete e r0 r1 r2).regData = s.regData := rfl
@[simp] theorem State.complete_memData (e : ErrKind) (r0 r1 r2 : Word) : (s.complete e r0 r1 r2).memData = s.memData := rfl
@[simp] theorem State.complete_draws (e : ErrKind) (r0 r1 r2 : Word) : (s.complete e r0 r1 r2).draws = s.draws := rfl

/-! ### `State.raise` -/

@[simp] theorem State.raise_cfg (e : ErrKind) : (s.raise e).cfg = s.cfg := rfl
@[simp] theorem State.raise_mem (e : ErrKind) : (s.raise e).mem = s.mem := rfl
@[simp] theorem State.raise_cmdLast (e : ErrKind) : (s.raise e).cmdLast = s.cmdLast := rfl
@[simp] theorem State.raise_busy (e : ErrKind) : (s.raise e).busy = false := rfl
@[simp] theorem State.raise_done (e : ErrKind) : (s.raise e).done = true := rfl
@[simp] theorem State.raise_err (e : ErrKind) : (s.raise e).err = e := rfl
@[simp] theorem State.raise_cmdIgn (e : ErrKind) : (s.raise e).cmdIgn = s.cmdIgn := rfl
@[simp] theorem State.raise_lzSig (e : ErrKind) : (s.raise e).lzSig = s.lzSig := rfl
@[simp] theorem State.raise_arg (e : ErrKind) : (s.raise e).arg = s.arg := rfl
@[simp] theorem State.raise_result0 (e : ErrKind) : (s.raise e).result0 = 0 := rfl
@[simp] theorem State.raise_result1 (e : ErrKind) : (s.raise e).result1 = 0 := rfl
@[simp] theorem State.raise_result2 (e : ErrKind) : (s.raise e).result2 = 0 := rfl
@[simp] theorem State.raise_rleValid (e : ErrKind) : (s.raise e).rleValid = s.rleValid := rfl
@[simp] theorem State.raise_rleBase (e : ErrKind) : (s.raise e).rleBase = s.rleBase := rfl
@[simp] theorem State.raise_rlePtr (e : ErrKind) : (s.raise e).rlePtr = s.rlePtr := rfl
@[simp] theorem State.raise_rleEnd (e : ErrKind) : (s.raise e).rleEnd = s.rleEnd := rfl
@[simp] theorem State.raise_rem (e : ErrKind) : (s.raise e).rem = s.rem := rfl
@[simp] theorem State.raise_rleTrunc (e : ErrKind) : (s.raise e).rleTrunc = s.rleTrunc := rfl
@[simp] theorem State.raise_pend (e : ErrKind) : (s.raise e).pend = s.pend := rfl
@[simp] theorem State.raise_larg (e : ErrKind) : (s.raise e).larg = s.larg := rfl
@[simp] theorem State.raise_engine (e : ErrKind) : (s.raise e).engine = .idle := rfl
@[simp] theorem State.raise_turns (e : ErrKind) : (s.raise e).turns = s.turns := rfl
@[simp] theorem State.raise_regData (e : ErrKind) : (s.raise e).regData = s.regData := rfl
@[simp] theorem State.raise_memData (e : ErrKind) : (s.raise e).memData = s.memData := rfl
@[simp] theorem State.raise_draws (e : ErrKind) : (s.raise e).draws = s.draws := rfl

/-! ### `State.openStream` -/

@[simp] theorem State.openStream_cfg (b n : Nat) : (s.openStream b n).cfg = s.cfg := rfl
@[simp] theorem State.openStream_mem (b n : Nat) : (s.openStream b n).mem = s.mem := rfl
@[simp] theorem State.openStream_cmdLast (b n : Nat) : (s.openStream b n).cmdLast = s.cmdLast := rfl
@[simp] theorem State.openStream_busy (b n : Nat) : (s.openStream b n).busy = s.busy := rfl
@[simp] theorem State.openStream_done (b n : Nat) : (s.openStream b n).done = s.done := rfl
@[simp] theorem State.openStream_err (b n : Nat) : (s.openStream b n).err = s.err := rfl
@[simp] theorem State.openStream_cmdIgn (b n : Nat) : (s.openStream b n).cmdIgn = s.cmdIgn := rfl
@[simp] theorem State.openStream_lzSig (b n : Nat) : (s.openStream b n).lzSig = s.lzSig := rfl
@[simp] theorem State.openStream_arg (b n : Nat) : (s.openStream b n).arg = s.arg := rfl
@[simp] theorem State.openStream_result0 (b n : Nat) : (s.openStream b n).result0 = s.result0 := rfl
@[simp] theorem State.openStream_result1 (b n : Nat) : (s.openStream b n).result1 = s.result1 := rfl
@[simp] theorem State.openStream_result2 (b n : Nat) : (s.openStream b n).result2 = s.result2 := rfl
@[simp] theorem State.openStream_rleValid (b n : Nat) : (s.openStream b n).rleValid = true := rfl
@[simp] theorem State.openStream_rleBase (b n : Nat) : (s.openStream b n).rleBase = b := rfl
@[simp] theorem State.openStream_rlePtr (b n : Nat) : (s.openStream b n).rlePtr = b := rfl
@[simp] theorem State.openStream_rleEnd (b n : Nat) : (s.openStream b n).rleEnd = b + n := rfl
@[simp] theorem State.openStream_rem (b n : Nat) : (s.openStream b n).rem = [] := rfl
@[simp] theorem State.openStream_rleTrunc (b n : Nat) : (s.openStream b n).rleTrunc = false := rfl
@[simp] theorem State.openStream_pend (b n : Nat) : (s.openStream b n).pend = s.pend := rfl
@[simp] theorem State.openStream_larg (b n : Nat) : (s.openStream b n).larg = s.larg := rfl
@[simp] theorem State.openStream_engine (b n : Nat) : (s.openStream b n).engine = s.engine := rfl
@[simp] theorem State.openStream_turns (b n : Nat) : (s.openStream b n).turns = s.turns := rfl
@[simp] theorem State.openStream_regData (b n : Nat) : (s.openStream b n).regData = s.regData := rfl
@[simp] theorem State.openStream_memData (b n : Nat) : (s.openStream b n).memData = s.memData := rfl
@[simp] theorem State.openStream_draws (b n : Nat) : (s.openStream b n).draws = s.draws := rfl

/-! ### `State.startRead` -/

@[simp] theorem State.startRead_cfg (d n : Nat) : (s.startRead d n).cfg = s.cfg := rfl
@[simp] theorem State.startRead_mem (d n : Nat) : (s.startRead d n).mem = Memory.writeList s.mem d (s.rem.take (min s.rem.length n)) := rfl
@[simp] theorem State.startRead_cmdLast (d n : Nat) : (s.startRead d n).cmdLast = s.cmdLast := rfl
@[simp] theorem State.startRead_busy (d n : Nat) : (s.startRead d n).busy = s.busy := rfl
@[simp] theorem State.startRead_done (d n : Nat) : (s.startRead d n).done = s.done := rfl
@[simp] theorem State.startRead_err (d n : Nat) : (s.startRead d n).err = s.err := rfl
@[simp] theorem State.startRead_cmdIgn (d n : Nat) : (s.startRead d n).cmdIgn = s.cmdIgn := rfl
@[simp] theorem State.startRead_lzSig (d n : Nat) : (s.startRead d n).lzSig = s.lzSig := rfl
@[simp] theorem State.startRead_arg (d n : Nat) : (s.startRead d n).arg = s.arg := rfl
@[simp] theorem State.startRead_result0 (d n : Nat) : (s.startRead d n).result0 = s.result0 := rfl
@[simp] theorem State.startRead_result1 (d n : Nat) : (s.startRead d n).result1 = s.result1 := rfl
@[simp] theorem State.startRead_result2 (d n : Nat) : (s.startRead d n).result2 = s.result2 := rfl
@[simp] theorem State.startRead_rleValid (d n : Nat) : (s.startRead d n).rleValid = s.rleValid := rfl
@[simp] theorem State.startRead_rleBase (d n : Nat) : (s.startRead d n).rleBase = s.rleBase := rfl
@[simp] theorem State.startRead_rlePtr (d n : Nat) : (s.startRead d n).rlePtr = s.rlePtr := rfl
@[simp] theorem State.startRead_rleEnd (d n : Nat) : (s.startRead d n).rleEnd = s.rleEnd := rfl
@[simp] theorem State.startRead_rem (d n : Nat) : (s.startRead d n).rem = s.rem.drop (min s.rem.length n) := rfl
@[simp] theorem State.startRead_rleTrunc (d n : Nat) : (s.startRead d n).rleTrunc = s.rleTrunc := rfl
@[simp] theorem State.startRead_pend (d n : Nat) : (s.startRead d n).pend = s.pend := rfl
@[simp] theorem State.startRead_larg (d n : Nat) : (s.startRead d n).larg = s.larg := rfl
@[simp] theorem State.startRead_engine (d n : Nat) : (s.startRead d n).engine = .reading ⟨d, n, min s.rem.length n⟩ := rfl
@[simp] theorem State.startRead_turns (d n : Nat) : (s.startRead d n).turns = s.turns := rfl
@[simp] theorem State.startRead_regData (d n : Nat) : (s.startRead d n).regData = s.regData := rfl
@[simp] theorem State.startRead_memData (d n : Nat) : (s.startRead d n).memData = s.memData := rfl
@[simp] theorem State.startRead_draws (d n : Nat) : (s.startRead d n).draws = s.draws := rfl

/-! ### `deliver`, `finishRead`, `truncateRead` -/

@[simp] theorem deliver_cfg (x : ReadCursor) (rec : List Byte) : (deliver x rec s).cfg = s.cfg := rfl
@[simp] theorem deliver_cmdLast (x : ReadCursor) (rec : List Byte) : (deliver x rec s).cmdLast = s.cmdLast := rfl
@[simp] theorem deliver_busy (x : ReadCursor) (rec : List Byte) : (deliver x rec s).busy = s.busy := rfl
@[simp] theorem deliver_done (x : ReadCursor) (rec : List Byte) : (deliver x rec s).done = s.done := rfl
@[simp] theorem deliver_err (x : ReadCursor) (rec : List Byte) : (deliver x rec s).err = s.err := rfl
@[simp] theorem deliver_cmdIgn (x : ReadCursor) (rec : List Byte) : (deliver x rec s).cmdIgn = s.cmdIgn := rfl
@[simp] theorem deliver_lzSig (x : ReadCursor) (rec : List Byte) : (deliver x rec s).lzSig = s.lzSig := rfl
@[simp] theorem deliver_arg (x : ReadCursor) (rec : List Byte) : (deliver x rec s).arg = s.arg := rfl
@[simp] theorem deliver_result0 (x : ReadCursor) (rec : List Byte) : (deliver x rec s).result0 = s.result0 := rfl
@[simp] theorem deliver_result1 (x : ReadCursor) (rec : List Byte) : (deliver x rec s).result1 = s.result1 := rfl
@[simp] theorem deliver_result2 (x : ReadCursor) (rec : List Byte) : (deliver x rec s).result2 = s.result2 := rfl
@[simp] theorem deliver_rleValid (x : ReadCursor) (rec : List Byte) : (deliver x rec s).rleValid = s.rleValid := rfl
@[simp] theorem deliver_rleBase (x : ReadCursor) (rec : List Byte) : (deliver x rec s).rleBase = s.rleBase := rfl
@[simp] theorem deliver_rlePtr (x : ReadCursor) (rec : List Byte) : (deliver x rec s).rlePtr = s.rlePtr := rfl
@[simp] theorem deliver_rleEnd (x : ReadCursor) (rec : List Byte) : (deliver x rec s).rleEnd = s.rleEnd := rfl
@[simp] theorem deliver_rleTrunc (x : ReadCursor) (rec : List Byte) : (deliver x rec s).rleTrunc = s.rleTrunc := rfl
@[simp] theorem deliver_pend (x : ReadCursor) (rec : List Byte) : (deliver x rec s).pend = s.pend := rfl
@[simp] theorem deliver_larg (x : ReadCursor) (rec : List Byte) : (deliver x rec s).larg = s.larg := rfl
@[simp] theorem deliver_turns (x : ReadCursor) (rec : List Byte) : (deliver x rec s).turns = s.turns := rfl
@[simp] theorem deliver_regData (x : ReadCursor) (rec : List Byte) : (deliver x rec s).regData = s.regData := rfl
@[simp] theorem deliver_memData (x : ReadCursor) (rec : List Byte) : (deliver x rec s).memData = s.memData := rfl
@[simp] theorem deliver_draws (x : ReadCursor) (rec : List Byte) : (deliver x rec s).draws = s.draws := rfl

end Sys2Proof.Machine
end

