-- ==== Sys2Proof/Laws/Host.lean ====
section
/-! SUPPORT. The laws of the host's accesses and of reset. -/

namespace Sys2Proof.Machine

open Sys2Proof.Claims

/-- The offset of an aligned 32-bit access inside the register window. -/
theorem registerOffset_aligned {c : Config} {off : Nat} (h : off < 0x100) (h4 : off % 4 = 0) :
    registerOffset c (c.regBase + off) 4 = .ok off := by
  simp [registerOffset, Window.holds, registerWindow, Config.windowBytes, h, h4]

/-- Any other access inside the register window has none. -/
theorem registerOffset_narrow {c : Config} {off width : Nat} (h : off < 0x100) (hw : width ≠ 4 ∨ off % 4 ≠ 0) :
    registerOffset c (c.regBase + off) width = .error .registerAccessWidth := by
  have : ¬(width = 4 ∧ off % 4 = 0) := by omega
  simp [registerOffset, Window.holds, registerWindow, Config.windowBytes, h, this]

theorem argIndex_of_arg {i : Nat} (h : i < 8) : argIndex (0x10 + 4 * i) = some i := by
  have h1 : 0x10 ≤ 0x10 + 4 * i ∧ 0x10 + 4 * i ≤ 0x2C ∧ (0x10 + 4 * i) % 4 = 0 := by omega
  rw [argIndex, if_pos h1]
  congr 1; omega

theorem argIndex_of_other {off : Nat} (h : ¬(0x10 ≤ off ∧ off ≤ 0x2C)) : argIndex off = none := by
  rw [argIndex, if_neg]; omega

theorem Args.get_set (r : Args) {i j : Nat} (hi : i < 8) (hj : j < 8) (v : Word) :
    (r.set i v).get j = if j = i then v else r.get j := by
  interval_cases i <;> interval_cases j <;> rfl

/-- An idle step takes the next turn. -/
theorem step_of_turn {s : State} {t : Turn} {ts : List Turn} (hi : s.engine = .idle) (ht : s.turns = t :: ts) :
    step s = takeTurn t { s with turns := ts } := by
  simp [step, advance, hi, ht]

/-- An idle step with no turn left is the ENGINE's. -/
theorem step_of_noTurn {s : State} (hi : s.engine = .idle) (ht : s.turns = []) : step s = engineTurn s := by
  simp [step, advance, hi, ht]

/-- A step in the middle of a command is its next record or code. -/
theorem step_of_stream {s : State} (hi : s.engine ≠ .idle) : step s = streamStep s := by
  unfold step advance
  split
  · exact absurd ‹_› hi
  · rfl
  · rfl

/-- The turns to come play no part in a command's windows. -/
@[simp] theorem sourceWindows_turns (i : Instr) (s : State) (ts : List Turn) :
    sourceWindows i { s with turns := ts } = sourceWindows i s := by cases i <;> rfl

@[simp] theorem destWindows_turns (i : Instr) (s : State) (ts : List Turn) :
    destWindows i { s with turns := ts } = destWindows i s := by cases i <;> rfl

@[simp] theorem State.busySources_turns (s : State) (ts : List Turn) :
    State.busySources { s with turns := ts } = s.busySources := by
  simp [State.busySources]

@[simp] theorem State.busyDests_turns (s : State) (ts : List Turn) :
    State.busyDests { s with turns := ts } = s.busyDests := by
  simp [State.busyDests]

/-! ### Runs -/

@[simp] theorem core_run_zero (s : State) : Sys2Proof.core.run 0 s = .next s := rfl

/-- A run whose first step goes on is the rest of the run. -/
theorem run_of_next (M : Host.Core) {s t : M.State} (k : Nat) (h : M.step s = .next t) :
    M.run (k + 1) s = M.run k t := by simp only [Host.Core.run, h]

theorem core_run_of_next {s t : State} (k : Nat) (h : step s = .next t) :
    Sys2Proof.core.run (k + 1) s = Sys2Proof.core.run k t := run_of_next Sys2Proof.core k h

/-- Two runs in a row are one run. -/
theorem core_run_add {s t : State} {k : Nat} (h : Sys2Proof.core.run k s = .next t) (j : Nat) :
    Sys2Proof.core.run (k + j) s = Sys2Proof.core.run j t := by
  have key : ∀ (M : Host.Core) (k : Nat) (s t : M.State), M.run k s = .next t → M.run (k + j) s = M.run j t := by
    intro M k
    induction k with
    | zero =>
      intro s t h
      simp only [Host.Core.run, Host.Outcome.next.injEq] at h
      subst h; simp
    | succ k ih =>
      intro s t h
      rw [show k + 1 + j = (k + j) + 1 by omega]
      simp only [Host.Core.run] at h ⊢
      split at h
      · exact ih _ _ h
      · cases h
      · cases h
  exact key Sys2Proof.core k s t h

/-! ### The windows of a pending command -/

theorem State.busyDests_of_decode {s : State} {i : Instr} (hb : s.busy = true) (hd : decodeCmd s.pend = some i) :
    s.busyDests = destWindows i s := by simp [State.busyDests, hb, hd]

theorem State.busySources_of_decode {s : State} {i : Instr} (hb : s.busy = true) (hd : decodeCmd s.pend = some i) :
    s.busySources = sourceWindows i s := by simp [State.busySources, hb, hd]

theorem State.busyDests_of_none {s : State} (h : s.busy = false ∨ decodeCmd s.pend = none) : s.busyDests = [] := by
  rcases h with h | h
  · simp [State.busyDests, h]
  · unfold State.busyDests; split
    · simp_all
    · rfl

theorem State.busySources_of_none {s : State} (h : s.busy = false ∨ decodeCmd s.pend = none) :
    s.busySources = [] := by
  rcases h with h | h
  · simp [State.busySources, h]
  · unfold State.busySources; split
    · simp_all
    · rfl

/-! ### Reset -/

theorem Memory.wf_abandon {bound draw : Nat} {m : Memory} (hm : Memory.wf m = true) (w : Window) :
    Memory.wf (Memory.abandon bound draw m w) = true :=
  forN_keeps (fun m => Memory.wf m = true) _ _ _ hm fun _ _ _ h => Memory.wf_write h _ _

theorem Memory.within_abandon {bound draw : Nat} {m : Memory} (hm : Memory.within bound m = true) (w : Window) :
    Memory.within bound (Memory.abandon bound draw m w) = true :=
  forN_keeps (fun m => Memory.within bound m = true) _ _ _ hm fun _ _ hi h => Memory.within_write h (by omega) _

/-- An abandoned window: its bytes in M are drawn, every other byte is as before (R282). -/
theorem Memory.read_abandon {bound draw : Nat} {m : Memory} (hm : Memory.wf m = true) (w : Window) (a : Nat) :
    Memory.read (Memory.abandon bound draw m w) a =
      if In w a ∧ a < bound then Config.drawnByte draw a else Memory.read m a := by
  have key : ∀ n, Memory.wf (forN n (fun i m => Memory.write m (w.base + i) (Config.drawnByte draw (w.base + i))) m) = true ∧
      Memory.read (forN n (fun i m => Memory.write m (w.base + i) (Config.drawnByte draw (w.base + i))) m) a =
        if w.base ≤ a ∧ a < w.base + n then Config.drawnByte draw a else Memory.read m a := by
    intro n
    induction n with
    | zero => refine ⟨hm, ?_⟩; rw [if_neg (by omega)]; rfl
    | succ n ih =>
      refine ⟨Memory.wf_write ih.1 _ _, ?_⟩
      rw [forN_succ, Memory.read_write ih.1, ih.2]
      by_cases h : a = w.base + n
      · subst h; simp
      · rw [if_neg h]; congr 1; simp; omega
  rw [Memory.abandon, (key _).2]
  congr 1
  simp only [In, eq_iff_iff]; omega

/-- What an abandoned command's windows leave: every byte of them in M is drawn, every other byte is as before (R282). -/
theorem Memory.read_foldl_abandon {bound draw : Nat} {m : Memory} (hm : Memory.wf m = true) (ws : List Window) (a : Nat) :
    Memory.wf (ws.foldl (Memory.abandon bound draw) m) = true ∧
    Memory.read (ws.foldl (Memory.abandon bound draw) m) a =
      if (∃ w ∈ ws, In w a) ∧ a < bound then Config.drawnByte draw a else Memory.read m a := by
  induction ws generalizing m with
  | nil => simp [hm]
  | cons w ws ih =>
    obtain ⟨h1, h2⟩ := ih (Memory.wf_abandon (bound := bound) (draw := draw) hm w)
    refine ⟨h1, ?_⟩
    rw [List.foldl_cons, h2, Memory.read_abandon hm]
    by_cases h : a < bound <;> by_cases h3 : In w a <;> by_cases h4 : ∃ w ∈ ws, In w a <;> simp [h, h3, h4]

end Sys2Proof.Machine
end

