-- ==== Sys2Proof/Laws/Lz.lean ====
section
/-! SUPPORT. What one move of an LZ_DECODE can do, that it always moves, and the two byte loops. -/

namespace Sys2Proof.Machine

open Sys2Proof.Claims

@[simp] theorem streamBits_length (m : Memory) (base pay i n : Nat) : (streamBits m base pay i n).length = n := by
  induction n generalizing i with
  | zero => rfl
  | succ n ih => simp [streamBits, ih]

theorem getElem_streamBits (m : Memory) (base pay i n j : Nat) (h : j < (streamBits m base pay i n).length) :
    (streamBits m base pay i n)[j] = streamBit m base pay (i + j) := by
  induction n generalizing i j with
  | zero => simp at h
  | succ n ih =>
    cases j with
    | zero => rfl
    | succ j =>
      have h' : j < (streamBits m base pay (i + 1) n).length := by simpa using h
      simp only [streamBits, List.getElem_cons_succ, ih (i + 1) j h']
      congr 1; omega

theorem streamBits_append (m : Memory) (base pay i n k : Nat) :
    streamBits m base pay i (n + k) = streamBits m base pay i n ++ streamBits m base pay (i + n) k := by
  induction n generalizing i with
  | zero => simp [streamBits]
  | succ n ih =>
    rw [show n + 1 + k = (n + k) + 1 by omega]
    simp only [streamBits, ih, List.cons_append]
    congr 3; omega

/-- The stream depends on the blob's bytes alone (R166). -/
theorem streamBits_congr {m m' : Memory} {base pay : Nat} (i n : Nat)
    (h : ∀ a, base + 8 ≤ a → a < base + 8 + pay → Memory.read m' a = Memory.read m a) (hn : i + n ≤ 8 * pay) :
    streamBits m' base pay i n = streamBits m base pay i n := by
  induction n generalizing i with
  | zero => rfl
  | succ n ih =>
    simp only [streamBits]
    rw [ih (i + 1) (by omega)]
    congr 1
    unfold streamBit
    rw [h _ (by omega) (by omega)]

/-! ### The byte loops -/

/-- A literal run keeps the parameters of the decode, moves `w` down and `c` up, ends to its end or at a limit, and writes only
bytes it moves over (R168, R172). -/
theorem literalRun_frame (n : Nat) (x : LzCursor) (m : Memory) (hm : Memory.wf m = true) :
    ∃ j, j ≤ n ∧ j ≤ x.w ∧ 8 * j ≤ x.left ∧
      (literalRun n x m).cur = { x with c := x.c + 8 * j, w := x.w - j } ∧
      ((literalRun n x m).ok = true ↔ j = n) ∧ (j = n ∨ j = x.w ∨ x.left < 8 * (j + 1)) ∧
      Memory.wf (literalRun n x m).mem = true ∧
      ∀ a, ¬(x.dst + (x.w - j) ≤ a ∧ a < x.dst + x.w) → Memory.read (literalRun n x m).mem a = Memory.read m a := by
  induction n generalizing x m with
  | zero => exact ⟨0, by simp [literalRun, hm]⟩
  | succ n ih =>
    simp only [literalRun]
    split
    · exact ⟨0, by simp_all⟩
    · split
      · refine ⟨0, by omega, by omega, by omega, by simp, by simp, by omega, hm, fun _ _ => rfl⟩
      · rename_i h1 h2
        obtain ⟨j, hj, hw, hl, hc, ho, he, hwf, hr⟩ :=
          ih { x with c := x.c + 8, w := x.w - 1 }
            (Memory.write m (x.dst + (x.w - 1)) (BitVec.ofNat 8 (bitsVal (streamBits m x.base x.pay x.c 8))))
            (Memory.wf_write hm _ _)
        simp only [LzCursor.left] at hw hl he h1
        refine ⟨j + 1, by omega, by omega, by simp only [LzCursor.left]; omega, ?_, by rw [ho]; omega, ?_, hwf, ?_⟩
        · rw [hc]; simp only [LzCursor.mk.injEq, and_true, true_and]; omega
        · simp only [LzCursor.left]; omega
        · intro a ha
          rw [hr a (by simp only []; omega), Memory.read_write hm, if_neg (by omega)]

/-- A copy run keeps the parameters of the decode, moves `w` down, ends to its end or with the output full, and writes only bytes it
moves over (R168, R177). -/
theorem copyRun_frame (off n : Nat) (x : LzCursor) (m : Memory) (hm : Memory.wf m = true) :
    ∃ j, j = min n x.w ∧ (copyRun off n x m).cur = { x with w := x.w - j } ∧
      ((copyRun off n x m).ok = true ↔ j = n) ∧ Memory.wf (copyRun off n x m).mem = true ∧
      ∀ a, ¬(x.dst + (x.w - j) ≤ a ∧ a < x.dst + x.w) → Memory.read (copyRun off n x m).mem a = Memory.read m a := by
  induction n generalizing x m with
  | zero => exact ⟨0, by simp [copyRun, hm]⟩
  | succ n ih =>
    simp only [copyRun]
    split
    · refine ⟨0, by omega, by simp, by simp, hm, fun _ _ => rfl⟩
    · rename_i h1
      obtain ⟨j, hj, hc, ho, hwf, hr⟩ :=
        ih { x with w := x.w - 1 }
          (Memory.write m (x.dst + (x.w - 1)) (Memory.read m (x.dst + x.w + off))) (Memory.wf_write hm _ _)
      simp only [] at hj
      refine ⟨j + 1, by omega, ?_, by rw [ho]; omega, hwf, ?_⟩
      · rw [hc]; simp only [LzCursor.mk.injEq, and_true, true_and]; omega
      · intro a ha
        rw [hr a (by simp only []; omega), Memory.read_write hm, if_neg (by omega)]

/-- The byte loops move no cursor but `c` and `w`, whatever the form of M. -/
theorem literalRun_cur (n : Nat) (x : LzCursor) (m : Memory) :
    ∃ j, j ≤ x.w ∧ 8 * j ≤ x.left ∧ (literalRun n x m).cur = { x with c := x.c + 8 * j, w := x.w - j } := by
  induction n generalizing x m with
  | zero => exact ⟨0, by simp [literalRun]⟩
  | succ n ih =>
    simp only [literalRun]
    split
    · exact ⟨0, by simp⟩
    · split
      · exact ⟨0, by simp⟩
      · rename_i h1 h2
        obtain ⟨j, hw, hl, hc⟩ :=
          ih { x with c := x.c + 8, w := x.w - 1 }
            (Memory.write m (x.dst + (x.w - 1)) (BitVec.ofNat 8 (bitsVal (streamBits m x.base x.pay x.c 8))))
        simp only [LzCursor.left] at hw hl h1
        refine ⟨j + 1, by omega, by simp only [LzCursor.left]; omega, ?_⟩
        rw [hc]; simp only [LzCursor.mk.injEq, and_true, true_and]; omega

theorem copyRun_cur (off n : Nat) (x : LzCursor) (m : Memory) :
    ∃ j, j ≤ x.w ∧ (copyRun off n x m).cur = { x with w := x.w - j } := by
  induction n generalizing x m with
  | zero => exact ⟨0, by simp [copyRun]⟩
  | succ n ih =>
    simp only [copyRun]
    split
    · exact ⟨0, by simp⟩
    · rename_i h1
      obtain ⟨j, hw, hc⟩ :=
        ih { x with w := x.w - 1 } (Memory.write m (x.dst + (x.w - 1)) (Memory.read m (x.dst + x.w + off)))
      simp only [] at hw
      refine ⟨j + 1, by omega, ?_⟩
      rw [hc]; simp only [LzCursor.mk.injEq, and_true, true_and]; omega

theorem literalRun_within (n : Nat) (x : LzCursor) (m : Memory) {bound : Nat} (hm : Memory.within bound m = true)
    (hb : x.dst + x.w ≤ bound) : Memory.within bound (literalRun n x m).mem = true := by
  induction n generalizing x m with
  | zero => exact hm
  | succ n ih =>
    simp only [literalRun]
    split
    · exact hm
    · split
      · exact hm
      · exact ih _ _ (Memory.within_write hm (by omega) _) (by simp only []; omega)

theorem copyRun_within (off n : Nat) (x : LzCursor) (m : Memory) {bound : Nat} (hm : Memory.within bound m = true)
    (hb : x.dst + x.w ≤ bound) : Memory.within bound (copyRun off n x m).mem = true := by
  induction n generalizing x m with
  | zero => exact hm
  | succ n ih =>
    simp only [copyRun]
    split
    · exact hm
    · exact ih _ _ (Memory.within_write hm (by omega) _) (by simp only []; omega)

/-! ### One move -/

/-- The moves of an LZ_DECODE with the cursors `x` (R167, R170 to R177): the end, CorruptStream before any byte, or a code
of `n` bits with its byte loop. -/
inductive InflateMove (x : LzCursor) (s : State) : State → Prop where
  | finish (h : x.w = 0) : InflateMove x s (finishInflate x s)
  | corrupt (h : 0 < x.w) : InflateMove x s (s.raise .corruptStream)
  | literal (h : 0 < x.w) (n count : Nat) (hn : 0 < n) (hl : n ≤ x.left) :
      InflateMove x s (afterCode (literalRun count { x with c := x.c + n } s.mem) true s)
  | control (h : 0 < x.w) (hl : 1 ≤ x.left) :
      InflateMove x s { s with engine := .inflating { x with c := x.c + 1, atMatch := true } }
  | copy (h : 0 < x.w) (n len off : Nat) (hn : 0 < n) (hl : n ≤ x.left) (ho : x.w + off < x.len) :
      InflateMove x s (afterCode (copyRun off len { x with c := x.c + n } s.mem) false s)

theorem runMatch_inflating {s : State} {x : LzCursor} (he : s.engine = .inflating x) (bits len off : Nat) :
    runMatch bits len off s =
      if x.w + off < x.len then .next (afterCode (copyRun off len { x with c := x.c + bits } s.mem) false s)
      else .next (s.raise .corruptStream) := by simp [runMatch, he]

/-- Inside an LZ_DECODE a step answers with one of its moves. -/
theorem streamStep_inflating {s : State} {x : LzCursor} (he : s.engine = .inflating x) :
    ∃ t, streamStep s = .next t ∧ InflateMove x s t := by
  have hwants : s.wantsCode = decide (0 < x.w) := by simp [State.wantsCode, he]
  unfold streamStep
  rw [hwants]
  by_cases hw : 0 < x.w
  · simp only [hw, decide_true, if_true]
    have hc : s.codeAtCursor = x.next s.mem := by simp [State.codeAtCursor, he]
    rw [hc]
    have hlen : (x.bits s.mem).length = x.left := by simp [LzCursor.bits]
    have copyCase : ∀ (bits len off : Nat), 0 < bits → bits ≤ x.left →
        ∃ t, runMatch bits len off s = .next t ∧ InflateMove x s t := by
      intro bits len off hb hl
      rw [runMatch_inflating he]
      split
      · exact ⟨_, rfl, .copy hw _ _ _ hb hl ‹_›⟩
      · exact ⟨_, rfl, .corrupt hw⟩
    rcases hx : x.next s.mem with - | i
    · exact ⟨_, rfl, .corrupt hw⟩
    · simp only []
      simp only [LzCursor.next, LzCursor.place] at hx
      cases ha : x.atMatch
      · simp only [ha, Bool.false_eq_true, if_false, decodeAt, List.nil_append, Option.map_eq_some_iff] at hx
        obtain ⟨p, hp, rfl⟩ := hx
        have hl := decodeControl_length hp
        rw [hlen] at hl
        cases hb : x.bits s.mem with
        | nil => rw [hb] at hp; simp [decodeControl] at hp
        | cons b bits =>
          rw [hb] at hp
          cases b
          · simp only [decodeControl, Option.map_eq_some_iff] at hp
            obtain ⟨q, hq, rfl⟩ := hp
            simp only [execStream, execLzLit, he]
            have h1 := hl.1
            simp only [] at h1
            exact ⟨_, rfl, .literal hw _ _ hl.2 (by omega)⟩
          · simp only [decodeControl, Option.some.injEq] at hp
            subst hp
            simp only [execStream, execLzMatch, he]
            exact ⟨_, rfl, .control hw (by simp only [codeLength, encode, Code.streamBits, List.length_cons] at hl; omega)⟩
      · simp only [ha, if_true, decodeAt, List.nil_append, Option.map_eq_some_iff] at hx
        obtain ⟨p, hp, rfl⟩ := hx
        have hl := decodeMatch_length hp
        rw [hlen] at hl
        have hl' : codeLength p.1 ≤ x.left := by omega
        unfold decodeMatch at hp
        split at hp
        · simp only [Option.map_eq_some_iff] at hp
          obtain ⟨q, hq, rfl⟩ := hp
          exact copyCase _ _ _ hl.2 hl'
        · simp only [Option.map_eq_some_iff] at hp
          obtain ⟨q, hq, rfl⟩ := hp
          exact copyCase _ _ _ hl.2 hl'
        · simp only [Option.map_eq_some_iff] at hp
          obtain ⟨q, hq, rfl⟩ := hp
          exact copyCase _ _ _ hl.2 hl'
        · simp only [Option.bind_eq_some_iff, Option.map_eq_some_iff] at hp
          obtain ⟨q, hq, r, hr, rfl⟩ := hp
          exact copyCase _ _ _ hl.2 hl'
        · simp only [Option.bind_eq_some_iff, Option.map_eq_some_iff] at hp
          obtain ⟨q, hq, r, hr, rfl⟩ := hp
          exact copyCase _ _ _ hl.2 hl'
        · simp at hp
  · have : s.finish = finishInflate x s := by simp [State.finish, he]
    simp only [hw, decide_false, Bool.false_eq_true, if_false, this]
    exact ⟨_, rfl, .finish (by omega)⟩

/-- A move of an LZ_DECODE, named. -/
theorem inflateMove_of_step {s t : State} {x : LzCursor} (he : s.engine = .inflating x) (h : streamStep s = .next t) :
    InflateMove x s t := by
  obtain ⟨t', h', hm⟩ := streamStep_inflating he
  rw [h'] at h
  cases h
  exact hm

/-- The two ends of a code (R117, R170). -/
theorem afterCode_cases (r : Written) (b : Bool) (s : State) :
    (r.ok = true ∧ afterCode r b s = { s with mem := r.mem, engine := .inflating { r.cur with atMatch := b } }) ∨
      (r.ok = false ∧ afterCode r b s = { s with mem := r.mem }.raise .corruptStream) := by
  unfold afterCode
  cases r.ok <;> simp

theorem afterCode_mem (r : Written) (b : Bool) (s : State) : (afterCode r b s).mem = r.mem := by
  obtain ⟨-, h⟩ | ⟨-, h⟩ := afterCode_cases r b s <;> exact congrArg State.mem h

theorem afterCode_frame (r : Written) (b : Bool) (s : State) :
    Untouched s (afterCode r b s) ∧ SameRle s (afterCode r b s) ∧ (afterCode r b s).lzSig = s.lzSig := by
  obtain ⟨-, h⟩ | ⟨-, h⟩ := afterCode_cases r b s <;> rw [h] <;>
    exact ⟨⟨rfl, rfl, rfl, rfl, rfl, rfl, rfl, rfl, rfl, rfl⟩, ⟨rfl, rfl, rfl, rfl, rfl, rfl⟩, rfl⟩

/-- A move of an LZ_DECODE leaves everything outside M, the cursors and the result registers alone. -/
theorem InflateMove.frame {x : LzCursor} {s t : State} (h : InflateMove x s t) :
    Untouched s t ∧ SameRle s t ∧ t.lzSig = s.lzSig := by
  have same : ∀ t : State, (t = finishInflate x s ∨ t = s.raise .corruptStream ∨
      t = { s with engine := .inflating { x with c := x.c + 1, atMatch := true } }) →
      Untouched s t ∧ SameRle s t ∧ t.lzSig = s.lzSig := by
    rintro t (rfl | rfl | rfl) <;>
      exact ⟨⟨rfl, rfl, rfl, rfl, rfl, rfl, rfl, rfl, rfl, rfl⟩, ⟨rfl, rfl, rfl, rfl, rfl, rfl⟩, rfl⟩
  cases h with
  | finish h => exact same _ (.inl rfl)
  | corrupt h => exact same _ (.inr (.inl rfl))
  | control h hl => exact same _ (.inr (.inr rfl))
  | literal h n count hn hl => exact afterCode_frame _ _ _
  | copy h n len off hn hl ho => exact afterCode_frame _ _ _

/-- After a move either the command has completed, with a code that is not BadCommand, or it goes on with less of the
payload. -/
theorem InflateMove.goes_on {x : LzCursor} {s t : State} (h : InflateMove x s t) :
    (t.engine = .idle ∧ t.busy = false ∧ t.done = true ∧ t.err ≠ .badCommand) ∨
      ∃ y : LzCursor, t.engine = .inflating y ∧ y.base = x.base ∧ y.pay = x.pay ∧ y.dst = x.dst ∧ y.len = x.len ∧
        y.skip = x.skip ∧ y.tab = x.tab ∧ y.w ≤ x.w ∧ x.c < y.c ∧ y.c ≤ 8 * x.pay ∧ t.busy = s.busy ∧
        t.done = s.done := by
  have after : ∀ (r : Written) (b : Bool) (n j : Nat), 0 < n → n ≤ x.left → 8 * j ≤ x.left - n →
      r.cur = { x with c := x.c + n + 8 * j, w := r.cur.w } → r.cur.w ≤ x.w →
      ((afterCode r b s).engine = .idle ∧ (afterCode r b s).busy = false ∧ (afterCode r b s).done = true ∧
        (afterCode r b s).err ≠ .badCommand) ∨
      ∃ y : LzCursor, (afterCode r b s).engine = .inflating y ∧ y.base = x.base ∧ y.pay = x.pay ∧ y.dst = x.dst ∧
        y.len = x.len ∧ y.skip = x.skip ∧ y.tab = x.tab ∧ y.w ≤ x.w ∧ x.c < y.c ∧ y.c ≤ 8 * x.pay ∧
        (afterCode r b s).busy = s.busy ∧ (afterCode r b s).done = s.done := by
    intro r b n j hn hl hj hr hw
    simp only [LzCursor.left] at hl hj
    obtain ⟨-, h⟩ | ⟨-, h⟩ := afterCode_cases r b s <;> rw [h]
    · refine .inr ⟨_, rfl, ?_⟩
      have hc : r.cur.c = x.c + n + 8 * j := by rw [hr]
      refine ⟨by rw [hr], by rw [hr], by rw [hr], by rw [hr], by rw [hr], by rw [hr], hw, ?_, ?_, rfl, rfl⟩
      · rw [show ({ r.cur with atMatch := b } : LzCursor).c = r.cur.c from rfl, hc]; omega
      · rw [show ({ r.cur with atMatch := b } : LzCursor).c = r.cur.c from rfl, hc]; omega
    · exact .inl ⟨rfl, rfl, rfl, by simp⟩
  cases h with
  | finish h => exact .inl ⟨rfl, rfl, rfl, by simp [finishInflate]⟩
  | corrupt h => exact .inl ⟨rfl, rfl, rfl, by simp⟩
  | control h hl =>
    simp only [LzCursor.left] at hl
    exact .inr ⟨_, rfl, rfl, rfl, rfl, rfl, rfl, rfl, le_refl _, by simp only []; omega, by simp only []; omega, rfl, rfl⟩
  | literal h n count hn hl =>
    obtain ⟨j, hw, hj, hc⟩ := literalRun_cur count { x with c := x.c + n } s.mem
    simp only [LzCursor.left] at hw hj hl
    refine after _ _ n j hn hl (by simp only [LzCursor.left]; omega) (by rw [hc]) ?_
    rw [hc]; exact Nat.sub_le _ _
  | copy h n len off hn hl ho =>
    obtain ⟨j, hw, hc⟩ := copyRun_cur off len { x with c := x.c + n } s.mem
    refine after _ _ n 0 hn hl (by omega) (by rw [hc]; rfl) ?_
    rw [hc]; exact Nat.sub_le _ _

/-- A move of an LZ_DECODE keeps the form of M and writes no byte outside `[dst, dst + w)` (R121, R168). -/
theorem InflateMove.memory {x : LzCursor} {s t : State} (h : InflateMove x s t) (hm : Memory.wf s.mem = true) :
    Memory.wf t.mem = true ∧ ∀ a, ¬(x.dst ≤ a ∧ a < x.dst + x.w) → Memory.read t.mem a = Memory.read s.mem a := by
  cases h with
  | finish h => exact ⟨hm, fun _ _ => rfl⟩
  | corrupt h => exact ⟨hm, fun _ _ => rfl⟩
  | control h hl => exact ⟨hm, fun _ _ => rfl⟩
  | literal h n count hn hl =>
    obtain ⟨j, -, hw, -, -, -, -, hwf, hr⟩ := literalRun_frame count { x with c := x.c + n } s.mem hm
    rw [afterCode_mem]
    exact ⟨hwf, fun a ha => hr a fun h => ha ⟨by have := h.1; simp only [] at this hw; omega, h.2⟩⟩
  | copy h n len off hn hl ho =>
    obtain ⟨j, hw, -, -, hwf, hr⟩ := copyRun_frame off len { x with c := x.c + n } s.mem hm
    rw [afterCode_mem]
    exact ⟨hwf, fun a ha => hr a fun h => ha ⟨by have := h.1; simp only [] at this hw; omega, h.2⟩⟩

/-- A move of an LZ_DECODE lists no address outside M. -/
theorem InflateMove.within {x : LzCursor} {s t : State} (h : InflateMove x s t) {bound : Nat}
    (hm : Memory.within bound s.mem = true) (hb : x.dst + x.w ≤ bound) : Memory.within bound t.mem = true := by
  cases h with
  | finish h => exact hm
  | corrupt h => exact hm
  | control h hl => exact hm
  | literal h n count hn hl => rw [afterCode_mem]; exact literalRun_within _ _ _ hm hb
  | copy h n len off hn hl ho => rw [afterCode_mem]; exact copyRun_within _ _ _ _ hm hb

end Sys2Proof.Machine
end

