-- ==== Sys2Proof/Laws/PerInstr.lean ====
section
/-! SUPPORT. The per-instruction family `CodeTakesRoom`: a stream code takes at least one bit of the LZ stream, so the loop
of LZ_DECODE ends. -/

namespace Sys2Proof.Laws.CodeTakesRoom

/-- The code of the instruction is a word, a byte, or at least one bit. -/
def Statement (i : Instr) : Prop := (∃ w, encode i = .word w) ∨ (∃ b, encode i = .byte b) ∨ 0 < codeLength i

theorem rleOpen : Statement .rleOpen := .inl ⟨_, rfl⟩
theorem rleRead : Statement .rleRead := .inl ⟨_, rfl⟩
theorem lzDecode : Statement .lzDecode := .inl ⟨_, rfl⟩
theorem planarUnpack : Statement .planarUnpack := .inl ⟨_, rfl⟩
theorem planarRes : Statement .planarRes := .inl ⟨_, rfl⟩
theorem fieldSplit : Statement .fieldSplit := .inl ⟨_, rfl⟩
theorem maskBuild : Statement .maskBuild := .inl ⟨_, rfl⟩
theorem rleLit (n : BitVec 7) : Statement (.rleLit n) := .inr (.inl ⟨_, rfl⟩)
theorem rleNop : Statement .rleNop := .inr (.inl ⟨_, rfl⟩)
theorem rleRep (n : BitVec 7) : Statement (.rleRep n) := .inr (.inl ⟨_, rfl⟩)
theorem lzLit (k : Nat) (g : BitVec 2) : Statement (.lzLit k g) := .inr (.inr (Nat.succ_pos _))
theorem lzMatch : Statement .lzMatch := .inr (.inr (Nat.succ_pos _))
theorem lzM0 (off : List Bool) : Statement (.lzM0 off) := .inr (.inr (Nat.succ_pos _))
theorem lzM1 (off : List Bool) : Statement (.lzM1 off) := .inr (.inr (Nat.succ_pos _))
theorem lzM2 (off : List Bool) : Statement (.lzM2 off) := .inr (.inr (Nat.succ_pos _))
theorem lzM3S (off : List Bool) (k : Nat) (g : BitVec 3) : Statement (.lzM3S off k g) := .inr (.inr (Nat.succ_pos _))
theorem lzM3L (off : List Bool) (k : Nat) (g : BitVec 3) : Statement (.lzM3L off k g) := .inr (.inr (Nat.succ_pos _))

end Sys2Proof.Laws.CodeTakesRoom
end

