-- ==== Sys2Proof/Laws/Rle.lean ====
section
/-! SUPPORT. What one move of an RLE_READ can do, and that it always moves. -/

namespace Sys2Proof.Machine

open Sys2Proof.Claims

/-- RLE_READ still wants a record (R133): bytes are requested and the source is not exhausted. -/
abbrev ReadCursor.wants (x : ReadCursor) (s : State) : Prop := x.produced < x.max ∧ s.rlePtr < s.rleEnd

/-- The moves of an RLE_READ with the cursors `x` (R133, R135 to R138, R141): the end, a no-op, a whole record of at most 128
bytes that takes `n` source bytes, or a truncated record. -/
inductive ReadMove (x : ReadCursor) (s : State) : State → Prop where
  | finish (h : ¬x.wants s) : ReadMove x s (finishRead x s)
  | nop (h : x.wants s) : ReadMove x s { s with rlePtr := s.rlePtr + 1 }
  | whole (h : x.wants s) (n : Nat) (rec : List Byte) (hn : 0 < n) (he : s.rlePtr + n ≤ s.rleEnd)
      (hr : rec.length ≤ 128) (h0 : 0 < rec.length) :
      ReadMove x s (deliver x rec { s with rlePtr := s.rlePtr + n })
  | truncated (h : x.wants s) : ReadMove x s (truncateRead x s)

theorem wantsCode_reading {s : State} {x : ReadCursor} (he : s.engine = .reading x) :
    s.wantsCode = true ↔ x.wants s := by
  simp [State.wantsCode, he, ReadCursor.wants]

/-- A control byte decodes to one of the three records. -/
theorem decodeRecord_cases (b : Byte) :
    (∃ n, decodeRecord b = .rleLit n) ∨ decodeRecord b = .rleNop ∨ (∃ n, decodeRecord b = .rleRep n ∧ n ≠ 0#7) := by
  unfold decodeRecord
  split
  · exact .inl ⟨_, rfl⟩
  · split
    · exact .inr (.inl rfl)
    · refine .inr (.inr ⟨_, rfl, ?_⟩)
      rename_i h1 h2
      revert h1 h2
      revert b
      decide

/-- Inside an RLE_READ a step answers with one of its moves. -/
theorem streamStep_reading {s : State} {x : ReadCursor} (he : s.engine = .reading x) :
    ∃ t, streamStep s = .next t ∧ ReadMove x s t := by
  unfold streamStep
  split
  · have hw := (wantsCode_reading he).1 ‹_›
    have hc : s.codeAtCursor = some (decodeRecord (Memory.read s.mem s.rlePtr)) := by simp [State.codeAtCursor, he]
    rw [hc]
    simp only []
    obtain ⟨n, hd⟩ | hd | ⟨n, hd, hn⟩ := decodeRecord_cases (Memory.read s.mem s.rlePtr) <;> rw [hd]
    · simp only [execStream, execRleLit, he]
      split
      · exact ⟨_, rfl, .truncated hw⟩
      · refine ⟨_, rfl, ?_⟩
        have := hw.2
        have hlt := n.isLt
        rw [show s.rlePtr + 1 + (n.toNat + 1) = s.rlePtr + (n.toNat + 2) by omega]
        exact .whole hw _ _ (by omega) (by omega) (by simp; omega) (by simp)
    · have h : execStream .rleNop s = .next { s with rlePtr := s.rlePtr + 1 } := by
        simp only [execStream, execRleNop, he]
      exact ⟨_, h, .nop hw⟩
    · simp only [execStream, execRleRep, he]
      have : 0 < n.toNat := by
        rcases Nat.eq_zero_or_pos n.toNat with h | h
        · exact absurd (BitVec.eq_of_toNat_eq (by simpa using h)) hn
        · exact h
      have hlt := n.isLt
      split
      · exact ⟨_, rfl, .truncated hw⟩
      · refine ⟨_, rfl, .whole hw 2 _ (by omega) (by omega) ?_ ?_⟩
        · rw [List.length_replicate]; omega
        · rw [List.length_replicate]; omega
  · refine ⟨_, rfl, ?_⟩
    have : s.finish = finishRead x s := by simp [State.finish, he]
    rw [this]
    exact .finish fun h => ‹¬_› ((wantsCode_reading he).2 h)

/-- A move of an RLE_READ, named. -/
theorem readMove_of_step {s t : State} {x : ReadCursor} (he : s.engine = .reading x) (h : streamStep s = .next t) :
    ReadMove x s t := by
  obtain ⟨t', h', hm⟩ := streamStep_reading he
  rw [h'] at h
  cases h
  exact hm

/-- A move of an RLE_READ leaves everything outside M, the unit's cursors and the result registers alone. -/
theorem ReadMove.frame {x : ReadCursor} {s t : State} (h : ReadMove x s t) :
    Untouched s t ∧ t.lzSig = s.lzSig ∧ t.rleBase = s.rleBase ∧ t.rleEnd = s.rleEnd ∧ t.rleValid = s.rleValid := by
  cases h <;> exact ⟨⟨rfl, rfl, rfl, rfl, rfl, rfl, rfl, rfl, rfl, rfl⟩, rfl, rfl, rfl, rfl⟩

/-- After a move either the command has completed, with a code that is not BadCommand, or it goes on over less of the
source. -/
theorem ReadMove.goes_on {x : ReadCursor} {s t : State} (he : s.engine = .reading x) (h : ReadMove x s t) :
    (t.engine = .idle ∧ t.busy = false ∧ t.done = true ∧ t.err ≠ .badCommand) ∨
      ∃ y : ReadCursor, t.engine = .reading y ∧ y.dst = x.dst ∧ y.max = x.max ∧
        t.rleEnd - t.rlePtr < s.rleEnd - s.rlePtr := by
  cases h with
  | finish h => exact .inl ⟨rfl, rfl, rfl, by simp [finishRead]⟩
  | nop h => exact .inr ⟨x, he, rfl, rfl, by have := h.2; simp only []; omega⟩
  | whole h n rec hn hp hr h0 => exact .inr ⟨_, rfl, rfl, rfl, by simp only [deliver_rleEnd, deliver_rlePtr]; omega⟩
  | truncated h => exact .inl ⟨rfl, rfl, rfl, by simp [truncateRead]⟩

/-- A move of an RLE_READ keeps the form of M and writes no byte outside the destination (R121). -/
theorem ReadMove.memory {x : ReadCursor} {s t : State} (h : ReadMove x s t) (hm : Memory.wf s.mem = true) :
    Memory.wf t.mem = true ∧
      ∀ a, ¬(x.dst + x.produced ≤ a ∧ a < x.dst + x.max) → Memory.read t.mem a = Memory.read s.mem a := by
  cases h with
  | finish h => exact ⟨hm, fun _ _ => rfl⟩
  | nop h => exact ⟨hm, fun _ _ => rfl⟩
  | truncated h => exact ⟨hm, fun _ _ => rfl⟩
  | whole h n rec hn hp hr h0 =>
    refine ⟨Memory.wf_writeList hm _ _, fun a ha => ?_⟩
    have := h.1
    simp only [deliver]
    rw [Memory.read_writeList_outside hm]
    simp only [List.length_take]
    omega

end Sys2Proof.Machine
end

