-- ==== Sys2Proof/Laws/Stream.lean ====
section
/-! SUPPORT. The run of a stream command: it ends, within its fuel, and what every move keeps the run keeps. -/

namespace Sys2Proof.Machine

open Sys2Proof.Claims

/-- How many moves a stream command can still make at most. -/
def State.movesLeft (s : State) : Nat :=
  match s.engine with
  | .idle => 0
  | .reading _ => s.rleEnd - s.rlePtr + 1
  | .inflating x => 8 * x.pay - x.c + 1

theorem movesLeft_reading {s : State} {x : ReadCursor} (he : s.engine = .reading x) :
    s.movesLeft = s.rleEnd - s.rlePtr + 1 := by simp [State.movesLeft, he]

theorem movesLeft_inflating {s : State} {x : LzCursor} (he : s.engine = .inflating x) :
    s.movesLeft = 8 * x.pay - x.c + 1 := by simp [State.movesLeft, he]

/-- In the middle of a command there is always a move; it ends the command or leaves fewer. -/
theorem streamStep_moves {s : State} (he : s.engine ≠ .idle) :
    ∃ t, streamStep s = .next t ∧
      ((t.engine = .idle ∧ t.busy = false ∧ t.done = true ∧ t.err ≠ .badCommand) ∨
        (t.engine ≠ .idle ∧ t.movesLeft < s.movesLeft)) := by
  rcases hx : s.engine with - | x | x
  · exact absurd hx he
  · obtain ⟨t, ht, hm⟩ := streamStep_reading hx
    refine ⟨t, ht, ?_⟩
    obtain h | ⟨y, hy, -, -, hlt⟩ := hm.goes_on hx
    · exact .inl h
    · refine .inr ⟨by simp [hy], ?_⟩
      rw [movesLeft_reading hy, movesLeft_reading hx]; omega
  · obtain ⟨t, ht, hm⟩ := streamStep_inflating hx
    refine ⟨t, ht, ?_⟩
    obtain h | ⟨y, hy, -, hp, -, -, -, -, -, hc, hl, -⟩ := hm.goes_on
    · exact .inl h
    · refine .inr ⟨by simp [hy], ?_⟩
      rw [movesLeft_inflating hy, movesLeft_inflating hx, hp]; omega

theorem runStream_idle {s : State} (he : s.engine = .idle) (fuel : Nat) : runStream fuel s = .next s := by
  cases fuel <;> simp [runStream, he]

/-- A run in the middle of a command makes its move and goes on. -/
theorem runStream_succ {s t : State} (he : s.engine ≠ .idle) (h : streamStep s = .next t) (fuel : Nat) :
    runStream (fuel + 1) s = runStream fuel t := by
  rw [runStream]
  split
  · exact absurd ‹_› he
  · simp [h]

/-- With fuel for every move, the run of a stream command ends it. -/
theorem runStream_ends {s : State} (he : s.engine ≠ .idle) {fuel : Nat} (hf : s.movesLeft ≤ fuel) :
    ∃ t, runStream fuel s = .next t ∧ t.engine = .idle ∧ t.busy = false ∧ t.done = true ∧ t.err ≠ .badCommand := by
  induction fuel generalizing s with
  | zero =>
    rcases hx : s.engine with - | x | x
    · exact absurd hx he
    · rw [movesLeft_reading hx] at hf; omega
    · rw [movesLeft_inflating hx] at hf; omega
  | succ fuel ih =>
    obtain ⟨t, ht, h⟩ := streamStep_moves he
    rw [runStream_succ he ht]
    obtain h | ⟨h1, h2⟩ := h
    · exact ⟨t, runStream_idle h.1 fuel, h⟩
    · exact ih h1 (by omega)

/-- What every move keeps, a run keeps. -/
theorem runStream_keeps (P : State → Prop) (hP : ∀ s t, s.engine ≠ .idle → streamStep s = .next t → P s → P t)
    {fuel : Nat} {s t : State} (h : runStream fuel s = .next t) (hs : P s) : P t := by
  induction fuel generalizing s with
  | zero =>
    simp only [runStream, Host.Outcome.next.injEq] at h
    exact h ▸ hs
  | succ fuel ih =>
    by_cases he : s.engine = .idle
    · rw [runStream_idle he] at h
      cases h; exact hs
    · obtain ⟨u, hu, -⟩ := streamStep_moves he
      rw [runStream_succ he hu] at h
      exact ih h (hP s u he hu hs)

/-- The run of a stream command is a run of single steps, each from inside the command (log 7). -/
theorem core_run_of_runStream {fuel : Nat} {s t : State} (h : runStream fuel s = .next t) :
    ∃ k, Sys2Proof.core.run k s = .next t ∧
      ∀ j, j < k → ∃ u : State, Sys2Proof.core.run j s = .next u ∧ u.engine ≠ .idle := by
  induction fuel generalizing s with
  | zero => exact ⟨0, h, fun j hj => absurd hj (Nat.not_lt_zero j)⟩
  | succ fuel ih =>
    by_cases he : s.engine = .idle
    · rw [runStream_idle he] at h
      exact ⟨0, h, fun j hj => absurd hj (Nat.not_lt_zero j)⟩
    · obtain ⟨u, hu, -⟩ := streamStep_moves he
      rw [runStream_succ he hu] at h
      obtain ⟨k, hk, hj⟩ := ih h
      have hs := (step_of_stream he).trans hu
      refine ⟨k + 1, by rw [core_run_of_next k hs, hk], fun j hjk => ?_⟩
      cases j with
      | zero => exact ⟨s, rfl, he⟩
      | succ j =>
        rw [core_run_of_next j hs]
        exact hj j (by omega)

/-- With fuel for every move, a stream command runs code by code to its end. -/
theorem codeByCode_of_fuel {s : State} (he : s.engine ≠ .idle) {fuel : Nat} (hf : s.movesLeft ≤ fuel) :
    ∃ t, runStream fuel s = .next t ∧ CodeByCode s t :=
  have ⟨t, ht, hi, _⟩ := runStream_ends he hf
  ⟨t, ht, hi, core_run_of_runStream ht⟩

end Sys2Proof.Machine
end

