-- ==== Sys2Proof/Laws/Units.lean ====
section
/-! SUPPORT. The memory operations of the PLANAR, SPLIT and MASK units: the form of M, the addresses they list, and the bytes
they leave alone. -/

namespace Sys2Proof.Machine

/-- A memory operation that stays inside `[lo, hi)`: it keeps the canonical form, lists nothing new outside the interval, and
changes no byte outside it. -/
structure Local (lo hi : Nat) (f : Memory → Memory) : Prop where
  wf : ∀ m, Memory.wf m = true → Memory.wf (f m) = true
  within : ∀ m bound, hi ≤ bound → Memory.within bound m = true → Memory.within bound (f m) = true
  outside : ∀ m, Memory.wf m = true → ∀ a, ¬(lo ≤ a ∧ a < hi) → Memory.read (f m) a = Memory.read m a

theorem Local.mono {lo hi lo' hi' : Nat} {f : Memory → Memory} (h : Local lo hi f) (h1 : lo' ≤ lo) (h2 : hi ≤ hi') :
    Local lo' hi' f :=
  ⟨h.wf, fun m b hb => h.within m b (by omega), fun m hm a ha => h.outside m hm a (by omega)⟩

theorem Local.forN {lo hi n : Nat} {f : Nat → Memory → Memory} (h : ∀ i, i < n → Local lo hi (f i)) :
    Local lo hi (forN n f) :=
  ⟨fun m hm => forN_keeps (fun m => Memory.wf m = true) n f m hm fun i y hi => (h i hi).wf y,
    fun m b hb hm => forN_keeps (fun m => Memory.within b m = true) n f m hm fun i y hi => (h i hi).within y b hb,
    fun m hm a ha =>
      (forN_keeps (fun m' => Memory.wf m' = true ∧ Memory.read m' a = Memory.read m a) n f m ⟨hm, rfl⟩ fun i y hi hy =>
        ⟨(h i hi).wf y hy.1, ((h i hi).outside y hy.1 a ha).trans hy.2⟩).2⟩

theorem local_writeList (a n : Nat) (f : Memory → List Byte) (hf : ∀ m, (f m).length ≤ n) :
    Local a (a + n) (fun m => Memory.writeList m a (f m)) :=
  ⟨fun m hm => Memory.wf_writeList hm _ _,
    fun m b hb hm => Memory.within_writeList hm _ _ (by have := hf m; omega),
    fun m hm b hb => Memory.read_writeList_outside hm _ _ _ (by have := hf m; omega)⟩

theorem local_orAt (a : Nat) (v : Byte) : Local a (a + 1) (fun m => Memory.orAt m a v) :=
  ⟨fun m hm => Memory.wf_write hm _ _, fun m b hb hm => Memory.within_write hm (by omega) _,
    fun m hm b hb => by rw [Memory.orAt, Memory.read_write hm, if_neg (by omega)]⟩

/-! ### PLANAR -/

@[simp] theorem planeBytes_length (m : Memory) (a ps planes : Nat) : (planeBytes m a ps planes).length = planes := by
  induction planes generalizing a with
  | zero => rfl
  | succ n ih => simp [planeBytes, ih]

theorem getElem?_planeBytes (m : Memory) (a ps planes p : Nat) :
    (planeBytes m a ps planes)[p]? = if p < planes then some (Memory.read m (a + p * ps)) else none := by
  induction planes generalizing a p with
  | zero => simp [planeBytes]
  | succ n ih =>
    cases p with
    | zero => simp [planeBytes]
    | succ p =>
      simp only [planeBytes, List.getElem?_cons_succ, ih, Nat.add_lt_add_iff_right]
      congr 3
      rw [Nat.succ_mul]; omega

@[simp] theorem columnPixels_length (q : List Byte) : (columnPixels q).length = 8 := rfl

theorem local_unpackFrame (src dst planes ps : Nat) :
    Local dst (dst + ps * 8) (unpackFrame src dst planes ps) := by
  refine Local.forN fun j hj => (local_writeList (dst + 8 * j) 8 (fun m => columnPixels (planeBytes m (src + j) ps planes))
    fun m => by simp).mono (by omega) (by omega)

/-- `Unpack` stays inside `[D, D + FC*PS*8)` (R202). -/
theorem local_unpack (src dst planes ps frames : Nat) :
    Local dst (dst + frames * ps * 8) (unpack src dst planes ps frames) := by
  refine Local.forN fun f hf => (local_unpackFrame _ (dst + f * ps * 8) planes ps).mono (by omega) ?_
  have : (f + 1) * ps ≤ frames * ps := Nat.mul_le_mul_right _ hf
  rw [Nat.succ_mul] at this
  omega

/-! ### SPLIT -/

/-- A pixel's three writes stay inside the three buffers (R221). -/
theorem splitPixel_keeps {cd md pd npix j : Nat} (b : Byte) (hj : j < npix) {m : Memory} (hm : Memory.wf m = true) :
    Memory.wf (splitPixel cd md pd b j m) = true ∧
      (∀ a, ¬(cd ≤ a ∧ a < cd + npix) → ¬(md ≤ a ∧ a < md + ceilDiv npix 4) → ¬(pd ≤ a ∧ a < pd + ceilDiv npix 8) →
        Memory.read (splitPixel cd md pd b j m) a = Memory.read m a) := by
  have h1 := local_orAt (cd + j) (colourField b)
  have h2 := local_orAt (md + j / 4) (maskField b j)
  have h3 := local_orAt (pd + j / 8) (pathField b j)
  refine ⟨h3.wf _ (h2.wf _ (h1.wf _ hm)), fun a ha hb hc => ?_⟩
  simp only [ceilDiv] at hb hc
  unfold splitPixel
  rw [h3.outside _ (h2.wf _ (h1.wf _ hm)) _ (by omega), h2.outside _ (h1.wf _ hm) _ (by omega),
    h1.outside _ hm _ (by omega)]

theorem splitPixel_within {cd md pd npix j bound : Nat} (b : Byte) (hj : j < npix) (h1 : cd + npix ≤ bound)
    (h2 : md + ceilDiv npix 4 ≤ bound) (h3 : pd + ceilDiv npix 8 ≤ bound) {m : Memory}
    (hm : Memory.within bound m = true) : Memory.within bound (splitPixel cd md pd b j m) = true := by
  simp only [ceilDiv] at h2 h3
  exact Memory.within_write (Memory.within_write (Memory.within_write hm (by omega) _) (by omega) _) (by omega) _

/-- FIELD_SPLIT's pixels stay inside the three buffers (R221). -/
theorem splitPixels_keeps {src count j0 cd md pd npix : Nat} (h : j0 + count ≤ npix) {m : Memory}
    (hm : Memory.wf m = true) :
    Memory.wf (splitPixels src count j0 cd md pd m) = true ∧
      (∀ a, ¬(cd ≤ a ∧ a < cd + npix) → ¬(md ≤ a ∧ a < md + ceilDiv npix 4) → ¬(pd ≤ a ∧ a < pd + ceilDiv npix 8) →
        Memory.read (splitPixels src count j0 cd md pd m) a = Memory.read m a) := by
  refine forN_keeps (fun m' => Memory.wf m' = true ∧ ∀ a, ¬(cd ≤ a ∧ a < cd + npix) →
    ¬(md ≤ a ∧ a < md + ceilDiv npix 4) → ¬(pd ≤ a ∧ a < pd + ceilDiv npix 8) → Memory.read m' a = Memory.read m a)
    _ _ _ ⟨hm, fun _ _ _ _ => rfl⟩ fun i y hi hy => ?_
  obtain ⟨h1, h2⟩ := splitPixel_keeps (cd := cd) (md := md) (pd := pd) (Memory.read y (src + i))
    (show j0 + i < npix by omega) hy.1
  exact ⟨h1, fun a ha hb hc => (h2 a ha hb hc).trans (hy.2 a ha hb hc)⟩

theorem splitPixels_within {src count j0 cd md pd npix bound : Nat} (h : j0 + count ≤ npix) (h1 : cd + npix ≤ bound)
    (h2 : md + ceilDiv npix 4 ≤ bound) (h3 : pd + ceilDiv npix 8 ≤ bound) {m : Memory}
    (hm : Memory.within bound m = true) : Memory.within bound (splitPixels src count j0 cd md pd m) = true :=
  forN_keeps (fun m => Memory.within bound m = true) _ _ _ hm fun i y hi hy =>
    splitPixel_within _ (show j0 + i < npix by omega) h1 h2 h3 hy

/-! ### MASK -/

@[simp] theorem maskRow_length (p0 p1 : List Byte) : (maskRow p0 p1).length = 2 * min p0.length p1.length := by
  induction p0 generalizing p1 with
  | nil => simp [maskRow]
  | cons a p0 ih =>
    cases p1 with
    | nil => simp [maskRow]
    | cons b p1 => simp only [maskRow, List.length_cons, ih]; omega

theorem local_maskScanline (src dst w r : Nat) :
    Local (dst + 2 * w * r) (dst + 2 * w * r + 2 * w) (maskScanline src dst w r) :=
  local_writeList (dst + 2 * w * r) (2 * w)
    (fun m => maskRow (Memory.readList m (src + 2 * w * r) w) (Memory.readList m (src + 2 * w * r + w) w))
    fun m => by simp

/-- MASK_BUILD's scanlines stay inside `[D, D + 2*W*ROWS)` (R238). -/
theorem local_maskRows (src dst rows w : Nat) : Local dst (dst + 2 * w * rows) (maskRows src dst rows w) := by
  refine Local.forN fun r hr => (local_maskScanline src dst w r).mono (by omega) ?_
  have : 2 * w * (r + 1) ≤ 2 * w * rows := Nat.mul_le_mul_left _ hr
  rw [Nat.mul_succ] at this
  omega

end Sys2Proof.Machine
end

