-- ==== Sys2Proof/Tests/Slice0.lean ====
section
/-! SUPPORT. The tests of the model, each against a word, an example or a vector of spec/, and a witness for every
obligation that has hypotheses. -/

namespace Sys2Proof.Tests

set_option maxRecDepth 4000

open Sys2Proof Sys2Proof.Machine Sys2Proof.Claims Sys2Proof.Reference

/-! ### Helpers -/

/-- The result is a next state with the property. -/
def ok (r : Result) (p : State → Bool) : Bool :=
  match r with
  | .next t => p t
  | _ => false

theorem exists_next {r : Result} {p : State → Bool} (h : ok r p = true) : ∃ t, r = .next t ∧ p t = true := by
  cases r with
  | next t => exact ⟨t, rfl, h⟩
  | fault _ => cases h
  | refused _ => cases h

/-- The latched arguments, in order; those not listed are 0. -/
def args (l : List Word) : Args :=
  ⟨l.getD 0 0, l.getD 1 0, l.getD 2 0, l.getD 3 0, l.getD 4 0, l.getD 5 0, l.getD 6 0, l.getD 7 0⟩

/-- A busy block with the command word `w` pending, `bytes` at `a` and 0 elsewhere. -/
def pending (w : Word) (l : List Word) (a : Nat) (bytes : List Byte) : State :=
  { State.reset with pend := w, larg := args l, busy := true, mem := Memory.writeList [] a bytes }

/-- An RLE_READ of the operands, over a stream open at 0x200 on the bytes. -/
def reading (l : List Word) (bytes : List Byte) : State :=
  { pending 0x02#32 l 0x200 bytes with
    rleValid := true, rleBase := 0x200, rlePtr := 0x200, rleEnd := 0x200 + bytes.length }

/-- An RLE_READ in flight at 0x200, of MAX bytes to 0x300. -/
def inRead (max : Nat) (bytes : List Byte) : State :=
  { reading [0x300#32, BitVec.ofNat 32 max] bytes with engine := .reading ⟨0x300, max, 0⟩ }

/-- The cursors of an LZ_DECODE of a blob at 0 to 0x100. -/
def cursor (pay len c w : Nat) (atMatch : Bool) : LzCursor :=
  { base := 0, pay := pay, dst := 0x100, len := len, skip := 0, tab := ⟨9#8, 10#8, 12#8, 12#8⟩, c := c, w := w,
    atMatch := atMatch }

/-- An LZ_DECODE in flight with those cursors: the payload at 8, and what is written of the output. -/
def inInflate (x : LzCursor) (payload out : List Byte) : State :=
  { pending 0x10#32 [0, 0, 0x100#32, 0] 8 payload with
    mem := Memory.writeList (Memory.writeList [] 8 payload) (0x100 + x.w) out
    engine := .inflating x }

/-- The blob of V-LZ2 of 95_test_vectors.md. -/
def blobLz2 : List Byte :=
  [0x50#8, 0x50#8, 0x32#8, 0x30#8, 0x09#8, 0x0A#8, 0x0C#8, 0x0C#8, 0x00#8, 0x28#8, 0x20#8, 0x00#8, 0x00#8, 0x04#8,
    0x01#8]

/-- An LZ_DECODE of a blob at 0 to 0x100. -/
def decoding (blob : List Byte) (cap : Nat) : State :=
  pending 0x10#32 [0, BitVec.ofNat 32 blob.length, 0x100#32, BitVec.ofNat 32 cap] 0 blob

/-- `n` bits. -/
def bitRun (n : Nat) : List Bool := List.replicate n false

/-! ### What WellFormed refuses -/

theorem test_wf_replicate_zero : (Instr.rleRep 0#7).wf = false := by decide
theorem test_wf_literal_group : (Instr.lzLit 0 3#2).wf = false := by decide
theorem test_wf_offset0_width : (Instr.lzM0 (bitRun 256)).wf = false ∧ (Instr.lzM0 (bitRun 255)).wf = true := by decide
theorem test_wf_offset1_width : (Instr.lzM1 (bitRun 256)).wf = false ∧ (Instr.lzM1 (bitRun 255)).wf = true := by decide
theorem test_wf_offset2_width : (Instr.lzM2 (bitRun 256)).wf = false ∧ (Instr.lzM2 (bitRun 255)).wf = true := by decide
theorem test_wf_short_offset : (Instr.lzM3S (bitRun 6) 0 0#3).wf = false := by decide
theorem test_wf_short_length_group : (Instr.lzM3S (bitRun 7) 0 7#3).wf = false := by decide
theorem test_wf_long_offset : (Instr.lzM3L (bitRun 256) 0 0#3).wf = false := by decide
theorem test_wf_long_length_group : (Instr.lzM3L (bitRun 7) 0 7#3).wf = false := by decide

/-! ### Words of R73, R79 and R85, written out bit by bit -/

theorem test_decode_rle_open : decodeCmd 0b00000000000000000000000000000001#32 = some .rleOpen := by decide
theorem test_decode_rle_read : decodeCmd 0b00000000000000000000000000000010#32 = some .rleRead := by decide
theorem test_decode_lz_decode : decodeCmd 0b00000000000000000000000000010000#32 = some .lzDecode := by decide
theorem test_decode_planar_unpack : decodeCmd 0b00000000000000000000000000100000#32 = some .planarUnpack := by decide
theorem test_decode_planar_res : decodeCmd 0b00000000000000000000000000100001#32 = some .planarRes := by decide
theorem test_decode_field_split : decodeCmd 0b00000000000000000000000000110000#32 = some .fieldSplit := by decide
theorem test_decode_mask_build : decodeCmd 0b00000000000000000000000001000000#32 = some .maskBuild := by decide

/-- V-CMD2, V-CMD3, V-CMD4. -/
theorem test_decode_illegal_words :
    decodeCmd 0x00000000#32 = none ∧ decodeCmd 0x00000003#32 = none ∧ decodeCmd 0x00000101#32 = none := by decide

theorem test_decode_literal_records :
    decodeRecord 0b00000000#8 = .rleLit 0#7 ∧ decodeRecord 0b01111111#8 = .rleLit 127#7 := by decide
theorem test_decode_noop_record : decodeRecord 0b10000000#8 = .rleNop := by decide
theorem test_decode_replicate_records :
    decodeRecord 0b10000001#8 = .rleRep 1#7 ∧ decodeRecord 0b11111111#8 = .rleRep 127#7 := by decide

/-- V-LZ1: 0, 2/2. -/
theorem test_decode_lz_lit : decodeControl [false, true, false] = some (.lzLit 0 2#2, []) := by decide
/-- V-LZ6: 0, 3/2, 3/2, 1/2. -/
theorem test_decode_lz_lit_groups :
    decodeControl [false, true, true, true, true, false, true] = some (.lzLit 2 1#2, []) := by decide
theorem test_decode_lz_match : decodeControl [true, false] = some (.lzMatch, [false]) := by decide
/-- V-LZ5: 0/2, 1/9. -/
theorem test_decode_lz_m0 :
    decodeMatch ⟨9#8, 10#8, 12#8, 12#8⟩ [false, false, false, false, false, false, false, false, false, false, true] =
      some (.lzM0 (bitRun 8 ++ [true]), []) := by decide
/-- V-LZ2: 1/2, 0/10. -/
theorem test_decode_lz_m1 :
    decodeMatch ⟨9#8, 10#8, 12#8, 12#8⟩ (false :: true :: bitRun 10) = some (.lzM1 (bitRun 10), []) := by decide
/-- V-LZ12: 2/2, 1/12. -/
theorem test_decode_lz_m2 :
    decodeMatch ⟨9#8, 10#8, 12#8, 12#8⟩ (true :: false :: (bitRun 11 ++ [true])) =
      some (.lzM2 (bitRun 11 ++ [true]), []) := by decide
/-- V-LZ4: 3/2, 0, 0/7, 7/3, 0/3. -/
theorem test_decode_lz_m3s :
    decodeMatch ⟨9#8, 10#8, 12#8, 12#8⟩
        (true :: true :: false :: (bitRun 7 ++ [true, true, true, false, false, false])) =
      some (.lzM3S (bitRun 7) 1 0#3, []) := by decide
/-- V-LZ3: 3/2, 1, 1/12, 1/3. -/
theorem test_decode_lz_m3l :
    decodeMatch ⟨9#8, 10#8, 12#8, 12#8⟩
        (true :: true :: true :: (bitRun 11 ++ [true] ++ [false, false, true])) =
      some (.lzM3L (bitRun 11 ++ [true]) 0 1#3, []) := by decide

/-! ### A table word is decoded, placed and run -/

theorem test_table_words :
    decodeTableWord 32 0x21 = some .planarRes ∧ decodeTableWord 32 0x22 = none ∧
      decodeTableWord 8 0x80 = some .rleNop ∧ decodeTableWord 8 0x81 = some (.rleRep 1#7) ∧
      decodeTableWord 1 0 = some (.lzLit 0 0#2) ∧ decodeTableWord 1 1 = some .lzMatch ∧
      decodeTableWord 4 0b1000 = some (.lzM0 [false, true]) ∧ decodeTableWord 2 0b01 = some (.lzM2 []) := by decide

theorem test_placed_command : ok (step (State.reset.withFetchWord 32 0x10)) (fun t => t.done && t.err == .corruptStream) = true := by
  decide
theorem test_placed_record :
    ok (step (State.reset.withFetchWord 8 0xFE)) (fun t => t.rlePtr == 2 && t.engine == .reading ⟨0x200, 128, 3⟩) = true := by
  decide
theorem test_placed_control_code :
    ok (step (State.reset.withFetchWord 1 1)) (fun t => match t.engine with | .inflating x => x.c == 1 && x.atMatch | _ => false) = true := by
  decide
theorem test_placed_match_code :
    ok (step (State.reset.withFetchWord 4 0b0010)) (fun t => match t.engine with | .inflating x => x.w == 21 && !x.atMatch | _ => false) = true := by
  decide

/-! ### Vectors of 95_test_vectors.md and examples of the rules, one step each -/

/-- R132's example: `RLE_OPEN 0x200, 5`. -/
theorem test_rle_open :
    ok (exec .rleOpen (pending 0x01#32 [0x200#32, 5#32] 0 []))
      (fun t => t.rlePtr == 0x200 && t.rleEnd == 0x205 && t.statusWord == 0x00000102#32) = true := by decide

/-- V-RLE7b: one read of the whole source. -/
theorem test_rle_read_whole :
    ok (exec .rleRead (reading [0x300#32, 7#32] [0xFE#8, 0x5A#8, 0x02#8, 0x41#8, 0x42#8, 0x43#8]))
      (fun t => Memory.readList t.mem 0x300 7 == [0x5A#8, 0x5A#8, 0x5A#8, 0x41#8, 0x42#8, 0x43#8, 0#8] &&
        t.statusWord == 0x00000302#32) = true := by decide

/-- V-RLE8: a truncated literal run. -/
theorem test_rle_read_truncated :
    ok (exec .rleRead (reading [0x300#32, 10#32] [0x01#8, 0x41#8, 0x42#8, 0x03#8, 0x43#8]))
      (fun t => t.result0 == 2#32 && t.rlePtr == 0x205 && t.statusWord == 0x0000070E#32) = true := by decide

/-- R135's example. -/
theorem test_rle_lit :
    ok (exec (.rleLit 2#7) (inRead 2 [0x02#8, 0x41#8, 0x42#8, 0x43#8]))
      (fun t => Memory.readList t.mem 0x300 3 == [0x41#8, 0x42#8, 0#8] && t.rem == [0x43#8]) = true := by decide

/-- R136's example: 0xFE then Z gives three. -/
theorem test_rle_rep :
    ok (exec (.rleRep 0x7E#7) (inRead 5 [0xFE#8, 0x5A#8]))
      (fun t => Memory.readList t.mem 0x300 4 == [0x5A#8, 0x5A#8, 0x5A#8, 0#8] && t.rlePtr == 0x202) = true := by decide

/-- R137: only the control byte is consumed. -/
theorem test_rle_nop :
    ok (exec .rleNop (inRead 5 [0x80#8, 0x01#8])) (fun t => t.rlePtr == 0x201 && t.rem == []) = true := by decide

/-- V-LZ1. -/
theorem test_lz_decode_literal :
    ok (exec .lzDecode (decoding
        [0x50#8, 0x50#8, 0x32#8, 0x30#8, 0x09#8, 0x0A#8, 0x0C#8, 0x0C#8, 0x82#8, 0x42#8, 0xC2#8, 0x40#8, 0x00#8, 0x00#8,
          0x03#8, 0x05#8] 3))
      (fun t => Memory.readList t.mem 0x100 3 == [0x41#8, 0x42#8, 0x43#8] &&
        [t.result0, t.result1, t.result2] == [3#32, 0#32, 5#32]) = true := by decide

/-- V-LZ9: 7 bits are left. -/
theorem test_lz_decode_leftover :
    ok (exec .lzDecode (decoding
        [0x50#8, 0x50#8, 0x32#8, 0x30#8, 0x09#8, 0x0A#8, 0x0C#8, 0x0C#8, 0xDA#8, 0x00#8, 0x33#8, 0x00#8, 0x00#8, 0x00#8,
          0x03#8, 0x03#8] 3))
      (fun t => Memory.readList t.mem 0x100 3 == [0x33#8, 0x33#8, 0x33#8] && t.result1 == 7#32) = true := by decide

/-- R171's corner case: groups 11 11 01 give 8 bytes. -/
theorem test_lz_lit :
    ok (exec (.lzLit 2 1#2) (inInflate (cursor 16 8 0 8 false) [] []))
      (fun t => t.engine == .inflating (cursor 16 8 71 0 true)) = true := by decide

/-- R174: the control bit alone is consumed. -/
theorem test_lz_match :
    ok (exec .lzMatch (inInflate (cursor 16 8 3 8 false) [] [])) (fun t => t.engine == .inflating (cursor 16 8 4 8 true)) =
      true := by decide

/-- R174, R177: length 2 at offset 1 over `61 62` gives `61 62 61 62`. -/
theorem test_lz_m0 :
    ok (exec (.lzM0 (bitRun 8 ++ [true])) (inInflate (cursor 16 8 0 6 true) [] [0x61#8, 0x62#8]))
      (fun t => Memory.readList t.mem 0x104 4 == [0x61#8, 0x62#8, 0x61#8, 0x62#8] &&
        t.engine == .inflating (cursor 16 8 11 4 false)) = true := by decide

/-- R177's example: with `[D+3] = 41` and w = 3, offset 0 and length 3 give `41 41 41 41`. -/
theorem test_lz_m1 :
    ok (exec (.lzM1 (bitRun 10)) (inInflate (cursor 16 4 0 3 true) [] [0x41#8]))
      (fun t => Memory.readList t.mem 0x100 4 == [0x41#8, 0x41#8, 0x41#8, 0x41#8]) = true := by decide

/-- The last token of V-LZ12. -/
theorem test_lz_m2 :
    ok (exec (.lzM2 (bitRun 11 ++ [true])) (inInflate (cursor 16 6 0 4 true) [] [0x61#8, 0x62#8]))
      (fun t => Memory.readList t.mem 0x100 6 == [0x61#8, 0x62#8, 0x61#8, 0x62#8, 0x61#8, 0x62#8]) = true := by decide

/-- The last token of V-LZ11. -/
theorem test_lz_m3s :
    ok (exec (.lzM3S (bitRun 6 ++ [true]) 0 0#3) (inInflate (cursor 16 7 0 5 true) [] [0x31#8, 0x32#8]))
      (fun t => Memory.readList t.mem 0x100 7 == [0x32#8, 0x31#8, 0x32#8, 0x31#8, 0x32#8, 0x31#8, 0x32#8]) = true := by decide

/-- The last token of V-LZ3. -/
theorem test_lz_m3l :
    ok (exec (.lzM3L (bitRun 11 ++ [true]) 0 1#3) (inInflate (cursor 16 8 0 6 true) [] [0x58#8, 0x59#8]))
      (fun t => Memory.readList t.mem 0x100 8 == [0x58#8, 0x59#8, 0x58#8, 0x59#8, 0x58#8, 0x59#8, 0x58#8, 0x59#8]) =
      true := by decide

/-- V-PL4. -/
theorem test_planar_unpack :
    ok (exec .planarUnpack (pending 0x20#32 [0x100#32, 0x200#32, 2#32, 2#32, 1#32, 16#32] 0x100
        [0xA5#8, 0x0F#8, 0x3C#8, 0xF0#8]))
      (fun t => Memory.readList t.mem 0x200 16 ==
        [1#8, 0#8, 3#8, 2#8, 2#8, 3#8, 0#8, 1#8, 2#8, 2#8, 2#8, 2#8, 1#8, 1#8, 1#8, 1#8]) = true := by decide

/-- V-PL9: nine planes. -/
theorem test_planar_unpack_planes :
    ok (exec .planarUnpack (pending 0x20#32 [0x100#32, 0x200#32, 9#32, 1#32, 1#32, 8#32] 0x100 [0x80#8]))
      (fun t => t.err == .badCommand && t.result0 == 0#32) = true := by decide

/-- V-PR2. -/
theorem test_planar_res :
    ok (exec .planarRes (pending 0x21#32 [0x100#32, 0x200#32, 1#32, 1#32, 16#32, 5#32] 0x100
        [0x02#8, 0x08#8, 0x01#8, 0xAA#8, 0x55#8]))
      (fun t => Memory.readList t.mem 0x200 16 ==
        [1#8, 0#8, 1#8, 0#8, 1#8, 0#8, 1#8, 0#8, 0#8, 1#8, 0#8, 1#8, 0#8, 1#8, 0#8, 1#8] &&
        [t.result0, t.result1, t.result2] == [16#32, 0x00020108#32, 1#32]) = true := by decide

/-- V-PR5. -/
theorem test_planar_res_short :
    ok (exec .planarRes (pending 0x21#32 [0x100#32, 0x200#32, 1#32, 0#32, 16#32, 3#32] 0x100 [0x08#8, 0x02#8, 0x80#8]))
      (fun t => t.err == .truncatedInput && t.result1 == 0#32) = true := by decide

/-- V-SP2. -/
theorem test_field_split :
    ok (exec .fieldSplit (pending 0x30#32 [0x100#32, 8#32, 0#32, 0x200#32, 0x300#32, 0x380#32, 8#32] 0x100
        [0x00#8, 0x1F#8, 0x20#8, 0x40#8, 0x60#8, 0x80#8, 0xFF#8, 0x9F#8]))
      (fun t => Memory.readList t.mem 0x200 8 == [0#8, 0x1F#8, 0#8, 0#8, 0#8, 0#8, 0x1F#8, 0x1F#8] &&
        Memory.readList t.mem 0x300 2 == [0x90#8, 0x33#8] && Memory.read t.mem 0x380 == 0xE0#8) = true := by decide

/-- V-SP3, its mask and path buffers. -/
theorem test_field_split_ors :
    ok (exec .fieldSplit
        { pending 0x30#32 [0x100#32, 3#32, 5#32, 0x200#32, 0x300#32, 0x380#32, 16#32] 0x100 [0xE2#8, 0x23#8, 0x81#8] with
          mem := [(0x100, 0xE2#8), (0x101, 0x23#8), (0x102, 0x81#8), (0x300, 0x01#8), (0x380, 0x01#8)] })
      (fun t => Memory.readList t.mem 0x300 4 == [0x01#8, 0x1C#8, 0#8, 0#8] &&
        Memory.readList t.mem 0x380 2 == [0xA1#8, 0#8]) = true := by decide

/-- V-MK5. -/
theorem test_mask_build :
    ok (exec .maskBuild (pending 0x40#32 [0x100#32, 0x200#32, 2#32, 2#32] 0x100
        [0xA5#8, 0x3C#8, 0x0F#8, 0xF0#8, 0x12#8, 0x34#8, 0x56#8, 0x78#8]))
      (fun t => Memory.readList t.mem 0x200 8 ==
        [0x11#8, 0xEE#8, 0xFA#8, 0x05#8, 0xC8#8, 0x38#8, 0xF8#8, 0x06#8]) = true := by decide

/-- V-MK6: in place. -/
theorem test_mask_build_in_place :
    ok (exec .maskBuild (pending 0x40#32 [0x100#32, 0x100#32, 1#32, 2#32] 0x100 [0xA5#8, 0x3C#8, 0x0F#8, 0xF0#8]))
      (fun t => Memory.readList t.mem 0x100 4 == [0x11#8, 0xEE#8, 0xFA#8, 0x05#8]) = true := by decide

/-! ### The host's side -/

/-- V-CMD1. -/
theorem test_read_id :
    ok (step { State.reset with turns := [.regRead 0 4] }) (fun t => t.regData == 0x42524C44#32) = true := by decide

/-- V-CMD6, the outcome in which the engine has not completed the first command. -/
theorem test_command_while_busy :
    ok (step { pending 0x01#32 [] 0 [] with turns := [.regWrite 4 4 0x02#32] })
      (fun t => t.cmdIgn && t.pend == 0x01#32) = true := by decide

/-- V-CMD7: RESULT0 ignores a write. -/
theorem test_write_result :
    ok (step { State.reset with turns := [.regWrite 0x30 4 5#32] }) (fun t => t.readReg 0x30 == 0#32) = true := by decide

/-- V-CMD9. -/
theorem test_write_argument :
    ok (step { State.reset with turns := [.regWrite 0x10 4 0x1234#32] }) (fun t => t.readReg 0x10 == 0x1234#32) = true := by
  decide

/-- V-CMD4: RSV is not 0. -/
theorem test_illegal_command :
    ok (step { pending 0x00000101#32 [] 0 [] with turns := [.engine] })
      (fun t => t.statusWord == 0x00000012#32 && !t.rleValid) = true := by decide

/-- R280: a reset keeps no stream. -/
theorem test_reset_closes_stream :
    ok (step { reading [] [0x41#8] with busy := false, turns := [.reset [(7, 9#8)]] })
      (fun t => !t.rleValid && t.rleEnd == 0 && t.mem == [(7, 9#8), (0x200, 0x41#8)]) = true := by decide

/-! ### Witnesses: the hypotheses of each obligation can be met together

A statement with several clauses has one for each. -/

theorem admitted_of {s : State} {vs ws : List Window}
    (h : ((vs ++ ws).all (Window.fits s.cfg.memBytes) && separate vs ws && !coversRegisters s.cfg (vs ++ ws)) = true) :
    Admitted s vs ws := by
  simp only [Bool.and_eq_true, Bool.not_eq_true'] at h
  exact ⟨fits_all_iff.1 h.1.1, separate_iff.1 h.1.2, coversRegisters_eq_false.1 h.2⟩

theorem apart_of {v w : Window} (h : Window.overlaps v w = false) : Apart v w := Window.overlaps_eq_false.1 h

theorem offRegisters_of {s : State} (ws : List Window) (h : s.cfg.regsInMem = false) : OffRegisters s ws := by
  simp [OffRegisters, h]

/-- Every place has a well-formed instruction. -/
theorem witness_DecodeInvertsEncode :
    (Instr.planarRes.wf = true ∧ fitsAt .command .planarRes = true) ∧
      ((Instr.rleRep 127#7).wf = true ∧ fitsAt .record (.rleRep 127#7) = true) ∧
      ((Instr.lzLit 3 2#2).wf = true ∧ fitsAt .control (.lzLit 3 2#2) = true) ∧
      ((Instr.lzM0 (bitRun 255)).wf = true ∧ fitsAt (.selector ⟨255#8, 0#8, 0#8, 0#8⟩) (.lzM0 (bitRun 255)) = true) ∧
      ((Instr.lzM1 []).wf = true ∧ fitsAt (.selector ⟨9#8, 0#8, 0#8, 0#8⟩) (.lzM1 []) = true) ∧
      ((Instr.lzM3S (bitRun 7) 2 6#3).wf = true ∧
        fitsAt (.selector ⟨0#8, 0#8, 0#8, 0#8⟩) (.lzM3S (bitRun 7) 2 6#3) = true) ∧
      ((Instr.lzM3L [true] 0 0#3).wf = true ∧ fitsAt (.selector ⟨0#8, 0#8, 0#8, 1#8⟩) (.lzM3L [true] 0 0#3) = true) := by
  decide

theorem witness_EncodeInvertsDecode :
    decodeAt .command (.word 0x40#32) [true] = some (.maskBuild, [true]) ∧
      decodeAt .record (.byte 0x81#8) [] = some (.rleRep 1#7, []) ∧
      decodeAt .control (.bits [false]) [true, false, true] = some (.lzLit 0 2#2, [true]) ∧
      decodeAt (.selector ⟨0#8, 0#8, 2#8, 0#8⟩) (.bits [true]) [false, true, true] =
        some (.lzM2 [true, true], []) := by decide

/-- The three clauses at the ends of their ranges. -/
theorem witness_ControlByteKinds :
    (0x7F#8 : Byte).toNat ≤ 127 ∧ (0x80#8 : Byte).toNat = 128 ∧ 129 ≤ (0x81#8 : Byte).toNat := by decide

theorem witness_RegisterReadReturnsWord : ∃ (s : State) (ts : List Turn) (off : Nat),
    s.engine = .idle ∧ s.turns = .regRead (s.cfg.regBase + off) 4 :: ts ∧ off < 0x100 ∧ off % 4 = 0 ∧
      s.rem.length ≤ 127 :=
  ⟨{ State.reset with turns := [.regRead 0xFC 4] }, [], 0xFC, by decide⟩

theorem witness_RegisterReadReturnsWord_word : (2 ^ 32 - 1 : Nat) < 2 ^ 32 := by decide

theorem witness_CommandWriteIsAccepted : ∃ (s : State) (ts : List Turn) (v : Word),
    s.engine = .idle ∧ s.turns = .regWrite (s.cfg.regBase + 0x04) 4 v :: ts ∧ s.busy = false :=
  ⟨{ State.reset with turns := [.regWrite 4 4 0xFF#32] }, [], 0xFF#32, by decide⟩

theorem witness_CommandWriteWhileBusyIsIgnored : ∃ (s : State) (ts : List Turn) (v : Word),
    s.engine = .idle ∧ s.turns = .regWrite (s.cfg.regBase + 0x04) 4 v :: ts ∧ s.busy = true :=
  ⟨{ State.reset with busy := true, turns := [.regWrite 4 4 0x01#32] }, [], 0x01#32, by decide⟩

theorem witness_ArgumentWriteSetsRegister : ∃ (s : State) (ts : List Turn) (i : Nat) (v : Word),
    s.engine = .idle ∧ i < 8 ∧ s.turns = .regWrite (s.cfg.regBase + (0x10 + 4 * i)) 4 v :: ts :=
  ⟨{ State.reset with turns := [.regWrite 0x2C 4 5#32] }, [], 7, 5#32, by decide⟩

/-- The offsets beside the argument registers, 0x0C and 0x30, and the last one, 0xFC. -/
theorem witness_OtherRegisterWritesAreIgnored : ∀ off ∈ [0x00, 0x08, 0x0C, 0x30, 0xFC], ∃ (s : State) (ts : List Turn) (v : Word),
    s.engine = .idle ∧ s.turns = .regWrite (s.cfg.regBase + off) 4 v :: ts ∧ off < 0x100 ∧ off % 4 = 0 ∧ off ≠ 0x04 ∧
      ¬(0x10 ≤ off ∧ off ≤ 0x2C) := by
  intro off h
  refine ⟨{ State.reset with turns := [.regWrite (0 + off) 4 5#32] }, [], 5#32, rfl, rfl, ?_⟩
  revert off
  decide

theorem witness_NarrowRegisterAccessIsRefused :
    (∃ (s : State) (ts : List Turn) (off width : Nat), s.engine = .idle ∧ off < 0x100 ∧ (width ≠ 4 ∨ off % 4 ≠ 0) ∧
      s.turns = .regRead (s.cfg.regBase + off) width :: ts) ∧
      ∃ (s : State) (ts : List Turn) (off width : Nat) (v : Word), s.engine = .idle ∧ off < 0x100 ∧
        (width ≠ 4 ∨ off % 4 ≠ 0) ∧ s.turns = .regWrite (s.cfg.regBase + off) width v :: ts :=
  ⟨⟨{ State.reset with turns := [.regRead 0xFC 2] }, [], 0xFC, 2, by decide⟩,
    ⟨{ State.reset with turns := [.regWrite 0xFF 4 1#32] }, [], 0xFF, 4, 1#32, by decide⟩⟩

/-- An RLE_READ of four bytes to 0x300 is pending over the source `[0x200, 0x202)`. -/
def busyRead (ts : List Turn) : State := { reading [0x300#32, 4#32] [0xFE#8, 0x5A#8] with turns := ts }

/-- A write of the last byte of the source, and a read of the last byte of the destination. -/
theorem witness_HostAccessToBusyWindowsFaults :
    (∃ (s : State) (ts : List Turn) (i : Instr) (a : Nat) (v : Byte), s.engine = .idle ∧ s.busy = true ∧
      decodeCmd s.pend = some i ∧ a < s.cfg.memBytes ∧ OffRegister s a ∧ s.turns = .poke a v :: ts ∧
      ∃ w ∈ sourceWindows i s ++ destWindows i s, In w a) ∧
      ∃ (s : State) (ts : List Turn) (i : Instr) (a : Nat), s.engine = .idle ∧ s.busy = true ∧
        decodeCmd s.pend = some i ∧ a < s.cfg.memBytes ∧ OffRegister s a ∧ s.turns = .peek a :: ts ∧
        ∃ w ∈ destWindows i s, In w a :=
  ⟨⟨busyRead [.poke 0x201 0#8], [], .rleRead, 0x201, 0#8, by decide⟩,
    ⟨busyRead [.peek 0x303], [], .rleRead, 0x303, by decide⟩⟩

/-- A read of the first byte after the destination, and a write of the last byte before the source. -/
theorem witness_HostAccessElsewhereRuns :
    (∃ (s : State) (ts : List Turn) (a : Nat), s.engine = .idle ∧ Memory.wf s.mem = true ∧ a < s.cfg.memBytes ∧
      OffRegister s a ∧ s.turns = .peek a :: ts ∧
      (s.busy = true → ∀ i, decodeCmd s.pend = some i → ∀ w ∈ destWindows i s, ¬In w a)) ∧
      ∃ (s : State) (ts : List Turn) (a : Nat) (v : Byte), s.engine = .idle ∧ Memory.wf s.mem = true ∧
        a < s.cfg.memBytes ∧ OffRegister s a ∧ s.turns = .poke a v :: ts ∧
        (s.busy = true → ∀ i, decodeCmd s.pend = some i → ∀ w ∈ sourceWindows i s ++ destWindows i s, ¬In w a) := by
  have hd : ∀ i, decodeCmd (busyRead []).pend = some i → i = .rleRead := fun i h => (Option.some.inj h).symm
  refine ⟨⟨busyRead [.peek 0x304], [], 0x304, rfl, by decide, by decide, by decide, rfl, fun _ i h => ?_⟩,
    ⟨busyRead [.poke 0x1FF 7#8], [], 0x1FF, 7#8, rfl, by decide, by decide, by decide, rfl, fun _ i h => ?_⟩⟩ <;>
    (obtain rfl := hd i h; decide)

theorem witness_CommandLineIssuesItsCommand :
    ∃ (s : State) (line : HostStmt) (op : Word) (vs : List Word) (ts : List Turn), s.engine = .idle ∧ s.busy = false ∧
      commandLine line = some (op, vs) ∧ s.turns = line.turns s.cfg ++ ts :=
  ⟨{ State.reset with turns := (HostStmt.fieldSplit 1 2 3 4 5 6 7).turns Config.atReset }, .fieldSplit 1 2 3 4 5 6 7,
    0x30#32, [1, 2, 3, 4, 5, 6, 7], [], by decide⟩

theorem witness_ResetClearsTheBlock : ∃ (s : State) (ts : List Turn) (left : List Host.Cell),
    s.engine = .idle ∧ s.turns = .reset left :: ts :=
  ⟨busyRead [.reset [(0, 1#8)]], [], [(0, 1#8)], by decide⟩

/-- An idle block, an undecodable pending word, and an abandoned RLE_READ. -/
theorem witness_ResetLeavesMemory :
    (∃ (s : State) (ts : List Turn), s.engine = .idle ∧ s.turns = .reset [] :: ts ∧ Memory.wf s.mem = true ∧
      s.busy = false) ∧
      (∃ (s : State) (ts : List Turn), s.engine = .idle ∧ s.turns = .reset [] :: ts ∧ Memory.wf s.mem = true ∧
        s.busy = true ∧ decodeCmd s.pend = none) ∧
      ∃ (s : State) (ts : List Turn) (i : Instr) (a : Nat), s.engine = .idle ∧ s.turns = .reset [] :: ts ∧
        Memory.wf s.mem = true ∧ s.busy = true ∧ decodeCmd s.pend = some i ∧ a < s.cfg.memBytes ∧
        ∃ w ∈ destWindows i s, In w a :=
  ⟨⟨{ State.reset with turns := [.reset []] }, [], rfl, rfl, State.wf_reset_mem, rfl⟩,
    ⟨{ pending 0x03#32 [] 0 [] with turns := [.reset []] }, [], by decide⟩,
    ⟨busyRead [.reset []], [], .rleRead, 0x303, by decide⟩⟩

theorem witness_StepRunsPendingCommand :
    (∃ (s : State) (ts : List Turn) (i : Instr), s.engine = .idle ∧ s.busy = true ∧ decodeCmd s.pend = some i ∧
      s.turns = .engine :: ts) ∧
      ∃ (s : State) (i : Instr), s.engine = .idle ∧ s.busy = true ∧ decodeCmd s.pend = some i ∧ s.turns = [] :=
  ⟨⟨busyRead [.engine], [], .rleRead, by decide⟩, ⟨busyRead [], .rleRead, by decide⟩⟩

/-- A record at RLE_PTR, and a code at a control and at a match position. -/
theorem witness_StepRunsStreamCode :
    (∃ (s : State) (x : ReadCursor), s.engine = .reading x ∧ x.produced < x.max ∧ s.rlePtr < s.rleEnd) ∧
      ∀ b, ∃ (s : State) (x : LzCursor) (i : Instr) (rest : List Bool), s.engine = .inflating x ∧ x.atMatch = b ∧ 0 < x.w ∧
        decodeAt (if x.atMatch then .selector x.tab else .control)
          (.bits (streamBits s.mem x.base x.pay x.c (8 * x.pay - x.c))) [] = some (i, rest) := by
  refine ⟨⟨inRead 1 [0xFE#8, 0x5A#8], ⟨0x300, 1, 0⟩, by decide⟩, fun b => ?_⟩
  cases b
  · exact ⟨inInflate (cursor 1 4 0 1 false) [] [], cursor 1 4 0 1 false, .lzLit 0 0#2, bitRun 5, by decide⟩
  · exact ⟨inInflate (cursor 2 4 0 1 true) [] [], cursor 2 4 0 1 true, .lzM0 (bitRun 9), bitRun 5, by decide⟩

theorem witness_EngineStepCompletes : ∃ (s : State) (ts : List Turn), s.engine = .idle ∧ s.busy = true ∧
    (s.turns = .engine :: ts ∨ s.turns = [] ∧ ts = []) ∧
    ∀ i, decodeCmd s.pend = some i → OffRegisters s (sourceWindows i s ++ destWindows i s) :=
  ⟨busyRead [.engine], [], rfl, rfl, .inl rfl, fun _ _ => offRegisters_of _ rfl⟩

/-- RSV not 0 beside a legal OP, and the OPs beside the last legal one. -/
theorem witness_IllegalWordIsBadCommand : ∀ w ∈ [0x00000101#32, 0x00000041#32, 0x0000003F#32, 0x00000000#32],
    ∃ (s : State) (ts : List Turn), s.pend = w ∧ s.engine = .idle ∧ s.busy = true ∧ s.turns = .engine :: ts ∧
      (s.pend.toNat / 256 ≠ 0 ∨ s.pend.toNat % 256 ∉ [0x01, 0x02, 0x10, 0x20, 0x21, 0x30, 0x40]) := by
  intro w h
  have hw : w.toNat / 256 ≠ 0 ∨ w.toNat % 256 ∉ [0x01, 0x02, 0x10, 0x20, 0x21, 0x30, 0x40] := by
    simp only [List.mem_cons, List.not_mem_nil, or_false] at h
    obtain rfl | rfl | rfl | rfl := h <;> simp
  exact ⟨{ pending w [] 0 [] with turns := [.engine] }, [], rfl, rfl, rfl, rfl, hw⟩

/-- V-RLE16: the open of `[0xFFF, 0x1001)`; and a read whose destination meets its source. -/
theorem witness_WindowChecksAreBadCommand :
    (∃ (s : State) (i : Instr), i.isCommand = true ∧ OffRegisters s (sourceWindows i s ++ destWindows i s) ∧
      ¬InMemory s (sourceWindows i s ++ destWindows i s)) ∧
      ∃ (s : State) (i : Instr), i.isCommand = true ∧ OffRegisters s (sourceWindows i s ++ destWindows i s) ∧
        ¬NoOverlap (sourceWindows i s) (destWindows i s) ∧ (i = .maskBuild → s.operand 1 ≠ s.operand 0) :=
  ⟨⟨pending 0x01#32 [0xFFF#32, 2#32] 0 [], .rleOpen, rfl, offRegisters_of _ rfl, by decide⟩,
    ⟨reading [0x201#32, 1#32] [0xFE#8, 0x5A#8], .rleRead, rfl, offRegisters_of _ rfl,
      fun h => absurd (separate_iff.2 h) (by decide), fun h => nomatch h⟩⟩

/-- Each reason of each command. -/
theorem witness_IllegalOperandIsBadCommand :
    State.reset.rleValid = false ∧
      (pending 0x20#32 [] 0 []).operand 2 < 1 ∧
      8 < (pending 0x20#32 [0, 0, 9#32] 0 []).operand 2 ∧
      (pending 0x20#32 [0, 0, 1#32, 1#32, 1#32, 7#32] 0 []).operand 5 <
        (pending 0x20#32 [0, 0, 1#32, 1#32, 1#32, 7#32] 0 []).operand 4 *
          (pending 0x20#32 [0, 0, 1#32, 1#32, 1#32, 7#32] 0 []).operand 3 * 8 ∧
      (pending 0x21#32 [0, 0, 1#32, 2#32] 0 []).operand 3 / 2 ≠ 0 ∧
      (pending 0x30#32 [0, 3#32, 6#32, 0, 0, 0, 8#32] 0 []).operand 6 <
        (pending 0x30#32 [0, 3#32, 6#32, 0, 0, 0, 8#32] 0 []).operand 2 +
          (pending 0x30#32 [0, 3#32, 6#32, 0, 0, 0, 8#32] 0 []).operand 1 := by decide

/-- The register window at 0x200, inside M, under the source of a FIELD_SPLIT. -/
theorem witness_WindowOverRegistersFaults : ∃ (s : State) (i : Instr), i.isCommand = true ∧ operandsLegal i s = true ∧
    ¬OffRegisters s (sourceWindows i s ++ destWindows i s) :=
  ⟨{ pending 0x30#32 [0x2FF#32, 1#32, 0, 0x400#32, 0x500#32, 0x600#32, 1#32] 0 [] with
      cfg := { Config.atReset with regBase := 0x200, regsInMem := true } },
    .fieldSplit, by decide, by decide, fun h => absurd (coversRegisters_eq_false.2 h) (by decide)⟩

theorem witness_BadCommandHasNoEffect : ∃ (s t : State) (i : Instr),
    i.isCommand = true ∧ exec i s = .next t ∧ t.err = .badCommand :=
  have ⟨t, h, he⟩ := exists_next (r := exec .rleRead State.reset) (p := fun t => t.err == .badCommand) (by decide)
  ⟨State.reset, t, .rleRead, rfl, h, by simpa using he⟩

/-- Each command has a next state. -/
theorem witness_CommandsWriteOnlyDestinations :
    ∀ i ∈ [Instr.rleOpen, .rleRead, .lzDecode, .planarUnpack, .planarRes, .fieldSplit, .maskBuild],
      ∃ s t : State, i.isCommand = true ∧ Memory.wf s.mem = true ∧ exec i s = .next t := by
  intro i hi
  have h : i.isCommand = true ∧ ok (exec i (busyRead [])) (fun _ => true) = true := by revert i; decide
  obtain ⟨t, ht, -⟩ := exists_next h.2
  exact ⟨busyRead [], t, h.1, by decide, ht⟩

theorem witness_CommandsKeepOtherUnits :
    ∀ i ∈ [Instr.rleOpen, .rleRead, .lzDecode, .planarUnpack, .planarRes, .fieldSplit, .maskBuild],
      ∃ s t : State, i.isCommand = true ∧ exec i s = .next t := fun i hi =>
  have ⟨s, t, h, _, ht⟩ := witness_CommandsWriteOnlyDestinations i hi
  ⟨s, t, h, ht⟩

/-- The end of M: `RLE_OPEN 0x1000, 0` of V-RLE16. -/
theorem witness_RleOpenOpensStream : ∃ s : State, Admitted s [⟨s.operand 0, s.operand 1⟩] [] :=
  ⟨pending 0x01#32 [0x1000#32, 0] 0 [], admitted_of (by decide)⟩

/-- V-RLE7: a replicate run, then a literal run; and V-RLE8 with the two bytes before its truncated end. -/
theorem witness_RleReadDeliversExpansions : ∀ whole : Bool, ∃ (s : State) (items : List RleItem) (cut : List Byte),
    cut.isEmpty = whole ∧
    Memory.wf s.mem = true ∧ s.rleValid = true ∧ s.rleBase ≤ s.rlePtr ∧ s.rlePtr ≤ s.rleEnd ∧ s.rem.length < 2 ^ 32 ∧
      Admitted s [⟨s.rleBase, s.rleEnd - s.rleBase⟩] [⟨s.operand 0, s.operand 1⟩] ∧
      items.all RleItem.valid = true ∧ unreadSource s = rleBytes items ++ cut ∧
      (cut = [] ∨ cutRecord cut = true ∧ s.operand 1 ≤ (s.rem ++ rleExpand items).length) := by
  intro whole
  cases whole
  · exact ⟨reading [0x300#32, 2#32] [0x01#8, 0x41#8, 0x42#8, 0x03#8, 0x43#8], [.lit [0x41#8, 0x42#8]], [0x03#8, 0x43#8],
      by decide, by decide, rfl, by decide, by decide, by decide, admitted_of (by decide), by decide, by decide, by decide⟩
  · exact ⟨reading [0x300#32, 4#32] [0xFE#8, 0x5A#8, 0x02#8, 0x41#8, 0x42#8, 0x43#8],
      [.rep 0x5A#8 3, .lit [0x41#8, 0x42#8, 0x43#8]], [], by decide, by decide, rfl, by decide, by decide, by decide,
      admitted_of (by decide), by decide, by decide, by decide⟩

/-- V-RLE8. -/
theorem witness_RleReadReportsTruncation : ∃ (s : State) (items : List RleItem) (cut : List Byte),
    Memory.wf s.mem = true ∧ s.rleValid = true ∧ s.rleBase ≤ s.rlePtr ∧ s.rlePtr ≤ s.rleEnd ∧
      Admitted s [⟨s.rleBase, s.rleEnd - s.rleBase⟩] [⟨s.operand 0, s.operand 1⟩] ∧
      items.all RleItem.valid = true ∧ cutRecord cut = true ∧ unreadSource s = rleBytes items ++ cut ∧
      (s.rem ++ rleExpand items).length < s.operand 1 :=
  ⟨reading [0x300#32, 3#32] [0x01#8, 0x41#8, 0x42#8, 0x03#8, 0x43#8], [.lit [0x41#8, 0x42#8]], [0x03#8, 0x43#8],
    by decide, rfl, by decide, by decide, admitted_of (by decide), by decide, by decide, by decide, by decide⟩

theorem witness_LiteralRecordExpands : ∃ (s : State) (x : ReadCursor) (n : BitVec 7),
    s.engine = .reading x ∧ s.rlePtr + 1 + (n.toNat + 1) ≤ s.rleEnd :=
  ⟨inRead 1 [0x01#8, 0x41#8, 0x42#8], ⟨0x300, 1, 0⟩, 1#7, by decide⟩

theorem witness_ReplicateRecordExpands : ∃ (s : State) (x : ReadCursor), s.engine = .reading x ∧ s.rlePtr + 1 < s.rleEnd :=
  ⟨inRead 1 [0xFF#8, 0x41#8], ⟨0x300, 1, 0⟩, by decide⟩

theorem witness_NoOpRecordIsSkipped : ∃ (s : State) (x : ReadCursor), s.engine = .reading x :=
  ⟨inRead 1 [0x80#8], ⟨0x300, 1, 0⟩, rfl⟩

/-- A literal run one byte short, and a replicate run with no byte. -/
theorem witness_CutRecordEndsRead :
    (∃ (s : State) (x : ReadCursor) (n : BitVec 7), s.engine = .reading x ∧ x.produced < 2 ^ 32 ∧ s.rem.length < 2 ^ 32 ∧
      s.rleEnd < s.rlePtr + 1 + (n.toNat + 1)) ∧
      ∃ (s : State) (x : ReadCursor), s.engine = .reading x ∧ x.produced < 2 ^ 32 ∧ s.rem.length < 2 ^ 32 ∧
        s.rleEnd ≤ s.rlePtr + 1 :=
  ⟨⟨inRead 9 [0x01#8, 0x41#8], ⟨0x300, 9, 0⟩, 1#7, by decide⟩, ⟨inRead 9 [0xFE#8], ⟨0x300, 9, 0⟩, by decide⟩⟩

/-- V-RLE7's source, read in 1, 1, 2 and in 4. -/
theorem witness_ChunkedReadsAgree : ∃ (s u : State) (dst : Nat) (sizes : List Nat),
    Memory.wf s.mem = true ∧ s.rleValid = true ∧ s.rleBase ≤ s.rlePtr ∧ s.rlePtr ≤ s.rleEnd ∧ dst + sizes.sum < 2 ^ 32 ∧
      Admitted s [⟨s.rleBase, s.rleEnd - s.rleBase⟩] [⟨dst, sizes.sum⟩] ∧
      exec .rleRead (readCall dst sizes.sum s) = .next u ∧ u.err = .none :=
  let s := reading [] [0xFE#8, 0x5A#8, 0x02#8, 0x41#8, 0x42#8, 0x43#8]
  have ⟨u, h, he⟩ := exists_next (r := exec .rleRead (readCall 0x300 4 s)) (p := fun t => t.err == .none) (by decide)
  ⟨s, u, 0x300, [1, 1, 2], by decide, rfl, by decide, by decide, by decide, admitted_of (by decide), h, by simpa using he⟩

/-- V-RLE15. -/
theorem witness_RleRoundTrip : ∃ (s u : State) (items : List RleItem) (dst : Nat) (sizes : List Nat),
    Memory.wf s.mem = true ∧ items.all RleItem.valid = true ∧
      Memory.readList s.mem (s.operand 0) (s.operand 1) = rleBytes items ∧
      Admitted s [⟨s.operand 0, s.operand 1⟩] [⟨dst, sizes.sum⟩] ∧ dst + sizes.sum < 2 ^ 32 ∧
      (rleExpand items).length ≤ sizes.sum ∧ exec .rleOpen s = .next u :=
  let s := pending 0x01#32 [0x200#32, 6#32] 0x200 [0xFD#8, 0x10#8, 0x00#8, 0x20#8, 0xFF#8, 0x30#8]
  have ⟨u, h, _⟩ := exists_next (r := exec .rleOpen s) (p := fun _ => true) (by decide)
  ⟨s, u, [.rep 0x10#8 4, .lit [0x20#8], .rep 0x30#8 2], 0x300, [3, 4], by decide, by decide, by decide,
    admitted_of (by decide), by decide, by decide, h⟩

/-- E-LZ10, E-LZ4, E-LZ9, E-LZ2 and E-LZ12, and a blob of just four bytes. -/
theorem witness_LzOuterErrors :
    (∃ s : State, lzAdmitted s ∧ s.operand 1 < 4) ∧
      (∃ s : State, lzAdmitted s ∧ 4 ≤ s.operand 1 ∧ signature s ≠ s.cfg.sigSupported) ∧
      (∃ s : State, lzAdmitted s ∧ 4 ≤ s.operand 1 ∧ s.operand 1 < 12 ∧ signature s = s.cfg.sigSupported) ∧
      (∃ s : State, lzAdmitted s ∧ 12 ≤ s.operand 1 ∧ signature s = s.cfg.sigSupported ∧ s.operand 3 < declaredLength s) ∧
      ∃ s : State, lzAdmitted s ∧ 12 ≤ s.operand 1 ∧ signature s = s.cfg.sigSupported ∧
        declaredLength s ≤ s.operand 3 ∧ 8 * (s.operand 1 - 12) < declaredSkip s :=
  ⟨⟨decoding [0x50#8, 0x50#8, 0x32#8] 4, admitted_of (by decide), by decide⟩,
    ⟨decoding [0x50#8, 0x58#8, 0x32#8, 0x30#8] 4, admitted_of (by decide), by decide⟩,
    ⟨decoding [0x50#8, 0x50#8, 0x32#8, 0x30#8] 4, admitted_of (by decide), by decide⟩,
    ⟨decoding blobLz2 3, admitted_of (by decide), by decide⟩,
    ⟨decoding [0x50#8, 0x50#8, 0x32#8, 0x30#8, 9#8, 10#8, 12#8, 12#8, 0#8, 0#8, 0#8, 9#8] 0, admitted_of (by decide),
      by decide⟩⟩

/-- V-LZ2: a literal `A`, then three copies of it. -/
theorem witness_LzDecodeInvertsEncoding :
    ∃ (s : State) (items : List LzItem) (skipped rest : List Bool) (out : List Byte),
      Memory.wf s.mem = true ∧ lzAdmitted s ∧ 12 ≤ s.operand 1 ∧ signature s = s.cfg.sigSupported ∧
      declaredLength s ≤ s.operand 3 ∧
      streamBits s.mem (s.operand 0) (s.operand 1 - 12) 0 (8 * (s.operand 1 - 12)) =
        skipped ++ lzBits false items ++ rest ∧
      skipped.length = declaredSkip s ∧
      lzOutput (readWidths s.mem (s.operand 0 + 4)) false items [] = some out ∧ out.length = declaredLength s :=
  ⟨decoding blobLz2 4, [.literal [0x41#8], .copy (.lzM1 (bitRun 10))], [false], [],
    [0x41#8, 0x41#8, 0x41#8, 0x41#8], by decide, admitted_of (by decide), by decide, by decide, by decide, by decide,
    by decide, by decide, by decide⟩

theorem witness_LzWritesOnlyDeclaredLength : ∃ s t : State, Memory.wf s.mem = true ∧ exec .lzDecode s = .next t :=
  have ⟨t, h, _⟩ := exists_next (r := exec .lzDecode (decoding blobLz2 4)) (p := fun _ => true) (by decide)
  ⟨decoding blobLz2 4, t, by decide, h⟩

theorem inflating_of {s : State} {x : LzCursor} (h : s.engine = .inflating x) (h1 : x.w ≤ x.len) (h2 : x.c ≤ 8 * x.pay)
    (h3 : Window.overlaps ⟨x.base, 12 + x.pay⟩ ⟨x.dst, x.len⟩ = false) : Inflating s x := ⟨h, h1, h2, apart_of h3⟩

/-- Four literal bytes, with just the bits and the output they need. -/
theorem witness_LzLiteralWritesBytes : ∃ (s : State) (x : LzCursor) (k : Nat) (g : BitVec 2),
    Memory.wf s.mem = true ∧ Inflating s x ∧ 1 + 3 * k + g.toNat ≤ x.w ∧
      x.c + (1 + 2 * (k + 1)) + 8 * (1 + 3 * k + g.toNat) ≤ 8 * x.pay :=
  ⟨inInflate (cursor 5 4 3 4 false) [] [], cursor 5 4 3 4 false, 1, 0#2, by decide,
    inflating_of rfl (by decide) (by decide) (by decide), by decide, by decide⟩

theorem witness_LzMatchBitIsConsumed : ∃ (s : State) (x : LzCursor), s.engine = .inflating x :=
  ⟨inInflate (cursor 1 4 0 1 false) [] [], cursor 1 4 0 1 false, rfl⟩

/-- Each of the five codes, the last offset that R176 admits, and a match that fills the output. -/
theorem witness_LzMatchCopies :
    ∀ i ∈ [Instr.lzM0 (bitRun 9), .lzM1 (bitRun 10), .lzM2 (bitRun 12), .lzM3S (bitRun 7) 0 0#3, .lzM3L (bitRun 12) 0 0#3],
      ∃ (s : State) (x : LzCursor), Memory.wf s.mem = true ∧ Inflating s x ∧ fitsAt (.selector x.tab) i = true ∧
        x.w + matchOffset i < x.len ∧ matchLength i ≤ x.w := by
  intro i hi
  refine ⟨inInflate (cursor 16 6 0 5 true) [] [0x41#8], cursor 16 6 0 5 true, by decide,
    inflating_of rfl (by decide) (by decide) (by decide), ?_⟩
  revert i
  decide

/-- E-LZ11: nothing has been written yet. -/
theorem witness_LzBadOffsetIsCorrupt : ∃ (s : State) (x : LzCursor) (i : Instr),
    s.engine = .inflating x ∧ fitsAt (.selector x.tab) i = true ∧ x.len ≤ x.w + matchOffset i :=
  ⟨inInflate (cursor 2 2 0 2 true) [] [], cursor 2 2 0 2 true, .lzM0 (bitRun 9), by decide⟩

/-- A match of two with room for one. -/
theorem witness_LzOverlongMatchIsCorrupt : ∃ (s : State) (x : LzCursor) (i : Instr),
    Memory.wf s.mem = true ∧ Inflating s x ∧ fitsAt (.selector x.tab) i = true ∧ x.w + matchOffset i < x.len ∧
      x.w < matchLength i :=
  ⟨inInflate (cursor 2 2 0 1 true) [] [0x41#8], cursor 2 2 0 1 true, .lzM0 (bitRun 9), by decide,
    inflating_of rfl (by decide) (by decide) (by decide), by decide⟩

/-- Two literal bytes: with bits for one, and with output for one. -/
theorem witness_LzOverlongLiteralIsCorrupt :
    ∀ x ∈ [cursor 2 4 3 4 false, cursor 9 4 0 1 false], ∃ (s : State) (k : Nat) (g : BitVec 2),
      Memory.wf s.mem = true ∧ Inflating s x ∧ x.c + (1 + 2 * (k + 1)) ≤ 8 * x.pay ∧
        min ((8 * x.pay - (x.c + (1 + 2 * (k + 1)))) / 8) x.w < 1 + 3 * k + g.toNat := by
  intro x hx
  have h : x.w ≤ x.len ∧ x.c ≤ 8 * x.pay ∧ Window.overlaps ⟨x.base, 12 + x.pay⟩ ⟨x.dst, x.len⟩ = false ∧
      x.c + (1 + 2 * (0 + 1)) ≤ 8 * x.pay ∧
      min ((8 * x.pay - (x.c + (1 + 2 * (0 + 1)))) / 8) x.w < 1 + 3 * 0 + (1#2 : BitVec 2).toNat := by revert x; decide
  exact ⟨{ inInflate x [] [] with mem := [] }, 0, 1#2, rfl, inflating_of rfl h.1 h.2.1 h.2.2.1, h.2.2.2⟩

/-- No bit left at a control position, and one bit left of a selector. -/
theorem witness_LzExhaustedInputIsCorrupt :
    (∃ (s : State) (x : LzCursor) (i : Instr) (more : List Bool), s.engine = .inflating x ∧ 0 < x.w ∧ i.wf = true ∧
      fitsAt (if x.atMatch then .selector x.tab else .control) i = true ∧ more ≠ [] ∧
      streamBits s.mem x.base x.pay x.c (8 * x.pay - x.c) ++ more = (encode i).streamBits ∧ x.atMatch = false) ∧
      ∃ (s : State) (x : LzCursor) (i : Instr) (more : List Bool), s.engine = .inflating x ∧ 0 < x.w ∧ i.wf = true ∧
        fitsAt (if x.atMatch then .selector x.tab else .control) i = true ∧ more ≠ [] ∧
        streamBits s.mem x.base x.pay x.c (8 * x.pay - x.c) ++ more = (encode i).streamBits ∧ x.atMatch = true :=
  ⟨⟨inInflate (cursor 1 4 8 1 false) [] [], cursor 1 4 8 1 false, .lzMatch, [true], by decide⟩,
    ⟨inInflate (cursor 1 4 7 1 true) [] [], cursor 1 4 7 1 true, .lzM0 (bitRun 9), bitRun 10, by decide⟩⟩

/-- V-PL6: eight planes, an exact capacity. -/
theorem witness_PlanarUnpackSetsPixels : ∃ s : State,
    Memory.wf s.mem = true ∧ 1 ≤ s.operand 2 ∧ s.operand 2 ≤ 8 ∧ s.operand 4 * s.operand 3 * 8 ≤ s.operand 5 ∧
      Admitted s [⟨s.operand 0, s.operand 4 * s.operand 2 * s.operand 3⟩]
        [⟨s.operand 1, s.operand 4 * s.operand 3 * 8⟩] :=
  ⟨pending 0x20#32 [0x100#32, 0x200#32, 8#32, 1#32, 1#32, 8#32] 0x100 [0x80#8], by decide, by decide, by decide, by decide,
    admitted_of (by decide)⟩

/-- V-PR2 with its frame count, and V-PR1 without one. -/
theorem witness_PlanarResSetsPixels : ∀ flag, flag < 2 → ∃ (s : State) (h fc w ht : Nat),
    s.operand 3 = flag ∧ Memory.wf s.mem = true ∧ s.operand 3 / 2 = 0 ∧ 1 ≤ s.operand 2 ∧ s.operand 2 ≤ 8 ∧
      (s.operand 3 = 1 → h = 3 ∧ fc = (Memory.read s.mem (s.operand 0)).toNat ∧
        w = (Memory.read s.mem (s.operand 0 + 1)).toNat ∧ ht = (Memory.read s.mem (s.operand 0 + 2)).toNat) ∧
      (s.operand 3 = 0 → h = 2 ∧ fc = 1 ∧ w = (Memory.read s.mem (s.operand 0)).toNat ∧
        ht = (Memory.read s.mem (s.operand 0 + 1)).toNat) ∧
      w % 8 = 0 ∧ fc * (w / 8 * ht) * 8 ≤ s.operand 4 ∧ h + fc * s.operand 2 * (w / 8 * ht) ≤ s.operand 5 ∧
      Admitted s [⟨s.operand 0, s.operand 5⟩] [⟨s.operand 1, s.operand 4⟩] := by
  intro flag hf
  obtain rfl | rfl : flag = 0 ∨ flag = 1 := by omega
  · exact ⟨pending 0x21#32 [0x100#32, 0x200#32, 1#32, 0#32, 8#32, 3#32] 0x100 [0x08#8, 0x01#8, 0x80#8], 2, 1, 8, 1,
      by decide, by decide, by decide, by decide, by decide, by decide, by decide, by decide, by decide, by decide,
      admitted_of (by decide)⟩
  · exact ⟨pending 0x21#32 [0x100#32, 0x200#32, 1#32, 1#32, 16#32, 5#32] 0x100 [0x02#8, 0x08#8, 0x01#8, 0xAA#8, 0x55#8],
      3, 2, 8, 1, by decide, by decide, by decide, by decide, by decide, by decide, by decide, by decide, by decide,
      by decide, admitted_of (by decide)⟩

/-- The premises of PlanarResErrors, for a resource without a frame count. -/
def SingleImage (s : State) (w ht : Nat) : Prop :=
  s.operand 3 = 0 ∧ 1 ≤ s.operand 2 ∧ s.operand 2 ≤ 8 ∧ w = (Memory.read s.mem (s.operand 0)).toNat ∧
    ht = (Memory.read s.mem (s.operand 0 + 1)).toNat ∧
    Admitted s [⟨s.operand 0, s.operand 5⟩] [⟨s.operand 1, s.operand 4⟩]

/-- V-PR7, V-PR4, V-PR6 and V-PR5. -/
theorem witness_PlanarResErrors :
    (∃ (s : State) (w ht : Nat), SingleImage s w ht ∧ s.operand 5 < 2) ∧
      (∃ (s : State) (w ht : Nat), SingleImage s w ht ∧ 2 ≤ s.operand 5 ∧ w % 8 ≠ 0) ∧
      (∃ (s : State) (w ht : Nat), SingleImage s w ht ∧ 2 ≤ s.operand 5 ∧ w % 8 = 0 ∧ s.operand 4 < 1 * (w / 8 * ht) * 8) ∧
      ∃ (s : State) (w ht : Nat), SingleImage s w ht ∧ 2 ≤ s.operand 5 ∧ w % 8 = 0 ∧ 1 * (w / 8 * ht) * 8 ≤ s.operand 4 ∧
        s.operand 5 < 2 + 1 * s.operand 2 * (w / 8 * ht) :=
  ⟨⟨pending 0x21#32 [0x100#32, 0x200#32, 1#32, 0#32, 8#32, 1#32] 0x100 [0x08#8], 8, 0,
      ⟨by decide, by decide, by decide, by decide, by decide, admitted_of (by decide)⟩, by decide⟩,
    ⟨pending 0x21#32 [0x100#32, 0x200#32, 1#32, 0#32, 16#32, 3#32] 0x100 [0x0C#8, 0x01#8, 0x80#8], 12, 1,
      ⟨by decide, by decide, by decide, by decide, by decide, admitted_of (by decide)⟩, by decide⟩,
    ⟨pending 0x21#32 [0x100#32, 0x200#32, 1#32, 0#32, 7#32, 3#32] 0x100 [0x08#8, 0x01#8, 0x80#8], 8, 1,
      ⟨by decide, by decide, by decide, by decide, by decide, admitted_of (by decide)⟩, by decide⟩,
    ⟨pending 0x21#32 [0x100#32, 0x200#32, 1#32, 0#32, 16#32, 3#32] 0x100 [0x08#8, 0x02#8, 0x80#8], 8, 2,
      ⟨by decide, by decide, by decide, by decide, by decide, admitted_of (by decide)⟩, by decide⟩⟩

/-- V-SP7: the last pixels of the image. -/
theorem witness_FieldSplitOrsFields : ∃ s : State,
    Memory.wf s.mem = true ∧ s.operand 2 + s.operand 1 ≤ s.operand 6 ∧
      Admitted s [⟨s.operand 0, s.operand 1⟩]
        [⟨s.operand 3, s.operand 6⟩, ⟨s.operand 4, (s.operand 6 + 3) / 4⟩, ⟨s.operand 5, (s.operand 6 + 7) / 8⟩] :=
  ⟨pending 0x30#32 [0x100#32, 4#32, 4#32, 0x200#32, 0x300#32, 0x380#32, 8#32] 0x100 [0xA1#8, 0xC2#8, 0x63#8, 0x04#8],
    by decide, by decide, admitted_of (by decide)⟩

/-- V-SP6. -/
theorem witness_FieldSplitRepeatChangesNothing : ∃ s t u : State,
    Memory.wf s.mem = true ∧ exec .fieldSplit s = .next t ∧ exec .fieldSplit t = .next u ∧ t.err = .none := by
  let s := pending 0x30#32 [0x100#32, 1#32, 0, 0x200#32, 0x300#32, 0x380#32, 1#32] 0x100 [0xE5#8]
  obtain ⟨t, h, h1⟩ := exists_next (r := exec .fieldSplit s)
    (p := fun t => ok (exec .fieldSplit t) (fun _ => true) && t.err == .none) (by decide)
  simp only [Bool.and_eq_true, beq_iff_eq] at h1
  obtain ⟨u, h2, -⟩ := exists_next h1.1
  exact ⟨s, t, u, by decide, h, h2, h1.2⟩

/-- V-MK6 in place, and V-MK5 apart. -/
theorem witness_MaskBuildInterleaves :
    (∃ s : State, Memory.wf s.mem = true ∧
      InMemory s [⟨s.operand 0, 2 * s.operand 3 * s.operand 2⟩, ⟨s.operand 1, 2 * s.operand 3 * s.operand 2⟩] ∧
      OffRegisters s [⟨s.operand 0, 2 * s.operand 3 * s.operand 2⟩, ⟨s.operand 1, 2 * s.operand 3 * s.operand 2⟩] ∧
      s.operand 1 = s.operand 0) ∧
      ∃ s : State, Memory.wf s.mem = true ∧
        InMemory s [⟨s.operand 0, 2 * s.operand 3 * s.operand 2⟩, ⟨s.operand 1, 2 * s.operand 3 * s.operand 2⟩] ∧
        OffRegisters s [⟨s.operand 0, 2 * s.operand 3 * s.operand 2⟩, ⟨s.operand 1, 2 * s.operand 3 * s.operand 2⟩] ∧
        Apart ⟨s.operand 0, 2 * s.operand 3 * s.operand 2⟩ ⟨s.operand 1, 2 * s.operand 3 * s.operand 2⟩ ∧
        s.operand 1 ≠ s.operand 0 :=
  ⟨⟨pending 0x40#32 [0x100#32, 0x100#32, 1#32, 2#32] 0x100 [0xA5#8], by decide, by decide, offRegisters_of _ rfl,
      by decide⟩,
    ⟨pending 0x40#32 [0x100#32, 0x108#32, 2#32, 2#32] 0x100 [0xA5#8], by decide, by decide, offRegisters_of _ rfl,
      apart_of (by decide), by decide⟩⟩

theorem witness_CanonicalMemoryIsUnique : ∃ m m' : Memory,
    Memory.wf m = true ∧ Memory.wf m' = true ∧ (∀ a, Memory.read m a = Memory.read m' a) ∧ m ≠ [] :=
  ⟨[(3, 1#8)], [(3, 1#8)], by decide, by decide, fun _ => rfl, by decide⟩

/-- A busy block, whose next step completes its command. -/
theorem witness_StepKeepsInvariant : ∃ s t : State, s.Inv ∧ step s = .next t ∧ s.busy = true ∧ t.busy = false := by
  obtain ⟨t, h, h1⟩ := exists_next (r := step (busyRead [.engine])) (p := fun t => t.busy == false) (by decide)
  exact ⟨busyRead [.engine], t,
    ⟨by decide, by decide, by decide, by decide, by decide, by decide, by decide, trivial⟩, h, rfl, by simpa using h1⟩

theorem witness_StepEndsIdleAndKeepsParameters : ∃ s t : State, step s = .next t ∧ s.engine = .idle :=
  have ⟨u, hu, _⟩ := exists_next (r := step (busyRead [.engine])) (p := fun _ => true) (by decide)
  ⟨busyRead [.engine], u, hu, rfl⟩

/-- A pending RLE_READ, and V-LZ2 with an exact capacity. -/
theorem witness_CompletionIsItsCodesInOrder :
    (∃ s : State, s.rleValid = true ∧
      Admitted s [⟨s.rleBase, s.rleEnd - s.rleBase⟩] [⟨s.operand 0, s.operand 1⟩]) ∧
      ∃ s : State, lzAdmitted s ∧ 12 ≤ s.operand 1 ∧ signature s = s.cfg.sigSupported ∧
        declaredLength s ≤ s.operand 3 ∧ declaredSkip s ≤ 8 * (s.operand 1 - 12) :=
  ⟨⟨busyRead [], rfl, admitted_of (by decide)⟩, ⟨decoding blobLz2 4, admitted_of (by decide), by decide⟩⟩

end Sys2Proof.Tests
end

/-! The scope family: what one step can do, said once as a relation per kind of step, and what every step keeps: the
parameters, an idle engine, and the invariant. -/

namespace Sys2Proof.Machine

open Sys2Proof.Claims

/-! ### Words of M -/

/-- The bits of `x ++ y` are the digits of `x` over those of `y`. -/
theorem toNat_append_eq_add {n k : Nat} (x : BitVec n) (y : BitVec k) :
    (x ++ y).toNat = x.toNat * 2 ^ k + y.toNat := by
  rw [BitVec.toNat_append, ← Nat.shiftLeft_add_eq_or_of_lt y.isLt, Nat.shiftLeft_eq]

/-! ### What M must keep -/

/-- `m'` has the form of M and lies in M wherever `m` does. -/
structure Memory.FormKept (bound : Nat) (m m' : Memory) : Prop where
  wf : Memory.wf m = true → Memory.wf m' = true
  within : Memory.within bound m = true → Memory.within bound m' = true

theorem Memory.FormKept.refl (bound : Nat) (m : Memory) : Memory.FormKept bound m m := ⟨id, id⟩

theorem Memory.FormKept.write {bound a : Nat} (m : Memory) (ha : a < bound) (v : Byte) :
    Memory.FormKept bound m (Memory.write m a v) :=
  ⟨fun h => Memory.wf_write h a v, fun h => Memory.within_write h ha v⟩

theorem Memory.FormKept.writeList {bound a : Nat} (m : Memory) {bs : List Byte} (h : a + bs.length ≤ bound) :
    Memory.FormKept bound m (Memory.writeList m a bs) :=
  ⟨fun hm => Memory.wf_writeList hm a bs, fun hm => Memory.within_writeList hm a bs h⟩

/-- An operation that stays inside an interval of M keeps the form of M. -/
theorem Local.formKept {lo hi bound : Nat} {f : Memory → Memory} (h : Local lo hi f) (hb : hi ≤ bound) (m : Memory) :
    Memory.FormKept bound m (f m) :=
  ⟨h.wf m, h.within m bound hb⟩

theorem Memory.FormKept.literalRun {bound : Nat} (count : Nat) (x : LzCursor) (m : Memory) (hb : x.dst + x.w ≤ bound) :
    Memory.FormKept bound m (literalRun count x m).mem :=
  ⟨fun hm => have ⟨_, _, _, _, _, _, _, hwf, _⟩ := literalRun_frame count x m hm; hwf,
    fun hm => literalRun_within count x m hm hb⟩

theorem Memory.FormKept.copyRun {bound : Nat} (off len : Nat) (x : LzCursor) (m : Memory) (hb : x.dst + x.w ≤ bound) :
    Memory.FormKept bound m (copyRun off len x m).mem :=
  ⟨fun hm => have ⟨_, _, _, _, hwf, _⟩ := copyRun_frame off len x m hm; hwf,
    fun hm => copyRun_within off len x m hm hb⟩

theorem Memory.FormKept.memAfterReset (s : State) (left : List Host.Cell) :
    Memory.FormKept s.cfg.memBytes s.mem (s.memAfterReset left) := by
  refine ⟨fun h => Memory.wf_overlay (Memory.read_foldl_abandon h _ 0).1 left, fun h => Memory.within_overlay ?_ left⟩
  generalize s.busyDests = ws
  generalize s.mem = m at h
  induction ws generalizing m with
  | nil => exact h
  | cons w ws ih => exact ih _ (Memory.within_abandon h w)

/-! ### What the completion of a command can do -/

/-- The completions of a pending command (R112): an end that writes M and at most LZ_SIG, an opened stream (R132), the run of
an RLE_READ from its first move (R133, R134), and the run of an LZ_DECODE from admitted cursors (R161, R169). -/
inductive CommandMove (s : State) : State → Prop where
  | ended (m : Memory) (sig : SigClass) (e : ErrKind) (r0 r1 r2 : Word) (hm : Memory.FormKept s.cfg.memBytes s.mem m) :
      CommandMove s ({ s with mem := m, lzSig := sig }.complete e r0 r1 r2)
  | opened (b n : Nat) (h : b + n ≤ s.cfg.memBytes) : CommandMove s ((s.openStream b n).complete .none 0 0 0)
  | read (t : State) (d n : Nat) (hv : s.rleValid = true) (hd : d + n ≤ s.cfg.memBytes)
      (ho : Window.overlaps s.rleSource ⟨d, n⟩ = false)
      (h : runStream (s.rleEnd - s.rlePtr + 1) (s.startRead d n) = .next t) : CommandMove s t
  | inflated (t : State) (sig : SigClass) (x : LzCursor) (hx : x.ok s)
      (h : runStream (8 * x.pay + 1) { s with lzSig := sig, engine := .inflating x } = .next t) : CommandMove s t

/-- A command that ends with an error leaves M alone. -/
theorem CommandMove.raise (s : State) (sig : SigClass) (e : ErrKind) :
    CommandMove s ({ s with lzSig := sig }.raise e) :=
  .ended s.mem sig e 0 0 0 (.refl _ _)

theorem decodeOp_isCommand {op : Byte} {i : Instr} (h : decodeOp op = some i) : i.isCommand = true := by
  unfold decodeOp at h
  split_ifs at h <;> cases h <;> rfl

/-- A command word decodes to a command (R72, R73). -/
theorem decodeCmd_isCommand {w : Word} {i : Instr} (h : decodeCmd w = some i) : i.isCommand = true := by
  unfold decodeCmd at h
  split at h
  · cases h
  · exact decodeOp_isCommand h

/-- A guarded command completes by one of its moves when its body does on admitted windows. -/
theorem CommandMove.of_guarded {i : Instr} {s t : State} {body : State → Result} (h : guarded i s body = .next t)
    (hbody : operandsLegal i s = true → InMemory s (sourceWindows i s ++ destWindows i s) →
      (inPlace i s = true ∨ NoOverlap (sourceWindows i s) (destWindows i s)) → body s = .next t → CommandMove s t) :
    CommandMove s t := by
  obtain hg | hg | ⟨hl, hw, hg⟩ := guarded_cases i s body <;> rw [hg] at h
  · cases h
  · cases h; exact .raise s s.lzSig .badCommand
  · obtain ⟨hm, ho⟩ := windowsAdmitted_iff.1 hw
    exact hbody hl hm ho h

/-- The cursors an LZ_DECODE of an admitted blob starts with, past the checks of R161 and the skip bits (R164, R169). -/
theorem lzStart_ok {s : State} {b n d cap : Nat} (hb : s.busy = true) (hn : ¬n < 12)
    (hcap : ¬cap < (lzStart s.mem b n d).len)
    (hskip : ¬(lzStart s.mem b n d).left < (lzStart s.mem b n d).skip.toNat)
    (hblob : b + n ≤ s.cfg.memBytes) (hdst : d + cap ≤ s.cfg.memBytes) :
    LzCursor.ok s
      { lzStart s.mem b n d with c := (lzStart s.mem b n d).c + (lzStart s.mem b n d).skip.toNat } := by
  have hlen : (lzStart s.mem b n d).len < 2 ^ 24 := BitVec.isLt _
  have hleft : (lzStart s.mem b n d).skip.toNat ≤ 8 * (n - 12) - 0 := Nat.le_of_not_lt hskip
  refine ⟨hb, ?_, le_refl (lzStart s.mem b n d).len, hlen, ?_, ?_⟩
  · show d + (lzStart s.mem b n d).len ≤ _
    omega
  · show 0 + (lzStart s.mem b n d).skip.toNat ≤ 8 * (n - 12)
    omega
  · show b + 12 + (n - 12) ≤ _
    omega

/-- The body of an LZ_DECODE on admitted windows (R161, R180). -/
theorem lzBody_move {s t : State} {b n d cap : Nat} (hb : s.busy = true) (hblob : b + n ≤ s.cfg.memBytes)
    (hdst : d + cap ≤ s.cfg.memBytes) (h : lzBody b n d cap s = .next t) : CommandMove s t := by
  simp only [lzBody, inflate] at h
  split_ifs at h with h4 hsig h12 hcap hskip
  · cases h; exact .raise s _ _
  · cases h; exact .raise s _ _
  · cases h; exact .raise s _ _
  · cases h; exact .raise s _ _
  · cases h; exact .raise s _ _
  · exact .inflated t _ _ (lzStart_ok hb h12 hcap hskip hblob hdst) h

/-! #### The seven commands, each on its admitted windows (R115, R116) -/

theorem execRleOpen_move {s t : State} (h : execRleOpen s = .next t) : CommandMove s t := by
  refine .of_guarded h fun _ hm _ h => ?_
  cases h
  exact .opened _ _ (hm ⟨s.operand 0, s.operand 1⟩ (by simp [sourceWindows]))

theorem execRleRead_move {s t : State} (h : execRleRead s = .next t) : CommandMove s t := by
  refine .of_guarded h fun hv hm ho h => ?_
  obtain hp | ho := ho
  · cases hp
  · exact .read t _ _ hv (hm ⟨s.operand 0, s.operand 1⟩ (by simp [destWindows]))
      (Window.overlaps_eq_false.2 (ho.1 _ (by simp [sourceWindows]) _ (by simp [destWindows]))) h

theorem execLzDecode_move {s t : State} (hb : s.busy = true) (h : execLzDecode s = .next t) : CommandMove s t :=
  .of_guarded h fun _ hm _ h =>
    lzBody_move hb (hm ⟨s.operand 0, s.operand 1⟩ (by simp [sourceWindows]))
      (hm ⟨s.operand 2, s.operand 3⟩ (by simp [destWindows])) h

theorem execPlanarUnpack_move {s t : State} (h : execPlanarUnpack s = .next t) : CommandMove s t := by
  refine .of_guarded h fun _ hm _ h => ?_
  have hd := hm ⟨s.operand 1, s.operand 4 * s.operand 3 * 8⟩ (by simp [destWindows])
  cases h
  exact .ended _ s.lzSig _ _ _ _ ((local_unpack _ _ _ _ _).formKept hd _)

theorem execPlanarRes_move {s t : State} (h : execPlanarRes s = .next t) : CommandMove s t := by
  refine .of_guarded h fun _ hm _ h => ?_
  simp only at h
  split_ifs at h with hshort hwidth hcap hcut
  · cases h; exact .raise s s.lzSig _
  · cases h; exact .raise s s.lzSig _
  · cases h; exact .raise s s.lzSig _
  · cases h; exact .raise s s.lzSig _
  · have hd : s.operand 1 + s.operand 4 ≤ s.cfg.memBytes := hm ⟨s.operand 1, s.operand 4⟩ (by simp [destWindows])
    cases h
    exact .ended _ s.lzSig _ _ _ _ ((local_unpack _ _ _ _ _).formKept (by omega) _)

theorem execFieldSplit_move {s t : State} (h : execFieldSplit s = .next t) : CommandMove s t := by
  refine .of_guarded h fun hl hm _ h => ?_
  have hpix : s.operand 2 + s.operand 1 ≤ s.operand 6 := by simpa [operandsLegal] using hl
  have hc := hm ⟨s.operand 3, s.operand 6⟩ (by simp [destWindows])
  have hk := hm ⟨s.operand 4, ceilDiv (s.operand 6) 4⟩ (by simp [destWindows])
  have hp := hm ⟨s.operand 5, ceilDiv (s.operand 6) 8⟩ (by simp [destWindows])
  cases h
  exact .ended _ s.lzSig _ _ _ _
    ⟨fun h => (splitPixels_keeps hpix h).1, fun h => splitPixels_within hpix hc hk hp h⟩

theorem execMaskBuild_move {s t : State} (h : execMaskBuild s = .next t) : CommandMove s t := by
  refine .of_guarded h fun _ hm _ h => ?_
  have hd := hm ⟨s.operand 1, 2 * s.operand 3 * s.operand 2⟩ (by simp [destWindows])
  cases h
  exact .ended _ s.lzSig _ _ _ _ ((local_maskRows _ _ _ _).formKept hd _)

/-- Every command word's completion is one of the moves. -/
theorem exec_command_move {i : Instr} {s t : State} (hi : i.isCommand = true) (hb : s.busy = true)
    (h : exec i s = .next t) : CommandMove s t := by
  cases i with
  | rleOpen => exact execRleOpen_move h
  | rleRead => exact execRleRead_move h
  | lzDecode => exact execLzDecode_move hb h
  | planarUnpack => exact execPlanarUnpack_move h
  | planarRes => exact execPlanarRes_move h
  | fieldSplit => exact execFieldSplit_move h
  | maskBuild => exact execMaskBuild_move h
  | rleLit | rleNop | rleRep | lzLit | lzMatch | lzM0 | lzM1 | lzM2 | lzM3S | lzM3L => cases hi

/-! ### What a turn can do -/

/-- The moves of one turn (R5): nothing, the completion of the pending command, or an access of the HOST (R119, R286) or a
reset (R280). -/
inductive TurnMove (s : State) : State → Prop where
  | stay : TurnMove s s
  | command (t : State) (hb : s.busy = true) (h : CommandMove s t) : TurnMove s t
  | regRead (v : Word) : TurnMove s { s with regData := v }
  | issue (v : Word) : TurnMove s (s.issue v)
  | setArgs (r : Args) : TurnMove s { s with arg := r }
  | peek (v : Byte) : TurnMove s { s with memData := v }
  | poke (a : Nat) (v : Byte) (ha : a < s.cfg.memBytes) : TurnMove s { s with mem := Memory.write s.mem a v }
  | reset (left : List Host.Cell) : TurnMove s (hostReset left s)

theorem engineTurn_move {s t : State} (h : engineTurn s = .next t) : TurnMove s t := by
  unfold engineTurn at h
  split at h
  · rename_i hb
    refine .command t hb ?_
    unfold completion at h
    split at h
    · exact exec_command_move (decodeCmd_isCommand ‹_›) hb h
    · cases h; exact .raise s s.lzSig .badCommand
  · cases h; exact .stay

theorem writeReg_move (s : State) (off : Nat) (v : Word) : TurnMove s (s.writeReg off v) := by
  unfold State.writeReg
  split
  · exact .issue v
  · split
    · exact .setArgs _
    · exact .stay

theorem hostPeek_move {s t : State} {a : Nat} (h : hostPeek a s = .next t) : TurnMove s t := by
  unfold hostPeek at h
  split_ifs at h
  cases h
  exact .peek _

theorem hostPoke_move {s t : State} {a : Nat} {v : Byte} (h : hostPoke a v s = .next t) : TurnMove s t := by
  unfold hostPoke at h
  split_ifs at h with _ hin
  cases h
  exact .poke a v (by omega)

theorem takeTurn_move {s t : State} {turn : Turn} (h : takeTurn turn s = .next t) : TurnMove s t := by
  cases turn with
  | engine => exact engineTurn_move h
  | regRead addr width =>
    simp only [takeTurn, hostRegRead] at h
    split at h <;> cases h
    exact .regRead _
  | regWrite addr width v =>
    simp only [takeTurn, hostRegWrite] at h
    split at h <;> cases h
    exact writeReg_move s _ v
  | peek a => exact hostPeek_move h
  | poke a v => exact hostPoke_move h
  | reset left => cases h; exact .reset left

/-- A step from an idle engine is a move of one turn, on the state with that turn taken off (log 6). -/
theorem step_idle_move {s t : State} (hi : s.engine = .idle) (h : step s = .next t) :
    ∃ ts, TurnMove { s with turns := ts } t := by
  rcases hts : s.turns with - | ⟨turn, ts⟩
  · rw [step_of_noTurn hi hts] at h
    exact ⟨s.turns, engineTurn_move h⟩
  · rw [step_of_turn hi hts] at h
    exact ⟨ts, takeTurn_move h⟩

/-! ### A step keeps the parameters, and an idle engine -/

theorem streamStep_cfg {s t : State} (he : s.engine ≠ .idle) (h : streamStep s = .next t) : t.cfg = s.cfg := by
  rcases hx : s.engine with - | x | x
  · exact absurd hx he
  · exact (readMove_of_step hx h).frame.1.cfg
  · exact (inflateMove_of_step hx h).frame.1.cfg

theorem runStream_cfg {fuel : Nat} {s t : State} (h : runStream fuel s = .next t) : t.cfg = s.cfg :=
  runStream_keeps (fun u => u.cfg = s.cfg) (fun _ _ he h hu => (streamStep_cfg he h).trans hu) h rfl

/-- A run with fuel for every move answers with an idle engine. -/
theorem runStream_idle_of_fuel {fuel : Nat} {s t : State} (he : s.engine ≠ .idle) (hf : s.movesLeft ≤ fuel)
    (h : runStream fuel s = .next t) : t.engine = .idle := by
  obtain ⟨u, hu, hi, -⟩ := runStream_ends he hf
  rw [hu] at h
  cases h
  exact hi

theorem CommandMove.cfg_and_idle {s t : State} (h : CommandMove s t) : t.cfg = s.cfg ∧ t.engine = .idle := by
  cases h with
  | ended => exact ⟨rfl, rfl⟩
  | opened => exact ⟨rfl, rfl⟩
  | read _ d n hv hd ho h =>
    refine ⟨(runStream_cfg h :), runStream_idle_of_fuel (by simp) ?_ h⟩
    rw [movesLeft_reading (State.startRead_engine s d n)]; rfl
  | inflated _ sig x hx h =>
    refine ⟨(runStream_cfg h :), runStream_idle_of_fuel (by simp) ?_ h⟩
    rw [movesLeft_inflating rfl]; omega

theorem State.issue_cfg (s : State) (v : Word) : (s.issue v).cfg = s.cfg := by
  unfold State.issue; split <;> rfl

theorem State.issue_engine (s : State) (v : Word) : (s.issue v).engine = s.engine := by
  unfold State.issue; split <;> rfl

theorem TurnMove.cfg_and_idle {s t : State} (h : TurnMove s t) (hi : s.engine = .idle) :
    t.cfg = s.cfg ∧ t.engine = .idle := by
  cases h with
  | command _ hb h => exact h.cfg_and_idle
  | issue v => exact ⟨s.issue_cfg v, (s.issue_engine v).trans hi⟩
  | reset => exact ⟨rfl, rfl⟩
  | stay | regRead | setArgs | peek | poke => exact ⟨rfl, hi⟩

/-- Settles O59: from an idle engine the step is a move of a turn, inside a command it is a move of the stream. -/
theorem stepEndsIdleAndKeepsParameters : Obligations.StepEndsIdleAndKeepsParameters := by
  intro s t h
  by_cases hi : s.engine = .idle
  · obtain ⟨ts, hmove⟩ := step_idle_move hi h
    obtain ⟨hcfg, hidle⟩ := hmove.cfg_and_idle hi
    exact ⟨hcfg, fun _ => hidle⟩
  · rw [step_of_stream hi] at h
    exact ⟨streamStep_cfg hi h, fun hi' => absurd hi' hi⟩

/-! ### A step keeps the invariant -/

/-- What the invariant says of the parameters, of M and of the RLE unit: all that is left of it at the end of a command. -/
structure State.Sound (s : State) : Prop where
  cfg : s.cfg.wf
  canonical : Memory.wf s.mem = true
  inside : Memory.within s.cfg.memBytes s.mem = true
  rle : s.rleOk

theorem State.Inv.sound {s : State} (h : s.Inv) : s.Sound := ⟨h.cfg, h.canonical, h.inside, h.rle⟩

theorem State.Sound.withMem {s : State} (h : s.Sound) {m : Memory} (hm : Memory.FormKept s.cfg.memBytes s.mem m)
    (sig : SigClass) : State.Sound { s with mem := m, lzSig := sig } :=
  { h with canonical := hm.wf h.canonical, inside := hm.within h.inside }

theorem State.engineOk_of_idle {s : State} (h : s.engine = .idle) : s.engineOk := by
  unfold State.engineOk; rw [h]; trivial

theorem State.engineOk_reading {s : State} {x : ReadCursor} (h : s.engine = .reading x) : s.engineOk ↔ x.ok s := by
  unfold State.engineOk; rw [h]

theorem State.engineOk_inflating {s : State} {x : LzCursor} (h : s.engine = .inflating x) : s.engineOk ↔ x.ok s := by
  unfold State.engineOk; rw [h]

/-- A completion leaves BUSY = 0 and DONE = 1, so the invariant asks no more than a sound state. -/
theorem State.Sound.complete {s : State} (h : s.Sound) (e : ErrKind) (r0 r1 r2 : Word) : (s.complete e r0 r1 r2).Inv where
  cfg := h.cfg
  canonical := h.canonical
  inside := h.inside
  busyDone := by simp
  errDone := by simp
  busyResults := by simp
  rle := h.rle
  engine := State.engineOk_of_idle rfl

/-! #### Inside an RLE_READ -/

/-- A whole record of at most 128 bytes, of which at least one is delivered, leaves at most 127 in REM, and leaves some
only when all of MAX is produced (R37, R139). -/
theorem deliver_keeps_inv {s : State} {x : ReadCursor} {rec : List Byte} {p : Nat} (h : s.Inv) (hx : x.ok s)
    (hwants : x.wants s) (hlo : s.rlePtr ≤ p) (hhi : p ≤ s.rleEnd) (hr : rec.length ≤ 128) (h0 : 0 < rec.length) :
    (deliver x rec { s with rlePtr := p }).Inv := by
  obtain ⟨hbusy, hvalid, hdst, hprod, -, hsep⟩ := hx
  obtain ⟨hbase, hptr, hend, -, -⟩ := h.rle
  have hleft : x.produced < x.max := hwants.1
  have hm : Memory.FormKept s.cfg.memBytes s.mem (deliver x rec { s with rlePtr := p }).mem :=
    .writeList s.mem (by rw [List.length_take]; omega)
  have hrem : (deliver x rec { s with rlePtr := p }).rem.length
      = rec.length - min rec.length (x.max - x.produced) := List.length_drop
  refine { h with
    canonical := hm.wf h.canonical
    inside := hm.within h.inside
    rle := ⟨hbase.trans hlo, hhi, hend, by omega, fun hv => absurd (hvalid.symm.trans hv) (by decide)⟩
    engine := ?_ }
  refine ⟨hbusy, hvalid, hdst, ?_, fun hne => ?_, hsep⟩
  · show x.produced + min rec.length (x.max - x.produced) ≤ x.max
    omega
  · have := List.length_pos_iff.2 hne
    show x.produced + min rec.length (x.max - x.produced) = x.max
    omega

/-- The source cut off inside a record: the pointer goes to its end (R141). -/
theorem truncateRead_keeps_inv {s : State} {x : ReadCursor} (h : s.Inv) (hv : s.rleValid = true) :
    (truncateRead x s).Inv := by
  obtain ⟨hbase, hptr, hend, hrem, -⟩ := h.rle
  have hsound : State.Sound { s with rlePtr := s.rleEnd, rleTrunc := true } :=
    { h.sound with
      rle := ⟨hbase.trans hptr, le_refl _, hend, hrem, fun hv' => absurd (hv.symm.trans hv') (by decide)⟩ }
  exact hsound.complete _ _ _ _

theorem ReadMove.keeps_inv {x : ReadCursor} {s t : State} (hmove : ReadMove x s t) (he : s.engine = .reading x)
    (h : s.Inv) : t.Inv := by
  have hx := (State.engineOk_reading he).1 h.engine
  obtain ⟨hbase, hptr, hend, hrem, hclosed⟩ := h.rle
  have hvalid : s.rleValid = true := hx.2.1
  cases hmove with
  | finish => exact h.sound.complete _ _ _ _
  | nop hw =>
    have hlt : s.rlePtr < s.rleEnd := hw.2
    exact { h with
      rle := ⟨Nat.le_succ_of_le hbase, hlt, hend, hrem, hclosed⟩
      engine := (State.engineOk_reading he).2 hx }
  | whole hw n rec hn hp hr h0 => exact deliver_keeps_inv h hx hw (by omega) hp hr h0
  | truncated => exact truncateRead_keeps_inv h hvalid

/-! #### Inside an LZ_DECODE -/

/-- Cursors that moved on inside their windows are admitted again. -/
theorem LzCursor.ok.advance {s : State} {x : LzCursor} (hx : x.ok s) {c w : Nat} (hc : c ≤ 8 * x.pay) (hw : w ≤ x.w) :
    LzCursor.ok s { x with c := c, w := w } := by
  obtain ⟨hbusy, hdst, hwl, hlen, -, hbase⟩ := hx
  exact ⟨hbusy, hdst, hw.trans hwl, hlen, hc, hbase⟩

/-- The end of a code keeps the invariant when its byte loop keeps the form of M and the cursors. -/
theorem afterCode_keeps_inv {s : State} {r : Written} (b : Bool) (h : s.Inv)
    (hm : Memory.FormKept s.cfg.memBytes s.mem r.mem) (hr : r.cur.ok s) : (afterCode r b s).Inv := by
  obtain ⟨-, he⟩ | ⟨-, he⟩ := afterCode_cases r b s <;> rw [he]
  · exact { h with canonical := hm.wf h.canonical, inside := hm.within h.inside, engine := hr }
  · exact (h.sound.withMem hm s.lzSig).complete _ _ _ _

theorem InflateMove.keeps_inv {x : LzCursor} {s t : State} (hmove : InflateMove x s t) (he : s.engine = .inflating x)
    (h : s.Inv) : t.Inv := by
  have hx := (State.engineOk_inflating he).1 h.engine
  have hout : x.dst + x.w ≤ s.cfg.memBytes := le_trans (Nat.add_le_add_left hx.2.2.1 _) hx.2.1
  have hc : x.c ≤ 8 * x.pay := hx.2.2.2.2.1
  cases hmove with
  | finish => exact h.sound.complete _ _ _ _
  | corrupt => exact h.sound.complete _ _ _ _
  | control hw hl =>
    rw [LzCursor.left] at hl
    exact { h with engine := hx.advance (by omega) (le_refl x.w) }
  | literal hw n count hn hl =>
    refine afterCode_keeps_inv _ h (.literalRun count _ s.mem hout) ?_
    obtain ⟨j, -, hj, hcur⟩ := literalRun_cur count { x with c := x.c + n } s.mem
    rw [LzCursor.left] at hj hl
    rw [hcur]
    exact hx.advance (by simp only at hj ⊢; omega) (Nat.sub_le _ _)
  | copy hw n len off hn hl ho =>
    refine afterCode_keeps_inv _ h (.copyRun off len _ s.mem hout) ?_
    obtain ⟨j, -, hcur⟩ := copyRun_cur off len { x with c := x.c + n } s.mem
    rw [LzCursor.left] at hl
    rw [hcur]
    exact hx.advance (by simp only; omega) (Nat.sub_le _ _)

theorem streamStep_keeps_inv {s t : State} (he : s.engine ≠ .idle) (h : streamStep s = .next t) (hs : s.Inv) :
    t.Inv := by
  rcases hx : s.engine with - | x | x
  · exact absurd hx he
  · exact (readMove_of_step hx h).keeps_inv hx hs
  · exact (inflateMove_of_step hx h).keeps_inv hx hs

theorem runStream_keeps_inv {fuel : Nat} {s t : State} (h : runStream fuel s = .next t) (hs : s.Inv) : t.Inv :=
  runStream_keeps State.Inv (fun _ _ => streamStep_keeps_inv) h hs

/-! #### From an idle engine -/

/-- The flush of the remainder starts an RLE_READ inside the invariant (R134). -/
theorem startRead_inv {s : State} {d n : Nat} (h : s.Inv) (hb : s.busy = true) (hv : s.rleValid = true)
    (hd : d + n ≤ s.cfg.memBytes) (ho : Window.overlaps s.rleSource ⟨d, n⟩ = false) : (s.startRead d n).Inv := by
  obtain ⟨hbase, hptr, hend, hrem, -⟩ := h.rle
  have hm : Memory.FormKept s.cfg.memBytes s.mem (s.startRead d n).mem :=
    .writeList s.mem (by rw [List.length_take]; omega)
  have hlen : (s.startRead d n).rem.length = s.rem.length - min s.rem.length n := List.length_drop
  refine { h with
    canonical := hm.wf h.canonical
    inside := hm.within h.inside
    rle := ⟨hbase, hptr, hend, by omega, fun hv' => absurd (hv.symm.trans hv') (by decide)⟩
    engine := ⟨hb, hv, hd, Nat.min_le_right _ _, fun hne => ?_, ho⟩ }
  have := List.length_pos_iff.2 hne
  show min s.rem.length n = n
  omega

theorem CommandMove.keeps_inv {s t : State} (hmove : CommandMove s t) (hb : s.busy = true) (h : s.Inv) : t.Inv := by
  cases hmove with
  | ended m sig e r0 r1 r2 hm => exact (h.sound.withMem hm sig).complete _ _ _ _
  | opened b n hbn =>
    have hsound : (s.openStream b n).Sound :=
      { h.sound with rle := ⟨le_refl b, Nat.le_add_right b n, hbn, Nat.zero_le _, fun hv => by cases hv⟩ }
    exact hsound.complete _ _ _ _
  | read _ d n hv hd ho hrun => exact runStream_keeps_inv hrun (startRead_inv h hb hv hd ho)
  | inflated _ sig x hx hrun => exact runStream_keeps_inv hrun { h with engine := hx }

/-- An accepted command clears DONE, the error and the results (R110); an ignored one sets CMD_IGN alone (R111). -/
theorem issue_keeps_inv {s : State} (v : Word) (hi : s.engine = .idle) (h : s.Inv) : (s.issue v).Inv := by
  have hidle := State.engineOk_of_idle ((s.issue_engine v).trans hi)
  unfold State.issue at hidle ⊢
  split at hidle
  · rw [if_pos ‹_›]
    exact { h with engine := hidle }
  · rw [if_neg ‹_›]
    exact { h with
      busyDone := fun hbd => by cases hbd.2
      errDone := fun _ => rfl
      busyResults := fun _ => ⟨rfl, rfl, rfl⟩
      engine := hidle }

/-- A reset meets the invariant whatever was abandoned and whatever the platform leaves (R280 to R282). -/
theorem hostReset_inv {s : State} (left : List Host.Cell) (h : s.Inv) : (hostReset left s).Inv where
  cfg := h.cfg
  canonical := (Memory.FormKept.memAfterReset s left).wf h.canonical
  inside := (Memory.FormKept.memAfterReset s left).within h.inside
  busyDone := fun hbd => by cases hbd.1
  errDone := fun _ => rfl
  busyResults := fun hb => by cases hb
  rle := ⟨le_refl 0, le_refl 0, Nat.zero_le _, Nat.zero_le _, fun _ => ⟨rfl, rfl, rfl⟩⟩
  engine := State.engineOk_of_idle rfl

theorem TurnMove.keeps_inv {s t : State} (hmove : TurnMove s t) (hi : s.engine = .idle) (h : s.Inv) : t.Inv := by
  cases hmove with
  | stay => exact h
  | command _ hb hmove => exact hmove.keeps_inv hb h
  | issue v => exact issue_keeps_inv v hi h
  | poke a v ha =>
    have hm := Memory.FormKept.write s.mem ha v
    exact { h with
      canonical := hm.wf h.canonical
      inside := hm.within h.inside
      engine := State.engineOk_of_idle hi }
  | reset left => exact hostReset_inv left h
  | regRead | setArgs | peek => exact { h with engine := State.engineOk_of_idle hi }

/-- Settles O58: every move of a turn, of an RLE_READ and of an LZ_DECODE keeps the invariant. -/
theorem stepKeepsInvariant : Obligations.StepKeepsInvariant := by
  intro s t hs h
  by_cases hi : s.engine = .idle
  · obtain ⟨ts, hmove⟩ := step_idle_move hi h
    exact hmove.keeps_inv hi { hs with engine := State.engineOk_of_idle hi }
  · rw [step_of_stream hi] at h
    exact streamStep_keeps_inv hi h hs

/-- Settles O57: M is canonical and inside its size whatever the platform leaves in it; the rest are R42's values. -/
theorem invariantAtReset : Obligations.InvariantAtReset where
  cfg := by decide
  canonical := State.wf_reset_mem
  inside := State.within_reset_mem
  busyDone := fun hbd => by cases hbd.1
  errDone := fun _ => rfl
  busyResults := fun hb => by cases hb
  rle := ⟨le_refl 0, le_refl 0, Nat.zero_le _, Nat.zero_le _, fun _ => ⟨rfl, rfl, rfl⟩⟩
  engine := State.engineOk_of_idle rfl

/-- Settles O56: a word is the concatenation of its four bytes, the lowest address first. -/
theorem wordsAreBigEndian : Obligations.WordsAreBigEndian := by
  intro m a
  simp only [Memory.readWord, toNat_append_eq_add]
  omega

end Sys2Proof.Machine

/-! The state family: what the registers of the window hold and what a host access of one does, what a command leaves alone
besides M, and the values after reset. -/

namespace Sys2Proof.Claims

open Sys2Proof.Machine

theorem Untouched.refl (s : State) : Untouched s s := ⟨rfl, rfl, rfl, rfl, rfl, rfl, rfl, rfl, rfl, rfl⟩

theorem Untouched.trans {s t u : State} (h : Untouched s t) (k : Untouched t u) : Untouched s u where
  cfg := k.cfg.trans h.cfg
  cmdLast := k.cmdLast.trans h.cmdLast
  cmdIgn := k.cmdIgn.trans h.cmdIgn
  arg := k.arg.trans h.arg
  pend := k.pend.trans h.pend
  larg := k.larg.trans h.larg
  turns := k.turns.trans h.turns
  regData := k.regData.trans h.regData
  memData := k.memData.trans h.memData
  draws := k.draws.trans h.draws

theorem SameRle.refl (s : State) : SameRle s s := ⟨rfl, rfl, rfl, rfl, rfl, rfl⟩

theorem SameRle.trans {s t u : State} (h : SameRle s t) (k : SameRle t u) : SameRle s u where
  valid := k.valid.trans h.valid
  base := k.base.trans h.base
  ptr := k.ptr.trans h.ptr
  fin := k.fin.trans h.fin
  rem := k.rem.trans h.rem
  trunc := k.trunc.trans h.trunc

end Sys2Proof.Claims

namespace Sys2Proof.Machine

open Sys2Proof.Claims

/-! ### What a command leaves alone besides M -/

/-- The completion of a command that wrote M: neither the RLE unit nor LZ_SIG takes part in it (R27, R34). -/
theorem complete_frame (s : State) (m : Memory) (e : ErrKind) (r0 r1 r2 : Word) :
    Untouched s ({ s with mem := m }.complete e r0 r1 r2) ∧ SameRle s ({ s with mem := m }.complete e r0 r1 r2) ∧
      ({ s with mem := m }.complete e r0 r1 r2).lzSig = s.lzSig :=
  ⟨{ Untouched.refl s with }, { SameRle.refl s with }, rfl⟩

theorem raise_frame (s : State) (e : ErrKind) :
    Untouched s (s.raise e) ∧ SameRle s (s.raise e) ∧ (s.raise e).lzSig = s.lzSig :=
  complete_frame s s.mem e 0 0 0

/-- What BadCommand and the body of a guarded command both leave, the command leaves. -/
theorem guarded_leaves {i : Instr} {s t : State} {body : State → Result} (P : State → Prop)
    (h : guarded i s body = .next t) (hbad : P (s.raise .badCommand)) (hbody : body s = .next t → P t) : P t := by
  obtain hg | hg | ⟨-, -, hg⟩ := guarded_cases i s body <;> rw [hg] at h
  · cases h
  · cases h; exact hbad
  · exact hbody h

theorem guarded_frame {i : Instr} {s t : State} {body : State → Result} (h : guarded i s body = .next t)
    (hbody : body s = .next t → Untouched s t ∧ SameRle s t ∧ t.lzSig = s.lzSig) :
    Untouched s t ∧ SameRle s t ∧ t.lzSig = s.lzSig :=
  guarded_leaves (fun t => Untouched s t ∧ SameRle s t ∧ t.lzSig = s.lzSig) h (raise_frame s _) hbody

/-! #### The commands that run no stream code -/

theorem execRleOpen_frame {s t : State} (h : execRleOpen s = .next t) : Untouched s t ∧ t.lzSig = s.lzSig := by
  refine guarded_leaves (fun t => Untouched s t ∧ t.lzSig = s.lzSig) h ?_ fun h => ?_
  · obtain ⟨hu, -, hz⟩ := raise_frame s .badCommand
    exact ⟨hu, hz⟩
  · cases h
    exact ⟨{ Untouched.refl s with }, rfl⟩

theorem execPlanarUnpack_frame {s t : State} (h : execPlanarUnpack s = .next t) :
    Untouched s t ∧ SameRle s t ∧ t.lzSig = s.lzSig := by
  refine guarded_frame h fun h => ?_
  cases h
  exact complete_frame s _ _ _ _ _

theorem execPlanarRes_frame {s t : State} (h : execPlanarRes s = .next t) :
    Untouched s t ∧ SameRle s t ∧ t.lzSig = s.lzSig := by
  refine guarded_frame h fun h => ?_
  simp only at h
  split_ifs at h with hshort hwidth hcap hcut
  · cases h; exact raise_frame s _
  · cases h; exact raise_frame s _
  · cases h; exact raise_frame s _
  · cases h; exact raise_frame s _
  · cases h; exact complete_frame s _ _ _ _ _

theorem execFieldSplit_frame {s t : State} (h : execFieldSplit s = .next t) :
    Untouched s t ∧ SameRle s t ∧ t.lzSig = s.lzSig := by
  refine guarded_frame h fun h => ?_
  cases h
  exact complete_frame s _ _ _ _ _

theorem execMaskBuild_frame {s t : State} (h : execMaskBuild s = .next t) :
    Untouched s t ∧ SameRle s t ∧ t.lzSig = s.lzSig := by
  refine guarded_frame h fun h => ?_
  cases h
  exact complete_frame s _ _ _ _ _

/-! #### The stream commands -/

/-- Every move of a stream command leaves the host's side and LZ_SIG. -/
theorem streamStep_frame {s t : State} (he : s.engine ≠ .idle) (h : streamStep s = .next t) :
    Untouched s t ∧ t.lzSig = s.lzSig := by
  rcases hx : s.engine with - | x | x
  · exact absurd hx he
  · obtain ⟨hu, hz, -⟩ := (readMove_of_step hx h).frame
    exact ⟨hu, hz⟩
  · obtain ⟨hu, -, hz⟩ := (inflateMove_of_step hx h).frame
    exact ⟨hu, hz⟩

theorem runStream_frame {fuel : Nat} {s t : State} (h : runStream fuel s = .next t) :
    Untouched s t ∧ t.lzSig = s.lzSig := by
  refine runStream_keeps (fun u => Untouched s u ∧ u.lzSig = s.lzSig) (fun u v he h ⟨hu, hz⟩ => ?_) h
    ⟨.refl s, rfl⟩
  obtain ⟨hu', hz'⟩ := streamStep_frame he h
  exact ⟨hu.trans hu', hz'.trans hz⟩

theorem execRleRead_frame {s t : State} (h : execRleRead s = .next t) : Untouched s t ∧ t.lzSig = s.lzSig := by
  refine guarded_leaves (fun t => Untouched s t ∧ t.lzSig = s.lzSig) h ?_ fun h => ?_
  · obtain ⟨hu, -, hz⟩ := raise_frame s .badCommand
    exact ⟨hu, hz⟩
  · obtain ⟨hu, hz⟩ := runStream_frame h
    exact ⟨{ hu with }, hz⟩

/-- A run inside an LZ_DECODE leaves the RLE unit: none of its moves leads into an RLE_READ. -/
theorem runStream_inflating_sameRle {fuel : Nat} {s t : State} {x : LzCursor} (he : s.engine = .inflating x)
    (h : runStream fuel s = .next t) : SameRle s t := by
  suffices (t.engine = .idle ∨ ∃ y, t.engine = .inflating y) ∧ SameRle s t from this.2
  refine runStream_keeps (fun u => (u.engine = .idle ∨ ∃ y, u.engine = .inflating y) ∧ SameRle s u) ?_ h
    ⟨.inr ⟨x, he⟩, .refl s⟩
  rintro u v hne h ⟨hidle | ⟨y, hy⟩, hsame⟩
  · exact absurd hidle hne
  · have hmove := inflateMove_of_step hy h
    obtain ⟨-, hrle, -⟩ := hmove.frame
    obtain ⟨hidle, -⟩ | ⟨z, hz, -⟩ := hmove.goes_on
    · exact ⟨.inl hidle, hsame.trans hrle⟩
    · exact ⟨.inr ⟨z, hz⟩, hsame.trans hrle⟩

theorem inflate_frame {x : LzCursor} {s t : State} (h : inflate x s = .next t) : Untouched s t ∧ SameRle s t := by
  unfold inflate at h
  split at h
  · cases h
    obtain ⟨hu, hr, -⟩ := raise_frame s .corruptStream
    exact ⟨hu, hr⟩
  · obtain ⟨hu, -⟩ := runStream_frame h
    have hr := runStream_inflating_sameRle rfl h
    exact ⟨{ hu with }, { hr with }⟩

/-- LZ_DECODE sets LZ_SIG before its later checks (R180), and leaves the RLE unit. -/
theorem lzBody_frame {b n d cap : Nat} {s t : State} (h : lzBody b n d cap s = .next t) :
    Untouched s t ∧ SameRle s t := by
  have hraise : ∀ (sig : SigClass) (e : ErrKind),
      Untouched s ({ s with lzSig := sig }.raise e) ∧ SameRle s ({ s with lzSig := sig }.raise e) := fun _ _ =>
    ⟨{ Untouched.refl s with }, { SameRle.refl s with }⟩
  simp only [lzBody] at h
  split_ifs at h with h4 hclass h12 hcap
  · cases h; exact hraise _ _
  · cases h; exact hraise _ _
  · cases h; exact hraise _ _
  · cases h; exact hraise _ _
  · obtain ⟨hu, hr⟩ := inflate_frame h
    exact ⟨{ hu with }, { hr with }⟩

theorem execLzDecode_frame {s t : State} (h : execLzDecode s = .next t) : Untouched s t ∧ SameRle s t := by
  refine guarded_leaves (fun t => Untouched s t ∧ SameRle s t) h ?_ lzBody_frame
  obtain ⟨hu, hr, -⟩ := raise_frame s .badCommand
  exact ⟨hu, hr⟩

/-- Settles O28: the four commands without a stream leave both units, and each stream command has its own. -/
theorem commandsKeepOtherUnits : Obligations.CommandsKeepOtherUnits := by
  intro s t i hi h
  have both : Untouched s t ∧ SameRle s t ∧ t.lzSig = s.lzSig →
      Untouched s t ∧ (i ≠ .rleOpen → i ≠ .rleRead → SameRle s t) ∧ (i ≠ .lzDecode → t.lzSig = s.lzSig) :=
    fun ⟨hu, hr, hz⟩ => ⟨hu, fun _ _ => hr, fun _ => hz⟩
  cases i with
  | rleOpen =>
    obtain ⟨hu, hz⟩ := execRleOpen_frame h
    exact ⟨hu, fun hne => absurd rfl hne, fun _ => hz⟩
  | rleRead =>
    obtain ⟨hu, hz⟩ := execRleRead_frame h
    exact ⟨hu, fun _ hne => absurd rfl hne, fun _ => hz⟩
  | lzDecode =>
    obtain ⟨hu, hr⟩ := execLzDecode_frame h
    exact ⟨hu, fun _ _ => hr, fun hne => absurd rfl hne⟩
  | planarUnpack => exact both (execPlanarUnpack_frame h)
  | planarRes => exact both (execPlanarRes_frame h)
  | fieldSplit => exact both (execFieldSplit_frame h)
  | maskBuild => exact both (execMaskBuild_frame h)
  | rleLit | rleNop | rleRep | lzLit | lzMatch | lzM0 | lzM1 | lzM2 | lzM3S | lzM3L => cases hi

/-! ### The register window -/

/-- The register map: what an aligned offset of the window reads as (R70). RLE_REM_LEN alone asks something of the state: REM
must fit the register's nine bits (R37). -/
theorem readReg_eq_registerWord {s : State} {off : Nat} (h : off < 0x100) (h4 : off % 4 = 0) (hrem : s.rem.length ≤ 127) :
    s.readReg off = registerWord s off := by
  by_cases hoff : off = 0x4C
  · subst hoff
    refine BitVec.eq_of_toNat_eq ?_
    show ((BitVec.ofNat 9 s.rem.length).setWidth 32).toNat = (BitVec.ofNat 32 s.rem.length).toNat
    simp only [BitVec.toNat_setWidth, BitVec.toNat_ofNat]
    omega
  · obtain ⟨k, rfl⟩ : ∃ k, off = 4 * k := ⟨off / 4, by omega⟩
    obtain hk | hk : k < 19 ∨ 19 < k ∧ k < 64 := by omega
    · interval_cases k <;> rfl
    · obtain ⟨hlo, hhi⟩ := hk
      interval_cases k <;> rfl

/-- A number below 2^32 is the number its register shows (R120). -/
theorem toNat_regWord {v : Nat} (h : v < 2 ^ 32) : (regWord v).toNat = v := by
  rw [regWord, if_pos h, BitVec.toNat_ofNat, Nat.mod_eq_of_lt h]

/-- An aligned 32-bit host read of the window (R119). -/
theorem step_regRead {s : State} {ts : List Turn} {off : Nat} (hi : s.engine = .idle)
    (ht : s.turns = .regRead (s.cfg.regBase + off) 4 :: ts) (h : off < 0x100) (h4 : off % 4 = 0) :
    step s = .next { s with turns := ts, regData := s.readReg off } := by
  rw [step_of_turn hi ht]
  simp only [takeTurn, hostRegRead, registerOffset_aligned h h4]
  rfl

/-- An aligned 32-bit host write of the window (R119). -/
theorem step_regWrite {s : State} {ts : List Turn} {off : Nat} {v : Word} (hi : s.engine = .idle)
    (ht : s.turns = .regWrite (s.cfg.regBase + off) 4 v :: ts) (h : off < 0x100) (h4 : off % 4 = 0) :
    step s = .next (State.writeReg { s with turns := ts } off v) := by
  rw [step_of_turn hi ht]
  simp only [takeTurn, hostRegWrite, registerOffset_aligned h h4]

theorem writeReg_arg (s : State) {i : Nat} (h : i < 8) (v : Word) :
    s.writeReg (0x10 + 4 * i) v = { s with arg := s.arg.set i v } := by
  rw [State.writeReg, if_neg (by omega), argIndex_of_arg h]

/-- Every offset but CMD and the arguments ignores a write (R119). -/
theorem writeReg_other (s : State) {off : Nat} (hcmd : off ≠ 0x04) (harg : ¬(0x10 ≤ off ∧ off ≤ 0x2C)) (v : Word) :
    s.writeReg off v = s := by
  rw [State.writeReg, if_neg hcmd, argIndex_of_other harg]

/-- Settles O6: the read returns `readReg`, which is the register map. -/
theorem registerReadReturnsWord : Obligations.RegisterReadReturnsWord := by
  refine ⟨fun s ts off hi ht h h4 hrem => ?_, fun v hv => toNat_regWord hv⟩
  rw [step_regRead hi ht h h4, readReg_eq_registerWord h h4 hrem]

/-- Settles O10: the write replaces the argument file by one that differs at `i` alone. -/
theorem argumentWriteSetsRegister : Obligations.ArgumentWriteSetsRegister := by
  intro s ts i v hi h8 ht
  refine ⟨s.arg.set i v, ?_, fun j hj => Args.get_set s.arg h8 hj v⟩
  rw [step_regWrite hi ht (by omega) (by omega), writeReg_arg _ h8]

/-- Settles O11: such an offset is neither CMD nor that of an argument register, so `writeReg` leaves the state. -/
theorem otherRegisterWritesAreIgnored : Obligations.OtherRegisterWritesAreIgnored := by
  intro s ts off v hi ht h h4 hcmd harg
  rw [step_regWrite hi ht h h4, writeReg_other _ hcmd harg]

/-! ### The STATUS word -/

theorem State.rleAtEnd_iff (s : State) :
    s.rleAtEnd = true ↔ s.rleValid = true ∧ s.rlePtr = s.rleEnd ∧ s.rem = [] := by
  simp [State.rleAtEnd, and_assoc]

/-- Bit `k` of a STATUS word (R25). -/
theorem statusWord_getLsbD (s : State) (k : Nat) :
    s.statusWord.getLsbD k =
      if k = 0 then s.busy
      else if k = 1 then s.done
      else if k < 6 then s.err.code.getLsbD (k - 2)
      else if k = 6 then s.cmdIgn
      else if k = 8 then s.rleValid
      else if k = 9 then s.rleAtEnd
      else if k = 10 then s.rleTrunc
      else if 12 ≤ k ∧ k < 14 then s.lzSig.code.getLsbD (k - 12)
      else false := by
  simp only [State.statusWord, BitVec.getLsbD_append, BitVec.getLsbD_ofBool, BitVec.getLsbD_zero]
  by_cases hk : k < 14
  · interval_cases k <;> simp
  · obtain ⟨j, rfl⟩ : ∃ j, k = j + 14 := ⟨k - 14, by omega⟩
    simp

/-- Settles O7: each field is read off bit by bit; the codes are the definitions' own. -/
theorem statusFields : Obligations.StatusFields := by
  refine ⟨fun s => ?_, ⟨rfl, rfl, rfl, rfl, rfl⟩, rfl, rfl, rfl, rfl⟩
  have herr : s.statusWord.extractLsb' 2 4 = s.err.code := by
    refine BitVec.eq_of_getLsbD_eq fun j hj => ?_
    rw [BitVec.getLsbD_extractLsb', statusWord_getLsbD]
    interval_cases j <;> simp
  have hsig : s.statusWord.extractLsb' 12 2 = s.lzSig.code := by
    refine BitVec.eq_of_getLsbD_eq fun j hj => ?_
    rw [BitVec.getLsbD_extractLsb', statusWord_getLsbD]
    interval_cases j <;> simp
  have hrsv : s.statusWord.extractLsb' 14 18 = 0#18 := by
    refine BitVec.eq_of_getLsbD_eq fun j hj => ?_
    rw [BitVec.getLsbD_extractLsb', statusWord_getLsbD, Nat.add_comm 14]
    simp
  have bit := statusWord_getLsbD s
  have hend := (Bool.eq_iff_iff.1 (bit 9)).trans s.rleAtEnd_iff
  exact ⟨bit 0, bit 1, herr, bit 6, bit 7, bit 8, hend, bit 10, bit 11, hsig, hrsv⟩

/-! ### Reset -/

/-- Settles O16: a closed table of 64 words, none of which depends on the free memory. -/
theorem resetRegisters : Obligations.ResetRegisters := ⟨by decide, rfl, rfl, rfl, rfl⟩

/-- Settles O17: the step is `hostReset`, which takes every register, flag and RLE field from `State.reset`. -/
theorem resetClearsTheBlock : Obligations.ResetClearsTheBlock := by
  intro s ts left hi ht
  have hstep : step s = .next (hostReset left { s with turns := ts }) := step_of_turn hi ht
  exact ⟨_, hstep, rfl, rfl, rfl, rfl, rfl, rfl, rfl, rfl, rfl, rfl, rfl, rfl, rfl, rfl, rfl, rfl, rfl, rfl, rfl⟩

end Sys2Proof.Machine

/-! The memory family: M's canonical form is unique, the host's accesses beside the pending command's windows, the fault of a
window over the registers, and the bytes a command leaves alone. -/

namespace Sys2Proof.Machine

open Sys2Proof.Claims

/-! ### The canonical form -/

/-- The first entry of a canonical list shows in a read of its address. -/
theorem Memory.read_head_ne {k : Nat} {v : Byte} {m : Memory} (hm : Memory.wf ((k, v) :: m) = true) :
    Memory.read ((k, v) :: m) k ≠ unlistedByte k := by
  rw [Memory.read_cons, if_pos rfl]
  exact ((Memory.wf_cons k v m).1 hm).1

/-- The addresses of a canonical list rise from its first. -/
theorem Memory.head_le {k : Nat} {v : Byte} {m : Memory} (hm : Memory.wf ((k, v) :: m) = true) :
    ∀ c ∈ (k, v) :: m, k ≤ c.1 := by
  obtain ⟨-, hlt, -⟩ := (Memory.wf_cons k v m).1 hm
  exact List.forall_mem_cons.2 ⟨le_refl k, fun c hc => (hlt c hc).le⟩

theorem Memory.wf_tail {k : Nat} {v : Byte} {m : Memory} (hm : Memory.wf ((k, v) :: m) = true) : Memory.wf m = true := by
  obtain ⟨-, -, htail⟩ := (Memory.wf_cons k v m).1 hm
  exact htail

/-- A memory that reads like a canonical list has an entry at its first address or below. -/
theorem Memory.exists_mem_le_head {k : Nat} {v : Byte} {m m' : Memory} (hm : Memory.wf ((k, v) :: m) = true)
    (h : ∀ a, Memory.read ((k, v) :: m) a = Memory.read m' a) : ∃ c ∈ m', c.1 ≤ k := by
  by_contra! hlt
  exact Memory.read_head_ne hm ((h k).trans (Memory.read_of_lt m' k hlt))

/-- The tails of two canonical lists that start at one address and read alike read alike. -/
theorem Memory.read_tail_eq {k : Nat} {v v' : Byte} {m m' : Memory} (hm : Memory.wf ((k, v) :: m) = true)
    (hm' : Memory.wf ((k, v') :: m') = true)
    (h : ∀ a, Memory.read ((k, v) :: m) a = Memory.read ((k, v') :: m') a) (a : Nat) :
    Memory.read m a = Memory.read m' a := by
  obtain ⟨-, hlt, -⟩ := (Memory.wf_cons k v m).1 hm
  obtain ⟨-, hlt', -⟩ := (Memory.wf_cons k v' m').1 hm'
  by_cases ha : k = a
  · subst ha
    rw [Memory.read_of_lt m k hlt, Memory.read_of_lt m' k hlt']
  · simpa only [Memory.read_cons, if_neg ha] using h a

/-- Settles O55, by induction on the first list: reads fix the first address of each list, its byte and the reads of the
tails. -/
theorem canonicalMemoryIsUnique : Obligations.CanonicalMemoryIsUnique := by
  intro m
  induction m with
  | nil =>
    intro m' _ hm' h
    cases m' with
    | nil => rfl
    | cons c m' => exact absurd (h c.1).symm (Memory.read_head_ne hm')
  | cons c m ih =>
    obtain ⟨k, v⟩ := c
    intro m' hm hm' h
    cases m' with
    | nil => exact absurd (h k) (Memory.read_head_ne hm)
    | cons c' m' =>
      obtain ⟨k', v'⟩ := c'
      obtain ⟨c, hc, hck⟩ := Memory.exists_mem_le_head hm h
      obtain ⟨c', hc', hck'⟩ := Memory.exists_mem_le_head hm' fun a => (h a).symm
      obtain rfl : k = k' := le_antisymm ((Memory.head_le hm c' hc').trans hck') ((Memory.head_le hm' c hc).trans hck)
      obtain rfl : v = v' := by simpa [Memory.read_cons] using h k
      rw [ih m' (Memory.wf_tail hm) (Memory.wf_tail hm') (Memory.read_tail_eq hm hm' h)]

/-! ### Host accesses beside the pending command's windows -/

theorem State.mem_busyDests {s : State} {w : Window} :
    w ∈ s.busyDests ↔ s.busy = true ∧ ∃ i, decodeCmd s.pend = some i ∧ w ∈ destWindows i s := by
  cases hb : s.busy
  · simp [State.busyDests_of_none (.inl hb)]
  · cases hd : decodeCmd s.pend with
    | none => simp [State.busyDests_of_none (.inr hd)]
    | some i => simp [State.busyDests_of_decode hb hd]

theorem State.mem_busySources {s : State} {w : Window} :
    w ∈ s.busySources ↔ s.busy = true ∧ ∃ i, decodeCmd s.pend = some i ∧ w ∈ sourceWindows i s := by
  cases hb : s.busy
  · simp [State.busySources_of_none (.inl hb)]
  · cases hd : decodeCmd s.pend with
    | none => simp [State.busySources_of_none (.inr hd)]
    | some i => simp [State.busySources_of_decode hb hd]

/-- A host read of a byte of M that is no hazard (R101, R286). -/
theorem hostPeek_of_clear {s : State} {a : Nat} (ha : a < s.cfg.memBytes) (hr : OffRegister s a)
    (hw : ∀ w ∈ s.busyDests, ¬In w a) : hostPeek a s = .next { s with memData := Memory.read s.mem a } := by
  have hclear : ¬anyHolds s.busyDests a = true := fun h =>
    have ⟨w, hmem, hin⟩ := anyHolds_iff.1 h
    hw w hmem hin
  rw [hostPeek, onRegisters_eq_false.2 hr, if_neg Bool.false_ne_true, if_neg (by omega), if_neg hclear]

/-- A host write of a byte of M that is no hazard (R101, R286). -/
theorem hostPoke_of_clear {s : State} {a : Nat} {v : Byte} (ha : a < s.cfg.memBytes) (hr : OffRegister s a)
    (hw : ∀ w ∈ s.busySources ++ s.busyDests, ¬In w a) :
    hostPoke a v s = .next { s with mem := Memory.write s.mem a v } := by
  have hclear : ¬anyHolds (s.busySources ++ s.busyDests) a = true := fun h =>
    have ⟨w, hmem, hin⟩ := anyHolds_iff.1 h
    hw w hmem hin
  rw [hostPoke, onRegisters_eq_false.2 hr, if_neg Bool.false_ne_true, if_neg (by omega), if_neg hclear]

/-- Settles O14: with no window of the pending command at the address, the access passes the three checks. -/
theorem hostAccessElsewhereRuns : Obligations.HostAccessElsewhereRuns := by
  intro s ts a v hi hm ha hr
  refine ⟨fun ht hclear => ?_, fun ht hclear => ⟨Memory.write s.mem a v, ?_, Memory.wf_write hm a v,
    Memory.read_write hm a v⟩⟩
  · rw [step_of_turn hi ht]
    refine hostPeek_of_clear ha hr fun w hw => ?_
    rw [State.busyDests_turns] at hw
    obtain ⟨hb, i, hd, hw⟩ := State.mem_busyDests.1 hw
    exact hclear hb i hd w hw
  · rw [step_of_turn hi ht]
    refine hostPoke_of_clear ha hr fun w hw => ?_
    rw [State.busySources_turns, State.busyDests_turns] at hw
    obtain hw | hw := List.mem_append.1 hw
    · obtain ⟨hb, i, hd, hw⟩ := State.mem_busySources.1 hw
      exact hclear hb i hd w (List.mem_append_left _ hw)
    · obtain ⟨hb, i, hd, hw⟩ := State.mem_busyDests.1 hw
      exact hclear hb i hd w (List.mem_append_right _ hw)

/-! ### Windows over the registers -/

/-- Settles O25: every command is `guarded`, and past the operand checks its first test is this one. -/
theorem windowOverRegistersFaults : Obligations.WindowOverRegistersFaults := by
  intro s i hi hl hover
  obtain ⟨body, hexec⟩ := exec_command hi
  have hcovers : coversRegisters s.cfg (sourceWindows i s ++ destWindows i s) = true := by
    rwa [← coversRegisters_eq_false, Bool.not_eq_false] at hover
  rw [hexec, guarded, if_pos hl, if_pos hcovers]

/-! ### The bytes a command leaves alone -/

/-- The bytes the command in progress can still write: an RLE_READ's destination (R133), or the output bytes of an LZ_DECODE
that are not yet written (R168). -/
def State.outputWindow (s : State) : Window :=
  match s.engine with
  | .idle => ⟨0, 0⟩
  | .reading x => ⟨x.dst, x.max⟩
  | .inflating x => ⟨x.dst, x.w⟩

theorem outputWindow_idle {s : State} (h : s.engine = .idle) : s.outputWindow = ⟨0, 0⟩ := by
  simp [State.outputWindow, h]

theorem outputWindow_reading {s : State} {x : ReadCursor} (h : s.engine = .reading x) :
    s.outputWindow = ⟨x.dst, x.max⟩ := by simp [State.outputWindow, h]

theorem outputWindow_inflating {s : State} {x : LzCursor} (h : s.engine = .inflating x) :
    s.outputWindow = ⟨x.dst, x.w⟩ := by simp [State.outputWindow, h]

/-- A longer window at the same base holds every address of a shorter one. -/
theorem in_of_len_le {b n n' a : Nat} (hn : n ≤ n') (h : In ⟨b, n⟩ a) : In ⟨b, n'⟩ a :=
  ⟨h.1, h.2.trans_le (Nat.add_le_add_left hn b)⟩

theorem not_in_empty (a : Nat) : ¬In ⟨0, 0⟩ a := Nat.not_lt_zero a ∘ And.right

/-- After moves of a stream command that began at `s`: M keeps its form, differs inside the window alone, and what is still to
be written lies in the window. -/
structure StaysIn (w : Window) (s t : State) : Prop where
  wf : Memory.wf t.mem = true
  outside : SameOutside [w] s t
  output : ∀ a, In t.outputWindow a → In w a

theorem ReadMove.staysIn {x : ReadCursor} {s t : State} (h : ReadMove x s t) (he : s.engine = .reading x)
    (hm : Memory.wf s.mem = true) : StaysIn s.outputWindow s t := by
  obtain ⟨hwf, hread⟩ := h.memory hm
  rw [outputWindow_reading he]
  refine ⟨hwf, fun a ha => hread a fun hin => ha _ (List.mem_singleton_self _) ⟨(Nat.le_add_right _ _).trans hin.1, hin.2⟩,
    fun a => ?_⟩
  obtain ⟨hidle, -⟩ | ⟨y, hy, hdst, hmax, -⟩ := h.goes_on he
  · rw [outputWindow_idle hidle]
    exact fun hin => absurd hin (not_in_empty a)
  · rw [outputWindow_reading hy, hdst, hmax]
    exact id

theorem InflateMove.staysIn {x : LzCursor} {s t : State} (h : InflateMove x s t) (he : s.engine = .inflating x)
    (hm : Memory.wf s.mem = true) : StaysIn s.outputWindow s t := by
  obtain ⟨hwf, hread⟩ := h.memory hm
  rw [outputWindow_inflating he]
  refine ⟨hwf, fun a ha => hread a (ha _ (List.mem_singleton_self _)), fun a => ?_⟩
  obtain ⟨hidle, -⟩ | ⟨y, hy, -, -, hdst, -, -, -, hw, -⟩ := h.goes_on
  · rw [outputWindow_idle hidle]
    exact fun hin => absurd hin (not_in_empty a)
  · rw [outputWindow_inflating hy, hdst]
    exact in_of_len_le hw

theorem streamStep_staysIn {s t : State} (he : s.engine ≠ .idle) (h : streamStep s = .next t)
    (hm : Memory.wf s.mem = true) : StaysIn s.outputWindow s t := by
  rcases hx : s.engine with - | x | x
  · exact absurd hx he
  · exact (readMove_of_step hx h).staysIn hx hm
  · exact (inflateMove_of_step hx h).staysIn hx hm

/-- The run of a stream command writes inside its window alone, since each of its moves does and leaves no more to write. -/
theorem runStream_staysIn {w : Window} {fuel : Nat} {s t : State} (h : runStream fuel s = .next t)
    (hm : Memory.wf s.mem = true) (hw : ∀ a, In s.outputWindow a → In w a) : StaysIn w s t := by
  refine runStream_keeps (StaysIn w s) (fun u v he h hu => ?_) h ⟨hm, fun _ _ => rfl, hw⟩
  have hv := streamStep_staysIn he h hu.wf
  refine ⟨hv.wf, fun a ha => (hv.outside a ?_).trans (hu.outside a ha), fun a hin => hu.output a (hv.output a hin)⟩
  exact List.forall_mem_singleton.2 fun hin => ha w (List.mem_singleton_self w) (hu.output a hin)

/-- A memory operation inside a window changes no byte outside it. -/
theorem Local.sameOutside {w : Window} {f : Memory → Memory} (hf : Local w.base (w.base + w.len) f) {s t : State}
    (hm : Memory.wf s.mem = true) (ht : t.mem = f s.mem) : SameOutside [w] s t := fun a ha => by
  rw [ht]
  exact hf.outside s.mem hm a (ha w (List.mem_singleton_self w))

/-- A command that ends without a write changes no byte at all. -/
theorem sameOutside_of_mem_eq {ws : List Window} {s t : State} (h : t.mem = s.mem) : SameOutside ws s t := fun a _ =>
  congrArg (Memory.read · a) h

/-- BadCommand writes nothing, so a guarded command writes what its body does. -/
theorem guarded_sameOutside {i : Instr} {s t : State} {body : State → Result} (h : guarded i s body = .next t)
    (hbody : operandsLegal i s = true → body s = .next t → SameOutside (destWindows i s) s t) :
    SameOutside (destWindows i s) s t := by
  obtain hg | hg | ⟨hl, -, hg⟩ := guarded_cases i s body <;> rw [hg] at h
  · cases h
  · cases h; exact sameOutside_of_mem_eq rfl
  · exact hbody hl h

/-! #### The seven commands -/

theorem execRleOpen_sameOutside {s t : State} (h : execRleOpen s = .next t) :
    SameOutside (destWindows .rleOpen s) s t := by
  refine guarded_sameOutside h fun _ h => ?_
  cases h
  exact sameOutside_of_mem_eq rfl

/-- The remainder is flushed into the destination first (R134), and the run stays in it. -/
theorem execRleRead_sameOutside {s t : State} (hm : Memory.wf s.mem = true) (h : execRleRead s = .next t) :
    SameOutside (destWindows .rleRead s) s t := by
  refine guarded_sameOutside h fun _ h a ha => ?_
  have hrun := runStream_staysIn (w := ⟨s.operand 0, s.operand 1⟩) h (Memory.wf_writeList hm _ _) fun _ => id
  have hout : ¬(s.operand 0 ≤ a ∧ a < s.operand 0 + s.operand 1) := ha _ (List.mem_singleton_self _)
  rw [hrun.outside a ha, State.startRead_mem, Memory.read_writeList_outside hm]
  simp only [List.length_take]
  omega

theorem inflate_sameOutside {x : LzCursor} {s t : State} {cap : Nat} (h : inflate x s = .next t)
    (hm : Memory.wf s.mem = true) (hw : x.w ≤ cap) : SameOutside [⟨x.dst, cap⟩] s t := by
  unfold inflate at h
  split at h
  · cases h; exact sameOutside_of_mem_eq rfl
  · exact (runStream_staysIn h hm fun _ => in_of_len_le hw).outside

theorem lzBody_sameOutside {b n d cap : Nat} {s t : State} (hm : Memory.wf s.mem = true)
    (h : lzBody b n d cap s = .next t) : SameOutside [⟨d, cap⟩] s t := by
  simp only [lzBody] at h
  split_ifs at h with h4 hclass h12 hcap
  · cases h; exact sameOutside_of_mem_eq rfl
  · cases h; exact sameOutside_of_mem_eq rfl
  · cases h; exact sameOutside_of_mem_eq rfl
  · cases h; exact sameOutside_of_mem_eq rfl
  · exact inflate_sameOutside h hm (Nat.le_of_not_lt hcap)

theorem execLzDecode_sameOutside {s t : State} (hm : Memory.wf s.mem = true) (h : execLzDecode s = .next t) :
    SameOutside (destWindows .lzDecode s) s t :=
  guarded_sameOutside h fun _ h => lzBody_sameOutside hm h

theorem execPlanarUnpack_sameOutside {s t : State} (hm : Memory.wf s.mem = true) (h : execPlanarUnpack s = .next t) :
    SameOutside (destWindows .planarUnpack s) s t := by
  refine guarded_sameOutside h fun _ h => ?_
  cases h
  exact (local_unpack _ _ _ _ _).sameOutside hm rfl

/-- The output of `Unpack` fits the capacity, by the check of R204 before it. -/
theorem execPlanarRes_sameOutside {s t : State} (hm : Memory.wf s.mem = true) (h : execPlanarRes s = .next t) :
    SameOutside (destWindows .planarRes s) s t := by
  refine guarded_sameOutside h fun _ h => ?_
  simp only at h
  split_ifs at h with hshort hwidth hcap hcut
  · cases h; exact sameOutside_of_mem_eq rfl
  · cases h; exact sameOutside_of_mem_eq rfl
  · cases h; exact sameOutside_of_mem_eq rfl
  · cases h; exact sameOutside_of_mem_eq rfl
  · cases h
    exact ((local_unpack _ _ _ _ _).mono (le_refl _) (Nat.add_le_add_left (Nat.le_of_not_lt hcap) _)).sameOutside hm rfl

/-- Every pixel lies in the image, by R221's operand check. -/
theorem execFieldSplit_sameOutside {s t : State} (hm : Memory.wf s.mem = true) (h : execFieldSplit s = .next t) :
    SameOutside (destWindows .fieldSplit s) s t := by
  refine guarded_sameOutside h fun hl h a ha => ?_
  have hpix : s.operand 2 + s.operand 1 ≤ s.operand 6 := by simpa [operandsLegal] using hl
  obtain ⟨-, hread⟩ := splitPixels_keeps (src := s.operand 0) (cd := s.operand 3) (md := s.operand 4)
    (pd := s.operand 5) hpix hm
  cases h
  exact hread a (ha ⟨s.operand 3, s.operand 6⟩ (by simp [destWindows]))
    (ha ⟨s.operand 4, ceilDiv (s.operand 6) 4⟩ (by simp [destWindows]))
    (ha ⟨s.operand 5, ceilDiv (s.operand 6) 8⟩ (by simp [destWindows]))

theorem execMaskBuild_sameOutside {s t : State} (hm : Memory.wf s.mem = true) (h : execMaskBuild s = .next t) :
    SameOutside (destWindows .maskBuild s) s t := by
  refine guarded_sameOutside h fun _ h => ?_
  cases h
  exact (local_maskRows _ _ _ _).sameOutside hm rfl

/-- Settles O27: a command that ends by its checks writes nothing, a stream command's moves stay in the output that is left,
and each other unit's operation stays in its windows. -/
theorem commandsWriteOnlyDestinations : Obligations.CommandsWriteOnlyDestinations := by
  intro s t i hi hm h
  cases i with
  | rleOpen => exact execRleOpen_sameOutside h
  | rleRead => exact execRleRead_sameOutside hm h
  | lzDecode => exact execLzDecode_sameOutside hm h
  | planarUnpack => exact execPlanarUnpack_sameOutside hm h
  | planarRes => exact execPlanarRes_sameOutside hm h
  | fieldSplit => exact execFieldSplit_sameOutside hm h
  | maskBuild => exact execMaskBuild_sameOutside hm h
  | rleLit | rleNop | rleRep | lzLit | lzMatch | lzM0 | lzM1 | lzM2 | lzM3S | lzM3L => cases hi

end Sys2Proof.Machine

/-! The encoding family: the decoders and the encoder are each other's inverse; a command line of the assembler issues
its command; an illegal word or operand is BadCommand; PLANAR_RES, FIELD_SPLIT and LZ_DECODE on legal input. -/

namespace Sys2Proof

/-! ### The command word -/

/-- A word whose bits 31:8 are 0 is its low byte. -/
theorem eq_setWidth_of_high_zero {w : Word} (h : w.extractLsb' 8 24 = 0#24) : ∃ op : Byte, w = op.setWidth 32 := by
  have hdiv : w.toNat / 2 ^ 8 = 0 := by
    have := congrArg BitVec.toNat h
    rw [BitVec.extractLsb'_toNat, Nat.shiftRight_eq_div_pow, BitVec.toNat_ofNat] at this
    have := w.isLt
    omega
  refine ⟨w.setWidth 8, BitVec.eq_of_toNat_eq ?_⟩
  simp only [BitVec.toNat_setWidth]
  omega

/-- A word that is one byte decodes as that operation code (R72). -/
theorem decodeCmd_setWidth (op : Byte) : decodeCmd (op.setWidth 32) = decodeOp op := by
  have hhigh : (op.setWidth 32).extractLsb' 8 24 = 0#24 := by
    refine BitVec.eq_of_toNat_eq ?_
    have := op.isLt
    rw [BitVec.extractLsb'_toNat, Nat.shiftRight_eq_div_pow, BitVec.toNat_setWidth, BitVec.toNat_ofNat]
    omega
  have hlow : (op.setWidth 32).extractLsb' 0 8 = op := by
    refine BitVec.eq_of_toNat_eq ?_
    have := op.isLt
    rw [BitVec.extractLsb'_toNat, Nat.shiftRight_zero, BitVec.toNat_setWidth]
    omega
  rw [decodeCmd, if_neg (not_not_intro hhigh), hlow]

theorem setWidth_eq_iff (op k : Byte) : op.setWidth 32 = k.setWidth 32 ↔ op = k := by
  refine ⟨fun h => BitVec.eq_of_toNat_eq ?_, fun h => h ▸ rfl⟩
  have := congrArg BitVec.toNat h
  have hop := op.isLt
  have hk := k.isLt
  simp only [BitVec.toNat_setWidth] at this
  omega

/-- Settles O3: a word with a bit of 31:8 set is none of the seven, and any other is its operation code. -/
theorem sevenCommandWords : Obligations.SevenCommandWords := by
  intro w
  by_cases h : w.extractLsb' 8 24 = 0#24
  · obtain ⟨op, rfl⟩ := eq_setWidth_of_high_zero h
    simp only [decodeCmd_setWidth, decodeOp, ← setWidth_eq_iff op]
    rfl
  · have hne : ∀ k : Word, k.extractLsb' 8 24 = 0#24 → w ≠ k := fun k hk hw => h (hw ▸ hk)
    rw [decodeCmd, if_pos h, if_neg (hne _ rfl), if_neg (hne _ rfl), if_neg (hne _ rfl), if_neg (hne _ rfl),
      if_neg (hne _ rfl), if_neg (hne _ rfl), if_neg (hne _ rfl)]

/-- Settles O5: ten closed words. -/
theorem specWordsDecode : Obligations.SpecWordsDecode := by
  unfold Obligations.SpecWordsDecode
  decide

/-! ### The RLE control byte -/

theorem toNat_literalByte (n : BitVec 7) : (0#1 ++ n : Byte).toNat = n.toNat := by
  rw [Machine.toNat_append_eq_add, BitVec.toNat_ofNat]; omega

theorem toNat_replicateByte (n : BitVec 7) : (1#1 ++ n : Byte).toNat = 128 + n.toNat := by
  rw [Machine.toNat_append_eq_add, BitVec.toNat_ofNat]; omega

theorem toNat_countField (b : Byte) : (b.extractLsb' 0 7).toNat = b.toNat % 128 := by
  rw [BitVec.extractLsb'_toNat, Nat.shiftRight_zero]

theorem toNat_pos_of_ne_zero {n : BitVec 7} (h : n ≠ 0#7) : 0 < n.toNat :=
  Nat.pos_of_ne_zero fun h0 => h (BitVec.eq_of_toNat_eq h0)

theorem decodeRecord_literal (n : BitVec 7) : decodeRecord (0#1 ++ n) = .rleLit n := by
  have hval := toNat_literalByte n
  have hlt := n.isLt
  have hfield : (0#1 ++ n : Byte).extractLsb' 0 7 = n :=
    BitVec.eq_of_toNat_eq (by rw [toNat_countField]; omega)
  rw [decodeRecord, if_pos (by omega), hfield]

theorem decodeRecord_replicate {n : BitVec 7} (h : n ≠ 0#7) : decodeRecord (1#1 ++ n) = .rleRep n := by
  have hval := toNat_replicateByte n
  have hlt := n.isLt
  have hpos := toNat_pos_of_ne_zero h
  have hfield : (1#1 ++ n : Byte).extractLsb' 0 7 = n :=
    BitVec.eq_of_toNat_eq (by rw [toNat_countField]; omega)
  rw [decodeRecord, if_neg (by omega), if_neg (by omega), hfield]

/-- Every control byte is a literal run's, the no-op, or a replicate run's with a field that is not 0 (R79). -/
theorem controlByte_cases (b : Byte) :
    (∃ n : BitVec 7, b = 0#1 ++ n) ∨ b = 0x80#8 ∨ ∃ n : BitVec 7, n ≠ 0#7 ∧ b = 1#1 ++ n := by
  have hlt := b.isLt
  have hfield := toNat_countField b
  obtain h | h | h : b.toNat ≤ 127 ∨ b.toNat = 128 ∨ 129 ≤ b.toNat := by omega
  · exact .inl ⟨b.extractLsb' 0 7, BitVec.eq_of_toNat_eq (by rw [toNat_literalByte]; omega)⟩
  · exact .inr (.inl (BitVec.eq_of_toNat_eq h))
  · refine .inr (.inr ⟨b.extractLsb' 0 7, fun h0 => ?_, BitVec.eq_of_toNat_eq (by rw [toNat_replicateByte]; omega)⟩)
    rw [h0, BitVec.toNat_ofNat] at hfield
    omega

/-- Settles O4: the three kinds of control byte, each with its field. -/
theorem controlByteKinds : Obligations.ControlByteKinds := by
  intro b
  obtain ⟨n, rfl⟩ | rfl | ⟨n, hn, rfl⟩ := controlByte_cases b
  · have hval := toNat_literalByte n
    have hlt := n.isLt
    exact ⟨fun _ => ⟨n, decodeRecord_literal n, hval.symm⟩, fun h => by omega, fun h => by omega⟩
  · exact ⟨fun h => absurd h (by decide), fun _ => rfl, fun h => absurd h (by decide)⟩
  · have hval := toNat_replicateByte n
    have hpos := toNat_pos_of_ne_zero hn
    exact ⟨fun h => by omega, fun h => by omega, fun _ => ⟨n, decodeRecord_replicate hn, hn, by omega⟩⟩

/-! ### The LZ codes -/

theorem decodeControl_literal (k : Nat) {g : BitVec 2} (hg : g ≠ 3#2) (rest : List Bool) :
    decodeControl (false :: ext2Bits k g ++ rest) = some (.lzLit k g, rest) := by
  rw [List.cons_append, decodeControl, readExt2_ext2Bits k g hg]; rfl

/-- An offset of the width `n` and its length groups are read back (R175). -/
theorem takeBits_readExt3_append {n : Nat} {off : List Bool} (hn : n = off.length) (k : Nat) {g : BitVec 3}
    (hg : g ≠ 7#3) (rest : List Bool) (f : List Bool → Nat → BitVec 3 → Instr) :
    ((takeBits n (off ++ ext3Bits k g ++ rest)).bind fun p =>
      (readExt3 p.2).map fun q => (f p.1 q.1 q.2.1, q.2.2)) = some (f off k g, rest) := by
  rw [hn, List.append_assoc, takeBits_append, Option.bind_some, readExt3_ext3Bits k g hg]; rfl

/-- Settles O1: each row of the table is read back by the decoder of the one place it fits. -/
theorem decodeInvertsEncode : Obligations.DecodeInvertsEncode := by
  intro i p rest hwf hfit
  cases i with
  | rleOpen | rleRead | lzDecode | planarUnpack | planarRes | fieldSplit | maskBuild =>
    obtain rfl := eq_of_beq hfit
    rfl
  | rleLit n =>
    obtain rfl := eq_of_beq hfit
    rw [encode, decodeAt, decodeRecord_literal]
  | rleNop =>
    obtain rfl := eq_of_beq hfit
    rfl
  | rleRep n =>
    obtain rfl := eq_of_beq hfit
    rw [encode, decodeAt, decodeRecord_replicate (by simpa [Instr.wf] using hwf)]
  | lzLit k g =>
    obtain rfl := eq_of_beq hfit
    exact decodeControl_literal k (by simpa [Instr.wf] using hwf) rest
  | lzMatch =>
    obtain rfl := eq_of_beq hfit
    rfl
  | lzM0 off | lzM1 off | lzM2 off =>
    cases p with
    | command | record | control => cases hfit
    | selector t =>
      have hwidth := eq_of_beq hfit
      simp only [encode, decodeAt, List.cons_append, decodeMatch, hwidth, takeBits_append, Option.map_some]
  | lzM3S off k g =>
    cases p with
    | command | record | control => cases hfit
    | selector t =>
      obtain ⟨hoff, hg⟩ : off.length = 7 ∧ g ≠ 7#3 := by simpa [Instr.wf] using hwf
      exact takeBits_readExt3_append hoff.symm k hg rest .lzM3S
  | lzM3L off k g =>
    cases p with
    | command | record | control => cases hfit
    | selector t =>
      obtain ⟨-, hg⟩ : off.length ≤ 255 ∧ g ≠ 7#3 := by simpa [Instr.wf] using hwf
      exact takeBits_readExt3_append (eq_of_beq hfit) k hg rest .lzM3L

/-- What a decoder read at `p` from the bits: an instruction that belongs there, whose code is the front of them. -/
structure ReadsBack (p : Place) (bits : List Bool) (i : Instr) (rest : List Bool) : Prop where
  wf : i.wf = true
  fits : fitsAt p i = true
  bits : bits = (encode i).streamBits ++ rest

theorem decodeCmd_readsBack {w : Word} {i : Instr} (h : decodeCmd w = some i) (rest : List Bool) :
    ReadsBack .command rest i rest ∧ encode i = .word w := by
  rw [sevenCommandWords w] at h
  split_ifs at h
  all_goals
    subst w
    cases h
    exact ⟨⟨rfl, rfl, rfl⟩, rfl⟩

theorem decodeRecord_readsBack (b : Byte) (rest : List Bool) :
    ReadsBack .record rest (decodeRecord b) rest ∧ encode (decodeRecord b) = .byte b := by
  obtain ⟨n, rfl⟩ | rfl | ⟨n, hn, rfl⟩ := controlByte_cases b
  · rw [decodeRecord_literal]
    exact ⟨⟨rfl, rfl, rfl⟩, rfl⟩
  · exact ⟨⟨rfl, rfl, rfl⟩, rfl⟩
  · rw [decodeRecord_replicate hn]
    exact ⟨⟨by simpa [Instr.wf] using hn, rfl, rfl⟩, rfl⟩

theorem decodeControl_readsBack {bits rest : List Bool} {i : Instr} (h : decodeControl bits = some (i, rest)) :
    ReadsBack .control bits i rest := by
  rcases bits with - | ⟨_ | _, bits⟩
  · cases h
  · simp only [decodeControl, Option.map_eq_some_iff] at h
    obtain ⟨q, hq, h⟩ := h
    cases h
    obtain ⟨hbits, hg⟩ := readExt2_eq_some hq
    exact ⟨by simpa [Instr.wf] using hg, rfl, congrArg (false :: ·) hbits⟩
  · cases h
    exact ⟨rfl, rfl, rfl⟩

/-- An offset and length groups that were read are the front of the bits (R175). -/
theorem takeBits_readExt3_eq_some {n : Nat} {bits rest : List Bool} {i : Instr} {f : List Bool → Nat → BitVec 3 → Instr}
    (h : ((takeBits n bits).bind fun p => (readExt3 p.2).map fun q => (f p.1 q.1 q.2.1, q.2.2)) = some (i, rest)) :
    ∃ off k g, i = f off k g ∧ off.length = n ∧ g ≠ 7#3 ∧ bits = off ++ ext3Bits k g ++ rest := by
  obtain ⟨p, hp, h⟩ := Option.bind_eq_some_iff.1 h
  obtain ⟨q, hq, h⟩ := Option.map_eq_some_iff.1 h
  cases h
  obtain ⟨rfl, hlen⟩ := takeBits_eq_some hp
  obtain ⟨hext, hg⟩ := readExt3_eq_some hq
  exact ⟨p.1, q.1, q.2.1, rfl, hlen, hg, by rw [List.append_assoc, ← hext]⟩

/-- An offset as wide as a byte of the table says is legal there (R81). -/
theorem offset_of_width {w : Byte} {off : List Bool} (h : off.length = w.toNat) :
    off.length ≤ 255 ∧ (w.toNat == off.length) = true := by
  have hlt := w.isLt
  exact ⟨by omega, beq_iff_eq.2 h.symm⟩

theorem decodeMatch_readsBack {t : Widths} {bits rest : List Bool} {i : Instr}
    (h : decodeMatch t bits = some (i, rest)) : ReadsBack (.selector t) bits i rest := by
  unfold decodeMatch at h
  split at h
  case h_1 | h_2 | h_3 =>
    obtain ⟨q, hq, h⟩ := Option.map_eq_some_iff.1 h
    cases h
    obtain ⟨rfl, hlen⟩ := takeBits_eq_some hq
    obtain ⟨hle, hfit⟩ := offset_of_width hlen
    exact ⟨decide_eq_true hle, hfit, rfl⟩
  case h_4 =>
    obtain ⟨off, k, g, rfl, hlen, hg, rfl⟩ := takeBits_readExt3_eq_some h
    exact ⟨by simp [Instr.wf, hlen, hg], rfl, rfl⟩
  case h_5 =>
    obtain ⟨off, k, g, rfl, hlen, hg, rfl⟩ := takeBits_readExt3_eq_some h
    obtain ⟨hle, hfit⟩ := offset_of_width hlen
    exact ⟨by simp [Instr.wf, hle, hg], hfit, rfl⟩
  case h_6 => cases h

/-- Settles O2: at each place, what was read is the front of what was given. -/
theorem encodeInvertsDecode : Obligations.EncodeInvertsDecode := by
  intro p c rest i rest' h
  cases p with
  | command =>
    cases c with
    | byte | bits => cases h
    | word w =>
      obtain ⟨j, hj, h⟩ := Option.map_eq_some_iff.1 h
      cases h
      obtain ⟨⟨hwf, hfit, hbits⟩, hcode⟩ := decodeCmd_readsBack hj rest
      exact ⟨hwf, hfit, hbits, fun _ => ⟨hcode, rfl⟩⟩
  | record =>
    cases c with
    | word | bits => cases h
    | byte b =>
      cases h
      obtain ⟨⟨hwf, hfit, hbits⟩, hcode⟩ := decodeRecord_readsBack b rest
      exact ⟨hwf, hfit, hbits, fun _ => ⟨hcode, rfl⟩⟩
  | control =>
    cases c with
    | word | byte => cases h
    | bits l =>
      obtain ⟨hwf, hfit, hbits⟩ := decodeControl_readsBack h
      exact ⟨hwf, hfit, hbits, fun hp => by simp at hp⟩
  | selector t =>
    cases c with
    | word | byte => cases h
    | bits l =>
      obtain ⟨hwf, hfit, hbits⟩ := decodeMatch_readsBack h
      exact ⟨hwf, hfit, hbits, fun hp => by simp at hp⟩

end Sys2Proof

namespace Sys2Proof.Machine

open Sys2Proof.Claims Sys2Proof.Reference

/-! ### A command line of the assembler -/

/-- The argument registers after writes of the words from ARG`i` on. -/
def Args.setFrom (r : Args) (i : Nat) : List Word → Args
  | [] => r
  | v :: vs => (r.set i v).setFrom (i + 1) vs

theorem Args.get_setFrom (r : Args) {i : Nat} {vs : List Word} (h : i + vs.length ≤ 8) {j : Nat} (hj : j < 8) :
    (r.setFrom i vs).get j = if i ≤ j ∧ j < i + vs.length then vs.getD (j - i) 0 else r.get j := by
  induction vs generalizing r i with
  | nil => rw [if_neg (by simp only [List.length_nil]; omega)]; rfl
  | cons v vs ih =>
    rw [List.length_cons] at h ⊢
    rw [Args.setFrom, ih _ (by omega), Args.get_set r (by omega) hj]
    obtain hji | hji | hji : j < i ∨ j = i ∨ i < j := by omega
    · rw [if_neg (by omega), if_neg (by omega), if_neg (by omega)]
    · subst hji
      simp
    · obtain ⟨k, rfl⟩ : ∃ k, j = i + 1 + k := ⟨j - (i + 1), by omega⟩
      rw [if_neg (show ¬i + 1 + k = i by omega), show i + 1 + k - i = k + 1 by omega, List.getD_cons_succ,
        Nat.add_sub_cancel_left]
      congr 1
      simp only [eq_iff_iff]
      omega

/-- The operand writes of a command line set the argument registers in order and use up their turns (R100, R119). -/
theorem run_wrOperands {s : State} {i : Nat} {vs : List Word} {ts : List Turn} (hi : s.engine = .idle)
    (hlen : i + vs.length ≤ 8) (ht : s.turns = wrOperands s.cfg i vs ++ ts) :
    Sys2Proof.core.run vs.length s = .next { s with turns := ts, arg := s.arg.setFrom i vs } := by
  induction vs generalizing s i with
  | nil =>
    subst ht
    rfl
  | cons v vs ih =>
    rw [List.length_cons] at hlen
    have hstep := step_regWrite hi ht (show 0x10 + 4 * i < 0x100 by omega) (by omega)
    rw [writeReg_arg _ (by omega)] at hstep
    rw [List.length_cons, core_run_of_next _ hstep]
    exact ih hi (by omega) rfl

/-- A command line is the writes of its operands, which fit the argument registers, and then of CMD (R74, R100). -/
theorem turns_of_commandLine {line : HostStmt} {op : Word} {vs : List Word} (h : commandLine line = some (op, vs))
    (c : Config) : line.turns c = wrOperands c 0 vs ++ [wrTurn c 0x04 op] ∧ vs.length ≤ 8 := by
  cases line with
  | wr | rd | wait | check | poke | peek => cases h
  | rleOpen | rleRead | lzDecode | planarUnpack | planarRes | fieldSplit | maskBuild =>
    cases h
    exact ⟨rfl, by simp⟩

@[simp] theorem wrOperands_length (c : Config) (i : Nat) (vs : List Word) : (wrOperands c i vs).length = vs.length := by
  induction vs generalizing i with
  | nil => rfl
  | cons v vs ih => rw [wrOperands, List.length_cons, ih, List.length_cons]

/-- Settles O15: the operand writes fill the argument registers, and the CMD write latches them. -/
theorem commandLineIssuesItsCommand : Obligations.CommandLineIssuesItsCommand := by
  intro s line op vs ts hi hb hline ht
  obtain ⟨hturns, hlen⟩ := turns_of_commandLine hline s.cfg
  rw [hturns, List.append_assoc] at ht
  have hwrites := run_wrOperands hi (by omega) ht
  have hcmd := step_regWrite (off := 0x04) (v := op) (ts := ts)
    (s := { s with turns := [wrTurn s.cfg 0x04 op] ++ ts, arg := s.arg.setFrom 0 vs }) hi rfl (by decide) (by decide)
  have hissue : State.writeReg { s with turns := ts, arg := s.arg.setFrom 0 vs } 0x04 op =
      State.issue { s with turns := ts, arg := s.arg.setFrom 0 vs } op := rfl
  rw [hissue, State.issue, if_neg (by rw [hb]; decide)] at hcmd
  have hrun := (core_run_add hwrites 1).trans (core_run_of_next 0 hcmd)
  have hlines : (line.turns s.cfg).length = vs.length + 1 := by simp [hturns]
  rw [hlines]
  exact ⟨_, hrun, rfl, rfl, rfl, rfl,
    fun j hj => (s.arg.get_setFrom (by omega) (by omega)).trans (if_pos (by omega)), rfl⟩

/-! ### Illegal words and operands -/

/-- The operation codes of R73 are all there are. -/
theorem decodeCmd_eq_none {w : Word}
    (h : w.toNat / 256 ≠ 0 ∨ w.toNat % 256 ∉ [0x01, 0x02, 0x10, 0x20, 0x21, 0x30, 0x40]) : decodeCmd w = none := by
  cases hd : decodeCmd w with
  | none => rfl
  | some i =>
    obtain ⟨-, hcode⟩ := decodeCmd_readsBack hd []
    cases i with
    | rleOpen | rleRead | lzDecode | planarUnpack | planarRes | fieldSplit | maskBuild =>
      cases hcode
      exact absurd h (by decide)
    | rleLit | rleNop | rleRep | lzLit | lzMatch | lzM0 | lzM1 | lzM2 | lzM3S | lzM3L => cases hcode

/-- Settles O22: such a word decodes to no command, and the ENGINE's completion of it is the raise alone. -/
theorem illegalWordIsBadCommand : Obligations.IllegalWordIsBadCommand := by
  intro s ts hi hb ht hw
  have hnone := decodeCmd_eq_none hw
  rw [step_of_turn hi ht]
  simp only [takeTurn, engineTurn, hb, if_true, completion, hnone, failed_eq_raise]

/-- FLAGS is legal when no bit but HAS_FC is set (R74). -/
theorem flags_high_zero_iff (w : Word) : w.extractLsb' 1 31 = 0#31 ↔ w.toNat / 2 = 0 := by
  have hval : (w.extractLsb' 1 31).toNat = w.toNat / 2 := by
    have := w.isLt
    rw [BitVec.extractLsb'_toNat, Nat.shiftRight_eq_div_pow]
    omega
  rw [← BitVec.toNat_inj, hval, BitVec.toNat_ofNat, Nat.zero_mod]

theorem planarUnpack_legal_iff (s : State) :
    operandsLegal .planarUnpack s = true ↔
      1 ≤ s.operand 2 ∧ s.operand 2 ≤ 8 ∧ s.operand 4 * s.operand 3 * 8 ≤ s.operand 5 := by
  simp only [operandsLegal, Bool.and_eq_true, decide_eq_true_eq, and_assoc]
  rfl

theorem planarRes_legal_iff (s : State) :
    operandsLegal .planarRes s = true ↔ s.operand 3 / 2 = 0 ∧ 1 ≤ s.operand 2 ∧ s.operand 2 ≤ 8 := by
  rw [← show s.larg.a3.toNat = s.operand 3 from rfl, ← flags_high_zero_iff]
  simp only [operandsLegal, Bool.and_eq_true, beq_iff_eq, decide_eq_true_eq, and_assoc]
  rfl

theorem fieldSplit_legal_iff (s : State) :
    operandsLegal .fieldSplit s = true ↔ s.operand 2 + s.operand 1 ≤ s.operand 6 := by
  simp [operandsLegal]

/-- A command whose operand checks fail ends there (R114). -/
theorem exec_of_not_legal {i : Instr} {s : State} (hi : i.isCommand = true) (h : ¬operandsLegal i s = true) :
    exec i s = .next (failed .badCommand s) := by
  obtain ⟨body, hexec⟩ := exec_command hi
  rw [hexec, guarded, if_neg h, failed_eq_raise]

/-- Settles O24: each list of values is the negation of the command's operand check. -/
theorem illegalOperandIsBadCommand : Obligations.IllegalOperandIsBadCommand := by
  refine fun s => ⟨fun h => exec_of_not_legal rfl ?_, fun h => exec_of_not_legal rfl ?_,
    fun h => exec_of_not_legal rfl ?_, fun h => exec_of_not_legal rfl ?_⟩
  · simpa [operandsLegal] using h
  · rw [planarUnpack_legal_iff]; omega
  · rw [planarRes_legal_iff]; omega
  · rw [fieldSplit_legal_iff]; omega

/-! ### The match codes -/

/-- Settles O42: the code of LZ.MATCH is one bit. -/
theorem lzMatchBitIsConsumed : Obligations.LzMatchBitIsConsumed := by
  intro s x he
  rw [exec, execLzMatch, he]
  rfl

/-- What may stand at a match position is a match, run with its own length and offset (R174, R175). -/
theorem exec_of_fitsAt_selector {t : Widths} {i : Instr} (h : fitsAt (.selector t) i = true) (s : State) :
    exec i s = runMatch (codeLength i) (matchLength i) (matchOffset i) s := by
  cases i with
  | lzM0 | lzM1 | lzM2 | lzM3S | lzM3L => rfl
  | rleOpen | rleRead | lzDecode | planarUnpack | planarRes | fieldSplit | maskBuild | rleLit | rleNop | rleRep | lzLit
  | lzMatch => cases h

/-- Settles O44: a match is validated before its copy begins. -/
theorem lzBadOffsetIsCorrupt : Obligations.LzBadOffsetIsCorrupt := by
  intro s x i he hfit hoff
  rw [exec_of_fitsAt_selector hfit, runMatch_inflating he, if_neg (Nat.not_lt.2 hoff), failed_eq_raise]

end Sys2Proof.Machine

namespace Sys2Proof.Machine

open Sys2Proof.Claims

/-! ### PLANAR: the pixels of `Unpack` -/

/-- A byte that no later body of a loop writes is as its own body left it. -/
theorem read_forN_of_last {n j a : Nat} {f : Nat → Memory → Memory} {lo hi : Nat → Nat} {m : Memory}
    (hf : ∀ i, i < n → Local (lo i) (hi i) (f i)) (hm : Memory.wf m = true) (hj : j < n)
    (ha : ∀ i, j < i → i < n → ¬(lo i ≤ a ∧ a < hi i)) :
    Memory.read (forN n f m) a = Memory.read (f j (forN j f m)) a := by
  induction n with
  | zero => omega
  | succ n ih =>
    obtain rfl | hlt := Nat.eq_or_lt_of_le (Nat.le_of_lt_succ hj)
    · rfl
    · have hwf := forN_keeps (fun m => Memory.wf m = true) n f m hm fun i y hi => (hf i (by omega)).wf y
      rw [forN_succ, (hf n (by omega)).outside _ hwf _ (ha n hlt (by omega))]
      exact ih (fun i hi => hf i (by omega)) hlt fun i hji hi => ha i hji (by omega)

/-- Bit `k` of a pixel gathered from plane `p` on is bit `bit` of the plane byte it stands for (R202). -/
theorem getLsbD_gatherBits (q : List Byte) (bit p : Nat) {k : Nat} (hk : k < 8) :
    (gatherBits q bit p).getLsbD k = (decide (p ≤ k) && (q.getD (k - p) 0).getLsbD bit) := by
  induction q generalizing p with
  | nil => simp [gatherBits]
  | cons b q ih =>
    rw [gatherBits, BitVec.getLsbD_or, ih, BitVec.getLsbD_shiftLeft, BitVec.getLsbD_setWidth, BitVec.getLsbD_ofBool]
    obtain h | rfl | h : k < p ∨ k = p ∨ p < k := by omega
    · simp [h, show ¬p ≤ k by omega, show ¬p + 1 ≤ k by omega]
    · simp [hk]
    · obtain ⟨d, rfl⟩ : ∃ d, k = p + 1 + d := ⟨k - (p + 1), by omega⟩
      rw [show p + 1 + d - p = d + 1 by omega, show p + 1 + d - (p + 1) = d by omega, List.getD_cons_succ]
      simp [show p ≤ p + 1 + d by omega]

/-- Bit `p` of pixel `i` of a column is bit 7 − i of the byte of plane `p`; planes that are not there give 0 (R202). -/
theorem getLsbD_columnPixels (m : Memory) (a ps planes : Nat) {i p : Nat} (hi : i < 8) (hp : p < 8) :
    ((columnPixels (planeBytes m a ps planes)).getD i 0).getLsbD p =
      (decide (p < planes) && (Memory.read m (a + p * ps)).getLsbD (7 - i)) := by
  have hpixel : ∀ q : List Byte, (columnPixels q).getD i 0 = gatherBits q (7 - i) 0 := fun q => by
    interval_cases i <;> rfl
  rw [hpixel, getLsbD_gatherBits _ _ _ hp, Nat.sub_zero, List.getD_eq_getElem?_getD, getElem?_planeBytes]
  by_cases h : p < planes
  · simp [h]
  · simp [h]

/-- The pixels of a frame, where the plane bytes of their column lie outside its output (R202). -/
theorem getLsbD_read_unpackFrame {src dst planes ps j i p : Nat} {m : Memory} (hm : Memory.wf m = true) (hj : j < ps)
    (hi : i < 8) (hp : p < 8)
    (hsep : p < planes → ¬(dst ≤ src + j + p * ps ∧ src + j + p * ps < dst + ps * 8)) :
    (Memory.read (unpackFrame src dst planes ps m) (dst + 8 * j + i)).getLsbD p =
      (decide (p < planes) && (Memory.read m (src + j + p * ps)).getLsbD (7 - i)) := by
  have hcolumn : ∀ k, Local (dst + 8 * k) (dst + 8 * k + 8)
      (fun m => Memory.writeList m (dst + 8 * k) (columnPixels (planeBytes m (src + k) ps planes))) := fun k =>
    local_writeList _ 8 _ fun m => by simp
  have hbefore : Local dst (dst + ps * 8) (forN j fun k m =>
      Memory.writeList m (dst + 8 * k) (columnPixels (planeBytes m (src + k) ps planes))) :=
    Local.forN fun k hk => (hcolumn k).mono (by omega) (by omega)
  rw [unpackFrame, read_forN_of_last (fun k _ => hcolumn k) hm hj fun k _ _ => by omega,
    Memory.read_writeList (hbefore.wf m hm), columnPixels_length, if_pos (by omega), Nat.add_sub_cancel_left,
    getLsbD_columnPixels _ _ _ _ hi hp]
  by_cases h : p < planes
  · rw [hbefore.outside m hm _ (hsep h)]
  · simp [h]

theorem frame_end_le {f frames ps : Nat} (hf : f < frames) : f * ps * 8 + ps * 8 ≤ frames * ps * 8 := by
  have := Nat.mul_le_mul_right ps (Nat.succ_le_of_lt hf)
  rw [Nat.succ_mul] at this
  omega

/-- The plane bytes of the frames follow one another in FC·PC·PS source bytes (R202). -/
theorem plane_byte_lt {f fc j ps p pc : Nat} (hf : f < fc) (hj : j < ps) (hp : p < pc) :
    f * ps * pc + j + p * ps < fc * pc * ps := by
  have hplane := Nat.mul_le_mul_right ps (Nat.succ_le_of_lt hp)
  have hframe := Nat.mul_le_mul_right (pc * ps) (Nat.succ_le_of_lt hf)
  rw [Nat.succ_mul] at hplane hframe
  rw [Nat.mul_assoc f, Nat.mul_comm ps pc, Nat.mul_assoc fc]
  omega

/-- The pixels of `Unpack` from planes that do not meet the output (R202). -/
theorem getLsbD_read_unpack {src dst planes ps frames f j i p : Nat} {m : Memory} (hm : Memory.wf m = true)
    (hf : f < frames) (hj : j < ps) (hi : i < 8) (hp : p < 8)
    (hsep : Apart ⟨src, frames * planes * ps⟩ ⟨dst, frames * ps * 8⟩) :
    (Memory.read (unpack src dst planes ps frames m) (dst + f * ps * 8 + 8 * j + i)).getLsbD p =
      (decide (p < planes) && (Memory.read m (src + f * ps * planes + j + p * ps)).getLsbD (7 - i)) := by
  have hbefore := local_unpack src dst planes ps f
  have hplane : p < planes → ¬(dst ≤ src + f * ps * planes + j + p * ps ∧
      src + f * ps * planes + j + p * ps < dst + frames * ps * 8) := fun h hin =>
    have := plane_byte_lt hf hj h
    hsep _ ⟨⟨by simp only; omega, by simp only; omega⟩, hin⟩
  have hend := frame_end_le (ps := ps) hf
  have hlater : ∀ g, f < g → g < frames →
      ¬(dst + g * ps * 8 ≤ dst + f * ps * 8 + 8 * j + i ∧ dst + f * ps * 8 + 8 * j + i < dst + g * ps * 8 + ps * 8) :=
    fun g hfg _ => by
      have := frame_end_le (ps := ps) hfg
      omega
  have hlast : Memory.read (unpack src dst planes ps frames m) (dst + f * ps * 8 + 8 * j + i) =
      Memory.read (unpackFrame (src + f * ps * planes) (dst + f * ps * 8) planes ps (unpack src dst planes ps f m))
        (dst + f * ps * 8 + 8 * j + i) :=
    read_forN_of_last (fun g _ => local_unpackFrame _ (dst + g * ps * 8) planes ps) hm hf hlater
  rw [hlast, getLsbD_read_unpackFrame (hbefore.wf m hm) hj hi hp fun h => by have := hplane h; omega]
  by_cases h : p < planes
  · have := hplane h
    rw [hbefore.outside m hm _ (by omega)]
  · simp [h]

/-! ### PLANAR_RES -/

theorem State.hasFrameCount_eq (s : State) : s.hasFrameCount = decide (s.operand 3 % 2 = 1) :=
  Nat.testBit_zero s.larg.a3.toNat

/-- The header in the form that FLAGS says (R86). -/
theorem readHeader_of_flags {s : State} {h fc w ht : Nat} (hflags : s.operand 3 / 2 = 0)
    (h1 : s.operand 3 = 1 → h = 3 ∧ fc = (Memory.read s.mem (s.operand 0)).toNat ∧
      w = (Memory.read s.mem (s.operand 0 + 1)).toNat ∧ ht = (Memory.read s.mem (s.operand 0 + 2)).toNat)
    (h0 : s.operand 3 = 0 → h = 2 ∧ fc = 1 ∧ w = (Memory.read s.mem (s.operand 0)).toNat ∧
      ht = (Memory.read s.mem (s.operand 0 + 1)).toNat) :
    headerBytes s.hasFrameCount = h ∧ readHeader s.mem (s.operand 0) s.hasFrameCount = ⟨h, fc, w, ht⟩ := by
  rw [State.hasFrameCount_eq]
  obtain hf | hf : s.operand 3 = 0 ∨ s.operand 3 = 1 := by omega
  · obtain ⟨rfl, rfl, rfl, rfl⟩ := h0 hf
    simp [hf, headerBytes, readHeader]
  · obtain ⟨rfl, rfl, rfl, rfl⟩ := h1 hf
    simp [hf, headerBytes, readHeader]

/-- The header's fields are bytes (R86). -/
theorem readHeader_lt (m : Memory) (src : Nat) (hasFc : Bool) :
    (readHeader m src hasFc).frames < 256 ∧ (readHeader m src hasFc).width < 256 ∧
      (readHeader m src hasFc).height < 256 := by
  cases hasFc
  · exact ⟨(by decide : 1 < 256), BitVec.isLt _, BitVec.isLt _⟩
  · exact ⟨BitVec.isLt _, BitVec.isLt _, BitVec.isLt _⟩

/-- RESULT1 of PLANAR_RES as a number (R75). -/
theorem PlanarHeader.word_eq {h : PlanarHeader} (hf : h.frames < 256) (hw : h.width < 256) (hh : h.height < 256) :
    h.word = BitVec.ofNat 32 (h.width + 256 * h.height + 65536 * h.frames) := by
  refine BitVec.eq_of_toNat_eq ?_
  simp only [PlanarHeader.word, toNat_append_eq_add, BitVec.toNat_ofNat]
  omega

theorem regWord_of_lt {v : Nat} (h : v < 2 ^ 32) : regWord v = BitVec.ofNat 32 v := if_pos h

theorem State.operand_lt (s : State) (i : Nat) : s.operand i < 2 ^ 32 := BitVec.isLt _

/-- PLANAR_RES on an admitted resource that is whole and fits (R204). -/
theorem execPlanarRes_of_whole {s : State} {h : PlanarHeader} (hl : operandsLegal .planarRes s = true)
    (hadm : Admitted s (sourceWindows .planarRes s) (destWindows .planarRes s))
    (hlen : headerBytes s.hasFrameCount = h.bytes) (hhead : readHeader s.mem (s.operand 0) s.hasFrameCount = h)
    (hw : h.width % 8 = 0) (hcap : h.frames * h.planeSize * 8 ≤ s.operand 4)
    (hwhole : h.bytes + h.frames * s.operand 2 * h.planeSize ≤ s.operand 5) :
    execPlanarRes s =
      .next ({ s with
          mem := unpack (s.operand 0 + h.bytes) (s.operand 1) (s.operand 2) h.planeSize h.frames s.mem }.complete
        .none (BitVec.ofNat 32 (h.frames * h.planeSize * 8))
          (BitVec.ofNat 32 (h.width + 256 * h.height + 65536 * h.frames)) (BitVec.ofNat 32 h.planeSize)) := by
  obtain ⟨hf8, hw8, hh8⟩ := hhead ▸ readHeader_lt s.mem (s.operand 0) s.hasFrameCount
  have hplane : h.planeSize < 2 ^ 32 :=
    (Nat.mul_le_mul ((Nat.div_le_self h.width 8).trans hw8.le) hh8.le).trans_lt (by decide)
  rw [execPlanarRes, guarded_of_admitted hl hadm]
  simp only [hlen, hhead]
  rw [if_neg (by omega), if_neg (not_not_intro hw), if_neg (by omega), if_neg (by omega),
    regWord_of_lt (hcap.trans_lt (s.operand_lt 4)), regWord_of_lt hplane, PlanarHeader.word_eq hf8 hw8 hh8]

/-- Settles O49: past the checks of R204 the effect is `Unpack` of the planes, and the results are the header's. -/
theorem planarResSetsPixels : Obligations.PlanarResSetsPixels := by
  intro s h fc w ht src dst pc byte ps hm hflags hpc1 hpc8 h1 h0 hw hcap hwhole hadm
  obtain ⟨hlen, hhead⟩ := readHeader_of_flags hflags h1 h0
  have hexec := execPlanarRes_of_whole ((planarRes_legal_iff s).2 ⟨hflags, hpc1, hpc8⟩) hadm hlen hhead hw hcap hwhole
  obtain ⟨hrest, hrle, hsig⟩ := complete_frame s (unpack (src + h) dst pc ps fc s.mem) .none
    (BitVec.ofNat 32 (fc * ps * 8)) (BitVec.ofNat 32 (w + 256 * ht + 65536 * fc)) (BitVec.ofNat 32 ps)
  have happart : Apart ⟨src, s.operand 5⟩ ⟨dst, s.operand 4⟩ :=
    hadm.noOverlap.1 _ (List.mem_singleton_self _) _ (List.mem_singleton_self _)
  have hsep : Apart ⟨src + h, fc * pc * ps⟩ ⟨dst, fc * ps * 8⟩ := fun a ⟨hsrc, hdst⟩ =>
    happart a ⟨⟨(Nat.le_add_right _ _).trans hsrc.1, by have := hsrc.2; simp only at this ⊢; omega⟩,
      in_of_len_le hcap hdst⟩
  exact ⟨_, hexec, ⟨rfl, rfl, rfl, rfl, rfl, rfl, rfl, hrest⟩, hrle, hsig,
    fun f j i p hf hj hi hp => getLsbD_read_unpack hm hf hj hi hp hsep, (local_unpack _ _ _ _ _).sameOutside hm rfl⟩

end Sys2Proof.Machine

namespace Sys2Proof.Machine

open Sys2Proof.Claims

/-! ### SPLIT: the bits of FIELD_SPLIT -/

theorem Memory.read_orAt {m : Memory} (hm : Memory.wf m = true) (a : Nat) (v : Byte) (b : Nat) :
    Memory.read (Memory.orAt m a v) b = Memory.read m b ||| if b = a then v else 0 := by
  rw [Memory.orAt, Memory.read_write hm]
  by_cases h : b = a
  · rw [if_pos h, if_pos h, h]
  · rw [if_neg h, if_neg h]; simp

theorem getLsbD_colourField (b : Byte) {k : Nat} (hk : k < 8) :
    (colourField b).getLsbD k = (decide (k < 5) && b.getLsbD k) := by
  simp [colourField, BitVec.getLsbD_extractLsb', hk]

theorem getLsbD_maskField (b : Byte) (j : Nat) {k : Nat} (hk : k < 8) :
    (maskField b j).getLsbD k = (decide (k / 2 = j % 4) && b.getLsbD (5 + k % 2)) := by
  simp only [maskField, BitVec.getLsbD_shiftLeft, BitVec.getLsbD_setWidth, BitVec.getLsbD_extractLsb', hk,
    show k - 2 * (j % 4) < 8 by omega, decide_true, Bool.true_and]
  obtain h | h | h : k < 2 * (j % 4) ∨ k / 2 = j % 4 ∨ 2 * (j % 4) + 2 ≤ k := by omega
  · simp [h, show ¬k / 2 = j % 4 by omega]
  · have hbit : k - 2 * (j % 4) = k % 2 := by omega
    simp [hbit, show ¬k < 2 * (j % 4) by omega, h, show k % 2 < 2 by omega]
  · simp [show ¬k - 2 * (j % 4) < 2 by omega, show ¬k / 2 = j % 4 by omega]

theorem getLsbD_pathField (b : Byte) (j : Nat) {k : Nat} (hk : k < 8) :
    (pathField b j).getLsbD k = (decide (k = j % 8) && b.getLsbD 7) := by
  simp only [pathField, BitVec.getLsbD_shiftLeft, BitVec.getLsbD_setWidth, BitVec.getLsbD_extractLsb', hk,
    show k - j % 8 < 8 by omega, decide_true, Bool.true_and]
  obtain h | rfl | h : k < j % 8 ∨ k = j % 8 ∨ j % 8 < k := by omega
  · simp [h, h.ne]
  · simp
  · simp [show ¬k - j % 8 = 0 by omega, h.ne']

/-- What pixel `j` of packed byte `b` ORs into the byte at `a` (R221, R225). -/
def splitBits (cd md pd : Nat) (b : Byte) (j a : Nat) : Byte :=
  (if a = cd + j then colourField b else 0) ||| (if a = md + j / 4 then maskField b j else 0) |||
    (if a = pd + j / 8 then pathField b j else 0)

theorem read_splitPixel {m : Memory} (hm : Memory.wf m = true) (cd md pd : Nat) (b : Byte) (j a : Nat) :
    Memory.read (splitPixel cd md pd b j m) a = Memory.read m a ||| splitBits cd md pd b j a := by
  have hcolour := (local_orAt (cd + j) (colourField b)).wf m hm
  have hmask := (local_orAt (md + j / 4) (maskField b j)).wf _ hcolour
  rw [splitPixel, Memory.read_orAt hmask, Memory.read_orAt hcolour, Memory.read_orAt hm, splitBits, BitVec.or_assoc,
    BitVec.or_assoc, BitVec.or_assoc]

/-- The colour, mask and path buffers of an image of `npix` pixels (R221). -/
def splitBuffers (cd md pd npix : Nat) : List Window := [⟨cd, npix⟩, ⟨md, ceilDiv npix 4⟩, ⟨pd, ceilDiv npix 8⟩]

theorem forall_mem_splitBuffers {cd md pd npix : Nat} {P : Window → Prop} :
    (∀ w ∈ splitBuffers cd md pd npix, P w) ↔ P ⟨cd, npix⟩ ∧ P ⟨md, ceilDiv npix 4⟩ ∧ P ⟨pd, ceilDiv npix 8⟩ := by
  simp [splitBuffers]

theorem pairwise_splitBuffers {cd md pd npix : Nat} :
    (splitBuffers cd md pd npix).Pairwise Apart ↔
      Apart ⟨cd, npix⟩ ⟨md, ceilDiv npix 4⟩ ∧ Apart ⟨cd, npix⟩ ⟨pd, ceilDiv npix 8⟩ ∧
        Apart ⟨md, ceilDiv npix 4⟩ ⟨pd, ceilDiv npix 8⟩ := by
  simp [splitBuffers, and_assoc]

/-- A bit after the pixels of a call: it was set, or some pixel sets it (R221, R225). The packed bytes lie in none of
the buffers, so each is read as it was before the call. -/
theorem getLsbD_read_splitPixels {src count j0 cd md pd npix : Nat} {m : Memory} (hm : Memory.wf m = true)
    (hpix : j0 + count ≤ npix) (hsrc : ∀ i, i < count → ∀ w ∈ splitBuffers cd md pd npix, ¬In w (src + i))
    (a k : Nat) :
    (Memory.read (splitPixels src count j0 cd md pd m) a).getLsbD k = true ↔
      (Memory.read m a).getLsbD k = true ∨
        ∃ i, i < count ∧ (splitBits cd md pd (Memory.read m (src + i)) (j0 + i) a).getLsbD k = true := by
  induction count with
  | zero => simp [splitPixels]
  | succ n ih =>
    obtain ⟨hwf, hkeep⟩ := splitPixels_keeps (src := src) (count := n) (j0 := j0) (cd := cd) (md := md) (pd := pd)
      (npix := npix) (by omega) hm
    obtain ⟨hc, hk, hp⟩ := forall_mem_splitBuffers.1 (hsrc n (by omega))
    have hlast : splitPixels src (n + 1) j0 cd md pd m =
        splitPixel cd md pd (Memory.read m (src + n)) (j0 + n) (splitPixels src n j0 cd md pd m) := by
      rw [← hkeep _ hc hk hp]; rfl
    rw [hlast, read_splitPixel hwf, BitVec.getLsbD_or, Bool.or_eq_true, ih (by omega) fun i hi => hsrc i (by omega),
      or_assoc, Nat.exists_lt_succ_right]

/-- A bit that pixel `j` alone sets, by the field of its packed byte, where `j` is one of the call. -/
theorem getLsbD_read_splitPixels_own {src count j0 cd md pd npix : Nat} {m : Memory} (hm : Memory.wf m = true)
    (hpix : j0 + count ≤ npix) (hno : NoOverlap [⟨src, count⟩] (splitBuffers cd md pd npix)) {a k j : Nat}
    {field : Byte → Bool}
    (hown : ∀ b p, p < npix → ((splitBits cd md pd b p a).getLsbD k = true ↔ p = j ∧ field b = true)) :
    (Memory.read (splitPixels src count j0 cd md pd m) a).getLsbD k =
      ((Memory.read m a).getLsbD k ||
        (decide (j0 ≤ j) && decide (j < j0 + count) && field (Memory.read m (src + (j - j0))))) := by
  have hsrc : ∀ i, i < count → ∀ w ∈ splitBuffers cd md pd npix, ¬In w (src + i) := fun i hi w hw hin =>
    hno.1 _ (List.mem_singleton_self _) w hw _ ⟨⟨Nat.le_add_right _ _, Nat.add_lt_add_left hi _⟩, hin⟩
  rw [Bool.eq_iff_iff, getLsbD_read_splitPixels hm hpix hsrc]
  simp only [Bool.or_eq_true, Bool.and_eq_true, decide_eq_true_eq]
  refine or_congr_right ⟨?_, ?_⟩
  · rintro ⟨i, hi, hset⟩
    obtain ⟨rfl, hfield⟩ := (hown _ _ (by omega)).1 hset
    rw [Nat.add_sub_cancel_left]
    exact ⟨⟨by omega, by omega⟩, hfield⟩
  · rintro ⟨⟨hlo, hhi⟩, hfield⟩
    exact ⟨j - j0, by omega, (hown _ _ (by omega)).2 ⟨by omega, hfield⟩⟩

theorem ne_of_apart {v w : Window} (h : Apart v w) {a b : Nat} (ha : In v a) (hb : In w b) : a ≠ b := fun e =>
  h a ⟨ha, e ▸ hb⟩

theorem in_of_lt {b n i : Nat} (h : i < n) : In ⟨b, n⟩ (b + i) := ⟨Nat.le_add_right b i, Nat.add_lt_add_left h b⟩

theorem div_lt_ceilDiv {p n d : Nat} (hd : 0 < d) (h : p < n) : p / d < ceilDiv n d := by
  rw [ceilDiv, Nat.div_lt_iff_lt_mul hd]
  have := Nat.lt_div_mul_add (a := n + d - 1) hd
  omega

section Buffers

variable {cd md pd npix : Nat} (hbuf : (splitBuffers cd md pd npix).Pairwise Apart)
include hbuf

/-- In the colour buffer a pixel sets bits of its own byte alone (R224). -/
theorem splitBits_colour {j k : Nat} (hj : j < npix) (hk : k < 8) (b : Byte) (p : Nat) (hp : p < npix) :
    (splitBits cd md pd b p (cd + j)).getLsbD k = true ↔ p = j ∧ (decide (k < 5) && b.getLsbD k) = true := by
  obtain ⟨hcm, hcp, -⟩ := pairwise_splitBuffers.1 hbuf
  have hmask := ne_of_apart hcm (in_of_lt hj) (in_of_lt (div_lt_ceilDiv (by decide) hp))
  have hpath := ne_of_apart hcp (in_of_lt hj) (in_of_lt (div_lt_ceilDiv (by decide) hp))
  rw [splitBits, if_neg hmask, if_neg hpath, ← getLsbD_colourField b hk]
  by_cases h : p = j
  · simp [h]
  · simp [h, show ¬j = p from fun e => h e.symm]

/-- In the mask buffer a pixel sets its own pair of bits alone (R223). -/
theorem splitBits_mask {j k : Nat} (hj : j / 4 < ceilDiv npix 4) (hk : k < 2) (b : Byte) (p : Nat) (hp : p < npix) :
    (splitBits cd md pd b p (md + j / 4)).getLsbD (2 * (j % 4) + k) = true ↔ p = j ∧ b.getLsbD (5 + k) = true := by
  obtain ⟨hcm, -, hmp⟩ := pairwise_splitBuffers.1 hbuf
  have hcolour := (ne_of_apart hcm (in_of_lt hp) (in_of_lt hj)).symm
  have hpath := ne_of_apart hmp (in_of_lt hj) (in_of_lt (div_lt_ceilDiv (by decide) hp))
  rw [splitBits, if_neg hcolour, if_neg hpath]
  by_cases h : j / 4 = p / 4
  · have hpair : (2 * (j % 4) + k) / 2 = p % 4 ↔ p = j := by omega
    have hbit : (2 * (j % 4) + k) % 2 = k := by omega
    simp [h, getLsbD_maskField b p (show 2 * (j % 4) + k < 8 by omega), hpair, hbit]
  · simp [h, show ¬p = j from fun e => h (e ▸ rfl)]

/-- In the path buffer a pixel sets its own bit alone (R222). -/
theorem splitBits_path {j : Nat} (hj : j / 8 < ceilDiv npix 8) (b : Byte) (p : Nat) (hp : p < npix) :
    (splitBits cd md pd b p (pd + j / 8)).getLsbD (j % 8) = true ↔ p = j ∧ b.getLsbD 7 = true := by
  obtain ⟨-, hcp, hmp⟩ := pairwise_splitBuffers.1 hbuf
  have hcolour := (ne_of_apart hcp (in_of_lt hp) (in_of_lt hj)).symm
  have hmask := (ne_of_apart hmp (in_of_lt (div_lt_ceilDiv (by decide) hp)) (in_of_lt hj)).symm
  rw [splitBits, if_neg hcolour, if_neg hmask]
  by_cases h : j / 8 = p / 8
  · have hpix : j % 8 = p % 8 ↔ p = j := by omega
    simp [h, getLsbD_pathField b p (show j % 8 < 8 by omega), hpix]
  · simp [h, show ¬p = j from fun e => h (e ▸ rfl)]

end Buffers

/-- FIELD_SPLIT of pixels inside the image on admitted windows (R221). -/
theorem execFieldSplit_of_admitted {s : State} (hpix : s.operand 2 + s.operand 1 ≤ s.operand 6)
    (hadm : Admitted s (sourceWindows .fieldSplit s) (destWindows .fieldSplit s)) :
    execFieldSplit s =
      .next ({ s with
          mem := splitPixels (s.operand 0) (s.operand 1) (s.operand 2) (s.operand 3) (s.operand 4) (s.operand 5)
            s.mem }.complete .none (BitVec.ofNat 32 (s.operand 1)) 0 0) := by
  rw [execFieldSplit, guarded_of_admitted ((fieldSplit_legal_iff s).2 hpix) hadm, regWord_of_lt (s.operand_lt 1)]

/-- Settles O51: a bit of a buffer is set by its own pixel alone, and only where that pixel is one of the call. -/
theorem fieldSplitOrsFields : Obligations.FieldSplitOrsFields := by
  intro s src count j0 cd md pd npix dests hm hpix hadm
  have hno : NoOverlap [⟨src, count⟩] (splitBuffers cd md pd npix) := hadm.noOverlap
  obtain ⟨hrest, hrle, hsig⟩ := complete_frame s (splitPixels src count j0 cd md pd s.mem) .none
    (BitVec.ofNat 32 count) 0 0
  refine ⟨_, execFieldSplit_of_admitted hpix hadm, ⟨rfl, rfl, rfl, rfl, rfl, rfl, rfl, hrest⟩, hrle, hsig,
    fun j b hj hb => ?_, fun j b hj hb => ?_, fun j hj => ?_, fun a ha => ?_⟩
  · rw [Bool.and_assoc _ (decide (b < 5))]
    exact getLsbD_read_splitPixels_own hm hpix hno (splitBits_colour hno.2 hj hb)
  · exact getLsbD_read_splitPixels_own hm hpix hno (splitBits_mask hno.2 (Nat.div_lt_of_lt_mul hj) hb)
  · exact getLsbD_read_splitPixels_own hm hpix hno (splitBits_path hno.2 (Nat.div_lt_of_lt_mul hj))
  · obtain ⟨hc, hk, hp⟩ := forall_mem_splitBuffers.1 ha
    exact (splitPixels_keeps hpix hm).2 a hc hk hp

end Sys2Proof.Machine

namespace Sys2Proof.Machine

open Sys2Proof.Claims Sys2Proof.Reference

/-! ### LZ: one code at the cursor -/

/-- What stands in the LZ stream is written as bits (R84, R85). -/
theorem encode_eq_bits {x : LzCursor} {i : Instr} (h : fitsAt x.place i = true) :
    encode i = .bits (encode i).streamBits ∧ i.isCommand = false := by
  unfold LzCursor.place at h
  cases i with
  | lzLit | lzMatch | lzM0 | lzM1 | lzM2 | lzM3S | lzM3L => exact ⟨rfl, rfl⟩
  | rleOpen | rleRead | lzDecode | planarUnpack | planarRes | fieldSplit | maskBuild | rleLit | rleNop | rleRep =>
    split at h <;> cases h

/-- The code the unread bits begin with is the next one (R84, R167). -/
theorem next_of_bits {x : LzCursor} {m : Memory} {i : Instr} {rest : List Bool} (hwf : i.wf = true)
    (hfit : fitsAt x.place i = true) (hbits : x.bits m = (encode i).streamBits ++ rest) : x.next m = some i := by
  have hdecode := decodeInvertsEncode i x.place rest hwf hfit
  rw [(encode_eq_bits hfit).1] at hdecode
  have hsplit : decodeAt x.place (.bits []) ((encode i).streamBits ++ rest) =
      decodeAt x.place (.bits (encode i).streamBits) rest := by
    unfold LzCursor.place
    split <;> rfl
  rw [LzCursor.next, hbits, hsplit, hdecode]
  rfl

theorem execStream_of_not_command {i : Instr} (h : i.isCommand = false) (s : State) : execStream i s = exec i s := by
  cases i with
  | rleLit | rleNop | rleRep | lzLit | lzMatch | lzM0 | lzM1 | lzM2 | lzM3S | lzM3L => rfl
  | rleOpen | rleRead | lzDecode | planarUnpack | planarRes | fieldSplit | maskBuild => cases h

/-- While output is wanted, an LZ_DECODE runs the code its unread bits begin with (R170). -/
theorem streamStep_of_bits {s : State} {x : LzCursor} {i : Instr} {rest : List Bool} (he : s.engine = .inflating x)
    (hw : 0 < x.w) (hwf : i.wf = true) (hfit : fitsAt x.place i = true)
    (hbits : x.bits s.mem = (encode i).streamBits ++ rest) : streamStep s = exec i s := by
  have hwants : s.wantsCode = true := by simp [State.wantsCode, he, hw]
  have hcode : s.codeAtCursor = some i := by
    rw [State.codeAtCursor, he]
    exact next_of_bits hwf hfit hbits
  rw [streamStep, if_pos hwants, hcode]
  exact execStream_of_not_command (encode_eq_bits hfit).2 s

/-! ### LZ: the output written and the bits left -/

/-- The output written so far, lowest address first (R168). -/
def LzCursor.output (x : LzCursor) (m : Memory) : List Byte := Memory.readList m (x.dst + x.w) (x.len - x.w)

/-- An LZ_DECODE stands at `x` over the memory `m` with the output `out` written and the bits `bits` unread; its output
does not meet its payload (R116, R166, R168). -/
structure LzCursor.At (x : LzCursor) (m : Memory) (out : List Byte) (bits : List Bool) : Prop where
  wf : Memory.wf m = true
  room : x.w ≤ x.len
  bound : x.c ≤ 8 * x.pay
  apart : Apart ⟨x.base + 8, x.pay⟩ ⟨x.dst, x.len⟩
  output : x.output m = out
  bits : x.bits m = bits

namespace LzCursor.At

variable {x : LzCursor} {m : Memory} {out : List Byte} {taken bits : List Bool}

theorem length_out (h : x.At m out bits) : x.w + out.length = x.len := by
  have := h.room
  rw [← h.output, LzCursor.output, Memory.readList_length]
  omega

theorem length_bits (h : x.At m out bits) : x.c + bits.length = 8 * x.pay := by
  have := h.bound
  rw [← h.bits, LzCursor.bits, streamBits_length, LzCursor.left]
  omega

/-- The unread bits, split where a group of them ends. -/
theorem split (h : x.At m out (taken ++ bits)) :
    streamBits m x.base x.pay x.c taken.length = taken ∧
      streamBits m x.base x.pay (x.c + taken.length) bits.length = bits := by
  have hlen := h.length_bits
  have hbits := h.bits
  rw [List.length_append] at hlen
  rw [LzCursor.bits, show x.left = taken.length + bits.length by rw [LzCursor.left]; omega, streamBits_append] at hbits
  exact List.append_inj hbits (by rw [streamBits_length])

/-- Bits are taken, and nothing is written. -/
theorem take (h : x.At m out (taken ++ bits)) (b : Bool) :
    LzCursor.At { x with c := x.c + taken.length, atMatch := b } m out bits := by
  have hlen := h.length_bits
  rw [List.length_append] at hlen
  refine ⟨h.wf, h.room, by simp only; omega, h.apart, h.output, ?_⟩
  rw [LzCursor.bits, show LzCursor.left { x with c := x.c + taken.length, atMatch := b } = bits.length by
    simp only [LzCursor.left]; omega]
  exact h.split.2

/-- A byte goes to the highest free address of the output (R168). -/
theorem write (h : x.At m out bits) (hw : 0 < x.w) (v : Byte) :
    LzCursor.At { x with w := x.w - 1 } (Memory.write m (x.dst + (x.w - 1)) v) (v :: out) bits := by
  have hroom := h.room
  have hread := Memory.read_write h.wf (x.dst + (x.w - 1)) v
  refine ⟨Memory.wf_write h.wf _ _, by simp only; omega, h.bound, h.apart, ?_, ?_⟩
  · rw [← h.output]
    simp only [LzCursor.output]
    rw [show x.len - (x.w - 1) = (x.len - x.w) + 1 by omega, Memory.readList, hread, if_pos rfl,
      show x.dst + (x.w - 1) + 1 = x.dst + x.w by omega]
    congr 1
    exact Memory.readList_congr fun i _ => by rw [hread, if_neg (by omega)]
  · have hend : x.c + x.left ≤ 8 * x.pay := by
      have := h.bound
      rw [LzCursor.left]
      omega
    rw [← h.bits]
    refine streamBits_congr x.c x.left (fun a hlo hhi => ?_) hend
    rw [hread, if_neg]
    rintro rfl
    exact h.apart _ ⟨⟨hlo, hhi⟩, Nat.le_add_right _ _, by simp only; omega⟩

theorem withMatch (h : x.At m out bits) (b : Bool) : LzCursor.At { x with atMatch := b } m out bits :=
  h.take (taken := []) b

end LzCursor.At

/-- A literal run whose bytes are next in the stream and fit the output writes them downwards (R172). -/
theorem literalRun_of_bits {x : LzCursor} {m : Memory} {out bs : List Byte} {bits : List Bool}
    (h : x.At m out (bs.flatMap byteBits ++ bits)) (hw : bs.length ≤ x.w) :
    ∃ m', literalRun bs.length x m = ⟨true, { x with c := x.c + 8 * bs.length, w := x.w - bs.length }, m'⟩ ∧
      LzCursor.At { x with c := x.c + 8 * bs.length, w := x.w - bs.length } m' (bs.reverse ++ out) bits := by
  induction bs generalizing x m out with
  | nil => exact ⟨m, rfl, h⟩
  | cons b bs ih =>
    rw [List.flatMap_cons, List.append_assoc] at h
    rw [List.length_cons] at hw ⊢
    have hlen := h.length_bits
    have hleft : 8 ≤ x.left := by
      rw [LzCursor.left]
      simp only [List.length_append, byteBits, List.length_cons, List.length_nil] at hlen
      omega
    have hbyte : BitVec.ofNat 8 (bitsVal (streamBits m x.base x.pay x.c 8)) = b := by
      rw [show streamBits m x.base x.pay x.c 8 = byteBits b from h.split.1, byte_of_bits]
    obtain ⟨m', hrun, hat⟩ := ih ((h.take x.atMatch).write (by simp only; omega) b) (by simp only; omega)
    have hcur : ({ x with c := x.c + 8 + 8 * bs.length, w := x.w - 1 - bs.length } : LzCursor) =
        { x with c := x.c + 8 * (bs.length + 1), w := x.w - (bs.length + 1) } := by
      rw [show x.c + 8 + 8 * bs.length = x.c + 8 * (bs.length + 1) by omega, Nat.sub_sub, Nat.add_comm 1]
    refine ⟨m', ?_, ?_⟩
    · rw [literalRun, if_neg (by omega), if_neg (by omega), hbyte, ← hcur]
      exact hrun
    · rw [← hcur, List.reverse_cons, List.append_assoc]
      exact hat

/-- A copy of bytes that fit the output from an offset inside it (R177). -/
theorem copyRun_of_room {off n : Nat} {x : LzCursor} {m : Memory} {out : List Byte} {bits : List Bool}
    (h : x.At m out bits) (hoff : off < out.length) (hw : n ≤ x.w) :
    ∃ m', copyRun off n x m = ⟨true, { x with w := x.w - n }, m'⟩ ∧
      LzCursor.At { x with w := x.w - n } m' (copyBytes off n out) bits := by
  induction n generalizing x m out with
  | zero => exact ⟨m, rfl, h⟩
  | succ n ih =>
    have hlen := h.length_out
    have hbyte : Memory.read m (x.dst + x.w + off) = out.getD off 0 := by
      rw [← h.output, LzCursor.output, Memory.getD_readList _ _ _ _ (by omega)]
    obtain ⟨m', hrun, hat⟩ := ih (h.write (by omega) (out.getD off 0)) (by simp only [List.length_cons]; omega)
      (by simp only; omega)
    have hcur : ({ x with w := x.w - 1 - n } : LzCursor) = { x with w := x.w - (n + 1) } := by
      rw [Nat.sub_sub, Nat.add_comm 1]
    refine ⟨m', ?_, ?_⟩
    · rw [copyRun, if_neg (by omega), hbyte, ← hcur]
      exact hrun
    · rw [← hcur]
      exact hat

/-! ### LZ: one element of a sequence -/

/-- The count groups of a literal run and what they count (R84, R171). -/
theorem literalCount_of_length {n : Nat} (h : 0 < n) :
    literalCount ((n - 1) / 3) (BitVec.ofNat 2 ((n - 1) % 3)) = n ∧ BitVec.ofNat 2 ((n - 1) % 3) ≠ 3#2 := by
  have hval : (BitVec.ofNat 2 ((n - 1) % 3)).toNat = (n - 1) % 3 := by
    rw [BitVec.toNat_ofNat]
    omega
  refine ⟨by rw [literalCount, hval]; omega, fun h3 => ?_⟩
  rw [h3, BitVec.toNat_ofNat] at hval
  omega

/-- A literal run at a control position (R171 to R173). -/
theorem streamStep_literal {s : State} {x : LzCursor} {out bs : List Byte} {bits : List Bool}
    (he : s.engine = .inflating x) (hm : x.atMatch = false) (hpos : 0 < bs.length) (hw : bs.length ≤ x.w)
    (h : x.At s.mem out (false :: literalBits bs ++ bits)) :
    ∃ m c w, streamStep s =
        .next { s with mem := m, engine := .inflating { x with c := c, w := w, atMatch := true } } ∧
      LzCursor.At { x with c := c, w := w, atMatch := true } m (bs.reverse ++ out) bits := by
  obtain ⟨hcount, hg⟩ := literalCount_of_length hpos
  have hcode : false :: literalBits bs ++ bits =
      (encode (.lzLit ((bs.length - 1) / 3) (BitVec.ofNat 2 ((bs.length - 1) % 3)))).streamBits ++
        (bs.flatMap byteBits ++ bits) := by
    simp [literalBits, encode, Code.streamBits]
  rw [hcode] at h
  have hstep := streamStep_of_bits he (by omega) (by simpa [Instr.wf] using hg) (by simp [LzCursor.place, hm, fitsAt])
    h.bits
  obtain ⟨m, hrun, hat⟩ := literalRun_of_bits (h.take x.atMatch) hw
  refine ⟨m, _, _, ?_, hat.withMatch true⟩
  rw [hstep, exec, execLzLit, he]
  simp only [hcount]
  exact congrArg Host.Outcome.next (congrArg (afterCode · true s) hrun)

/-- A match at a match position (R174 to R177). -/
theorem streamStep_copy {s : State} {x : LzCursor} {out : List Byte} {bits : List Bool} {i : Instr}
    (he : s.engine = .inflating x) (hm : x.atMatch = true) (hwf : i.wf = true)
    (hfit : fitsAt (.selector x.tab) i = true) (hoff : matchOffset i < out.length) (hpos : 0 < x.w)
    (hw : matchLength i ≤ x.w) (h : x.At s.mem out ((encode i).streamBits ++ bits)) :
    ∃ m c w, streamStep s =
        .next { s with mem := m, engine := .inflating { x with c := c, w := w, atMatch := false } } ∧
      LzCursor.At { x with c := c, w := w, atMatch := false } m (copyBytes (matchOffset i) (matchLength i) out)
        bits := by
  have hlen := h.length_out
  have hstep := streamStep_of_bits he hpos hwf (by rw [LzCursor.place, if_pos hm]; exact hfit) h.bits
  obtain ⟨m, hrun, hat⟩ := copyRun_of_room (h.take x.atMatch) hoff hw
  refine ⟨m, _, _, ?_, hat.withMatch false⟩
  rw [hstep, exec_of_fitsAt_selector hfit, runMatch_inflating he, if_pos (by omega)]
  exact congrArg Host.Outcome.next (congrArg (afterCode · false s) hrun)

/-- The control bit of a match that follows no literal run (R174). -/
theorem streamStep_matchBit {s : State} {x : LzCursor} {out : List Byte} {bits : List Bool}
    (he : s.engine = .inflating x) (hm : x.atMatch = false) (hpos : 0 < x.w) (h : x.At s.mem out (true :: bits)) :
    streamStep s = .next { s with engine := .inflating { x with c := x.c + 1, atMatch := true } } ∧
      LzCursor.At { x with c := x.c + 1, atMatch := true } s.mem out bits :=
  ⟨(streamStep_of_bits (i := .lzMatch) he hpos rfl (by simp [LzCursor.place, hm, fitsAt]) h.bits).trans
    (lzMatchBitIsConsumed s x he), h.take (taken := [true]) true⟩

/-! ### LZ: a sequence of elements -/

theorem copyBytes_length (off n : Nat) (out : List Byte) : (copyBytes off n out).length = out.length + n := by
  induction n generalizing out with
  | zero => rfl
  | succ n ih => rw [copyBytes, ih, List.length_cons]; omega

/-- A literal run of a sequence that has an output: it follows no literal run and is not empty (R84). -/
theorem lzOutput_literal {t : Widths} {b : Bool} {bs : List Byte} {items : List LzItem} {out final : List Byte}
    (h : lzOutput t b (.literal bs :: items) out = some final) :
    b = false ∧ 0 < bs.length ∧ lzOutput t true items (bs.reverse ++ out) = some final := by
  rw [lzOutput] at h
  split at h
  · cases h
  · rename_i hcond
    simp only [Bool.or_eq_true, not_or, Bool.not_eq_true, List.isEmpty_eq_false_iff] at hcond
    obtain ⟨hb, hne⟩ := hcond
    exact ⟨hb, List.length_pos_iff.2 hne, h⟩

/-- A match of a sequence that has an output: it is one for the table, and its offset lies in the output (R176). -/
theorem lzOutput_copy {t : Widths} {b : Bool} {i : Instr} {items : List LzItem} {out final : List Byte}
    (h : lzOutput t b (.copy i :: items) out = some final) :
    fitsAt (.selector t) i = true ∧ i.wf = true ∧ matchOffset i < out.length ∧
      lzOutput t false items (copyBytes (matchOffset i) (matchLength i) out) = some final := by
  rw [lzOutput] at h
  split at h
  · rename_i hcond
    simp only [Bool.and_eq_true, decide_eq_true_eq] at hcond
    obtain ⟨⟨hfit, hwf⟩, hoff⟩ := hcond
    exact ⟨hfit, hwf, hoff, h⟩
  · cases h

/-- Elements only add to the output. -/
theorem lzOutput_length {t : Widths} {b : Bool} {items : List LzItem} {out final : List Byte}
    (h : lzOutput t b items out = some final) : out.length ≤ final.length := by
  induction items generalizing b out with
  | nil => cases h; exact le_refl _
  | cons item items ih =>
    cases item with
    | literal bs =>
      obtain ⟨-, -, h⟩ := lzOutput_literal h
      have := ih h
      rw [List.length_append] at this
      omega
    | copy i =>
      obtain ⟨-, -, -, h⟩ := lzOutput_copy h
      have := ih h
      rw [copyBytes_length] at this
      omega

/-- A match copies at least one byte, and its code has a selector (R174, R175). -/
theorem match_pos {t : Widths} {i : Instr} (h : fitsAt (.selector t) i = true) :
    0 < matchLength i ∧ 0 < (encode i).streamBits.length := by
  cases i with
  | lzM0 | lzM1 | lzM2 => exact ⟨Nat.succ_pos _, Nat.succ_pos _⟩
  | lzM3S | lzM3L => exact ⟨by rw [matchLength]; omega, Nat.succ_pos _⟩
  | rleOpen | rleRead | lzDecode | planarUnpack | planarRes | fieldSplit | maskBuild | rleLit | rleNop | rleRep | lzLit
  | lzMatch => cases h

/-- The run with that fuel ends the LZ_DECODE at `x` without an error, with the output `final` and `left` bits unread
(R178, R179). -/
def RunDelivers (fuel : Nat) (s : State) (x : LzCursor) (left : Nat) (final : List Byte) : Prop :=
  ∃ m, runStream fuel s =
      .next ({ s with mem := m }.complete .none (regWord x.len) (trunc32 left) (x.skip.setWidth 32)) ∧
    Memory.readList m x.dst x.len = final

theorem RunDelivers.of_step {fuel : Nat} {s : State} {x : LzCursor} {left : Nat} {final : List Byte} {m : Memory}
    {c w : Nat} {b : Bool} (he : s.engine = .inflating x)
    (hstep : streamStep s = .next { s with mem := m, engine := .inflating { x with c := c, w := w, atMatch := b } })
    (h : RunDelivers fuel { s with mem := m, engine := .inflating { x with c := c, w := w, atMatch := b } }
      { x with c := c, w := w, atMatch := b } left final) : RunDelivers (fuel + 1) s x left final := by
  obtain ⟨m', hrun, hread⟩ := h
  exact ⟨m', (runStream_succ (by simp [he]) hstep fuel).trans hrun, hread⟩

/-- With the output full, an LZ_DECODE ends with its results (R170, R178, R179). -/
theorem runDelivers_of_full {fuel : Nat} {s : State} {x : LzCursor} {out : List Byte} {bits : List Bool}
    (he : s.engine = .inflating x) (hw : x.w = 0) (h : x.At s.mem out bits) :
    RunDelivers (fuel + 1) s x bits.length out := by
  have hwants : s.wantsCode = false := by simp [State.wantsCode, he, hw]
  have hfinish : s.finish = finishInflate x s := by rw [State.finish, he]
  have hleft : x.left = bits.length := by
    have := h.length_bits
    rw [LzCursor.left]
    omega
  have hstep : streamStep s = .next (finishInflate x s) := by
    rw [streamStep, hwants, if_neg Bool.false_ne_true, hfinish]
  refine ⟨s.mem, ?_, by simpa [LzCursor.output, hw] using h.output⟩
  rw [runStream_succ (by simp [he]) hstep, runStream_idle rfl, finishInflate, hleft]

/-- The run over the code of a sequence of elements delivers the sequence's output and leaves the bits after it. -/
theorem runDelivers_of_lzBits {items : List LzItem} {s : State} {x : LzCursor} {out final : List Byte}
    {rest : List Bool} {fuel : Nat} (he : s.engine = .inflating x)
    (h : x.At s.mem out (lzBits x.atMatch items ++ rest)) (hout : lzOutput x.tab x.atMatch items out = some final)
    (hlen : final.length = x.len) (hfuel : (lzBits x.atMatch items ++ rest).length < fuel) :
    RunDelivers fuel s x rest.length final := by
  have hfull := h.length_out
  induction items generalizing s x out fuel with
  | nil =>
    obtain ⟨k, rfl⟩ : ∃ k, fuel = k + 1 := ⟨fuel - 1, by omega⟩
    cases hout
    exact runDelivers_of_full he (by omega) h
  | cons item items ih =>
    cases item with
    | literal bs =>
      obtain ⟨hmatch, hpos, hout⟩ := lzOutput_literal hout
      have hgrow := lzOutput_length hout
      rw [List.length_append, List.length_reverse] at hgrow
      rw [lzBits, List.append_assoc] at h hfuel
      obtain ⟨m, c, w, hstep, hat⟩ := streamStep_literal he hmatch hpos (by omega) h
      rw [List.length_append, List.length_cons] at hfuel
      obtain ⟨k, rfl⟩ : ∃ k, fuel = k + 1 := ⟨fuel - 1, by omega⟩
      exact .of_step he hstep (ih rfl hat hout hlen (by simp only; omega) hat.length_out)
    | copy i =>
      obtain ⟨hfit, hwf, hoff, hout⟩ := lzOutput_copy hout
      obtain ⟨hpos, hcode⟩ := match_pos hfit
      have hgrow := lzOutput_length hout
      rw [copyBytes_length] at hgrow
      rw [lzBits] at h hfuel
      cases hmatch : x.atMatch with
      | true =>
        rw [hmatch, if_pos rfl, List.nil_append, List.append_assoc] at h hfuel
        obtain ⟨m, c, w, hstep, hat⟩ := streamStep_copy he hmatch hwf hfit hoff (by omega) (by omega) h
        rw [List.length_append] at hfuel
        obtain ⟨k, rfl⟩ : ∃ k, fuel = k + 1 := ⟨fuel - 1, by omega⟩
        exact .of_step he hstep (ih rfl hat hout hlen (by simp only; omega) hat.length_out)
      | false =>
        rw [hmatch, if_neg Bool.false_ne_true, List.append_assoc, List.append_assoc] at h hfuel
        obtain ⟨hbit, hbitAt⟩ := streamStep_matchBit (bits := (encode i).streamBits ++ (lzBits false items ++ rest))
          he hmatch (by omega) h
        obtain ⟨m, c, w, hstep, hat⟩ :=
          streamStep_copy (s := { s with engine := .inflating { x with c := x.c + 1, atMatch := true } }) rfl rfl hwf
            hfit hoff (by simp only; omega) (by simp only; omega) hbitAt
        rw [List.length_append, List.length_singleton, List.length_append] at hfuel
        obtain ⟨k, rfl⟩ : ∃ k, fuel = k + 2 := ⟨fuel - 2, by omega⟩
        exact .of_step he hbit (.of_step rfl hstep (ih rfl hat hout hlen (by simp only; omega) hat.length_out))

/-- The main decoder passes over the skip bits and decodes what follows (R169, R170). -/
theorem inflate_of_lzBits {s : State} {x : LzCursor} {items : List LzItem} {skipped rest : List Bool}
    {final : List Byte} (hmatch : x.atMatch = false) (hskip : skipped.length = x.skip.toNat)
    (h : x.At s.mem [] (skipped ++ (lzBits false items ++ rest))) (hout : lzOutput x.tab false items [] = some final)
    (hlen : final.length = x.len) :
    ∃ m, inflate x s =
        .next ({ s with mem := m }.complete .none (regWord x.len) (trunc32 rest.length) (x.skip.setWidth 32)) ∧
      Memory.readList m x.dst x.len = final := by
  have htotal := h.length_bits
  rw [List.length_append, hskip] at htotal
  have hstart := h.take x.atMatch
  rw [hskip] at hstart
  have hrun : RunDelivers (8 * x.pay + 1) { s with engine := .inflating { x with c := x.c + x.skip.toNat } }
      { x with c := x.c + x.skip.toNat } rest.length final :=
    runDelivers_of_lzBits rfl (by simpa only [hmatch] using hstart) (by simpa only [hmatch] using hout) hlen
      (by simp only [hmatch]; omega)
  rw [inflate, if_neg (by rw [LzCursor.left]; omega)]
  exact hrun

/-! ### LZ_DECODE of an encoded sequence -/

theorem lzStart_len (s : State) :
    (lzStart s.mem (s.operand 0) (s.operand 1) (s.operand 2)).len = declaredLength s := by
  have hlt := (Memory.readWord s.mem (s.operand 0 + s.operand 1 - 4)).isLt
  simp only [lzStart, declaredLength, BitVec.extractLsb'_toNat, Nat.shiftRight_eq_div_pow]
  omega

theorem lzStart_skip (s : State) :
    (lzStart s.mem (s.operand 0) (s.operand 1) (s.operand 2)).skip.toNat = declaredSkip s := by
  simp only [lzStart, declaredSkip, BitVec.extractLsb'_toNat, Nat.shiftRight_zero]

theorem declaredLength_lt (s : State) : declaredLength s < 2 ^ 24 := by
  have hlt := (Memory.readWord s.mem (s.operand 0 + s.operand 1 - 4)).isLt
  rw [declaredLength]
  omega

/-- LZ_DECODE of an admitted blob that passes the checks of R161 runs the main decoder (R169). -/
theorem exec_lzDecode_of_supported {s : State} (hadm : lzAdmitted s) (hn : 12 ≤ s.operand 1)
    (hsig : signature s = s.cfg.sigSupported) (hcap : declaredLength s ≤ s.operand 3) :
    exec .lzDecode s =
      inflate (lzStart s.mem (s.operand 0) (s.operand 1) (s.operand 2)) { s with lzSig := .supported } := by
  have hclass : classify s.cfg (Memory.readWord s.mem (s.operand 0)) = .supported := if_pos hsig
  rw [exec, execLzDecode, guarded_of_admitted (i := .lzDecode) rfl hadm, lzBody, if_neg (by omega)]
  simp only [hclass]
  rw [if_neg (not_not_intro rfl), if_neg (by omega), lzStart_len, if_neg (by omega)]

/-- The main decoder starts with no output written, at the first bit of the stream (R166, R168). -/
theorem lzStart_at {s : State} (hm : Memory.wf s.mem = true) (hadm : lzAdmitted s) (hn : 12 ≤ s.operand 1)
    (hcap : declaredLength s ≤ s.operand 3) {bits : List Bool}
    (hbits : streamBits s.mem (s.operand 0) (s.operand 1 - 12) 0 (8 * (s.operand 1 - 12)) = bits) :
    (lzStart s.mem (s.operand 0) (s.operand 1) (s.operand 2)).At s.mem [] bits where
  wf := hm
  room := le_refl _
  bound := Nat.zero_le _
  apart := by
    rw [lzStart_len]
    have hblob := hadm.noOverlap.1 _ (List.mem_singleton_self _) _ (List.mem_singleton_self _)
    rintro a ⟨⟨hlo, hhi⟩, hout⟩
    simp only [lzStart] at hlo hhi
    exact hblob a ⟨⟨by simp only; omega, by simp only; omega⟩, in_of_len_le hcap hout⟩
  output := by rw [LzCursor.output, lzStart, Nat.sub_self]; rfl
  bits := hbits

/-- Settles O39: past the skip bits, the run over the code of the elements delivers their output. -/
theorem lzDecodeInvertsEncoding : Obligations.LzDecodeInvertsEncoding := by
  intro s items skipped rest out hm hadm hn hsig hcap hbits hskip hout hlen
  have hexec := exec_lzDecode_of_supported hadm hn hsig hcap
  have hat := lzStart_at hm hadm hn hcap (hbits.trans (List.append_assoc ..))
  obtain ⟨m, hinflate, hread⟩ := inflate_of_lzBits (s := { s with lzSig := .supported }) rfl
    (hskip.trans (lzStart_skip s).symm) hat hout (hlen.trans (lzStart_len s).symm)
  rw [lzStart_len] at hread
  rw [lzStart_len, regWord_of_lt ((declaredLength_lt s).trans (by decide)), ← BitVec.ofNat_toNat, lzStart_skip]
    at hinflate
  have hdone := hexec.trans hinflate
  obtain ⟨hrest, hrle⟩ := execLzDecode_frame hdone
  exact ⟨_, hdone, ⟨rfl, rfl, rfl, rfl, rfl, rfl, rfl, hrest⟩, rfl, hrle, hread,
    inflate_sameOutside hinflate hm (lzStart_len s).le⟩

end Sys2Proof.Machine

/-! The commands family: a CMD write issues a command, the ENGINE's step runs it to its end, the window checks come before
its body, a stream command is its codes in order, and an LZ code that asks for too much is cut where the room ends. -/

namespace Sys2Proof.Machine

open Sys2Proof.Claims Sys2Proof.Reference

/-! ### Issue -/

theorem writeReg_cmd (s : State) (v : Word) : s.writeReg 0x04 v = s.issue v := rfl

theorem issue_of_idle {s : State} (hb : s.busy = false) (v : Word) :
    s.issue v =
      { s with
        cmdLast := v
        pend := v
        larg := s.arg
        busy := true
        done := false
        err := .none
        cmdIgn := false
        result0 := 0
        result1 := 0
        result2 := 0 } := by
  rw [State.issue, if_neg (by simp [hb])]

theorem issue_of_busy {s : State} (hb : s.busy = true) (v : Word) : s.issue v = { s with cmdIgn := true } := by
  rw [State.issue, if_pos hb]

/-- Settles O8: with BUSY = 0 the write of CMD is the accepting case of `issue`. -/
theorem commandWriteIsAccepted : Obligations.CommandWriteIsAccepted := by
  intro s ts v hi ht hb
  rw [step_regWrite hi ht (by decide) (by decide), writeReg_cmd]
  exact congrArg Host.Outcome.next (issue_of_idle (s := { s with turns := ts }) hb v)

/-- Settles O9: with BUSY = 1 the write of CMD is the ignoring case of `issue`. -/
theorem commandWriteWhileBusyIsIgnored : Obligations.CommandWriteWhileBusyIsIgnored := by
  intro s ts v hi ht hb
  rw [step_regWrite hi ht (by decide) (by decide), writeReg_cmd]
  exact congrArg Host.Outcome.next (issue_of_busy (s := { s with turns := ts }) hb v)

/-! ### The ENGINE's step -/

theorem engineTurn_of_decode {s : State} {i : Instr} (hb : s.busy = true) (hd : decodeCmd s.pend = some i) :
    engineTurn s = exec i s := by
  rw [engineTurn, if_pos hb, completion, hd]

theorem engineTurn_of_noDecode {s : State} (hb : s.busy = true) (hd : decodeCmd s.pend = none) :
    engineTurn s = .next (s.raise .badCommand) := by
  rw [engineTurn, if_pos hb, completion, hd]

/-- The ENGINE moves at its own turn, and also when no turn is left (R293, log 6). -/
theorem step_of_engine {s : State} {ts : List Turn} (hi : s.engine = .idle)
    (ht : s.turns = .engine :: ts ∨ s.turns = [] ∧ ts = []) : step s = engineTurn { s with turns := ts } := by
  obtain ht | ⟨ht, rfl⟩ := ht
  · exact step_of_turn hi ht
  · rw [step_of_noTurn hi ht, ← ht]

/-- Settles O19: the ENGINE's step with BUSY = 1 is the completion of the decoded word. -/
theorem stepRunsPendingCommand : Obligations.StepRunsPendingCommand := by
  intro s ts i hi hb hd
  refine ⟨fun ht => ?_, fun ht => ?_⟩
  · rw [step_of_turn hi ht]
    exact engineTurn_of_decode (s := { s with turns := ts }) hb hd
  · rw [step_of_noTurn hi ht, engineTurn_of_decode hb hd]

/-! ### Every command completes -/

/-- The answer is a next state after a completion: BUSY = 0, DONE = 1 and no cursor left (R112). -/
def Completes (r : Result) : Prop := ∃ t : State, r = .next t ∧ t.busy = false ∧ t.done = true ∧ t.engine = .idle

theorem completes_complete (s : State) (e : ErrKind) (r0 r1 r2 : Word) : Completes (.next (s.complete e r0 r1 r2)) :=
  ⟨_, rfl, rfl, rfl, rfl⟩

theorem completes_raise (s : State) (e : ErrKind) : Completes (.next (s.raise e)) := completes_complete s e 0 0 0

/-- Off the register window a guarded command ends in BadCommand or as its body does. -/
theorem completes_guarded {i : Instr} {s : State} {body : State → Result}
    (hoff : OffRegisters s (sourceWindows i s ++ destWindows i s)) (h : Completes (body s)) :
    Completes (guarded i s body) := by
  rw [guarded_of_offRegisters hoff]
  split
  · exact h
  · exact completes_raise s _

theorem completes_runStream {s : State} (he : s.engine ≠ .idle) {fuel : Nat} (hf : s.movesLeft ≤ fuel) :
    Completes (runStream fuel s) := by
  obtain ⟨t, ht, hidle, hbusy, hdone, -⟩ := runStream_ends he hf
  exact ⟨t, ht, hbusy, hdone, hidle⟩

/-- The fuel of an RLE_READ is a move for each unread source byte and one for the end. -/
theorem movesLeft_startRead (s : State) (dst max : Nat) :
    (s.startRead dst max).movesLeft = s.rleEnd - s.rlePtr + 1 := movesLeft_reading (State.startRead_engine s dst max)

/-- The fuel of an LZ_DECODE is a move for each payload bit and one for the end. -/
theorem movesLeft_inflating_le (s : State) (x : LzCursor) (c : Nat) :
    State.movesLeft { s with engine := .inflating { x with c := c } } ≤ 8 * x.pay + 1 := by
  rw [movesLeft_inflating rfl]
  exact Nat.succ_le_succ (Nat.sub_le _ _)

theorem completes_inflate (x : LzCursor) (s : State) : Completes (inflate x s) := by
  unfold inflate
  split
  · exact completes_raise s _
  · exact completes_runStream (by simp) (movesLeft_inflating_le s x _)

/-- Whatever the blob holds, the errors of R180 and the main decoder are completions. -/
theorem completes_lzBody (b n d cap : Nat) (s : State) : Completes (lzBody b n d cap s) := by
  simp only [lzBody]
  split_ifs with h4 hsig h12 hcap
  · exact completes_raise _ _
  · exact completes_raise _ _
  · exact completes_raise _ _
  · exact completes_raise _ _
  · exact completes_inflate _ _

/-- Whatever the header says, the errors of R204 and the transform are completions. -/
theorem completes_execPlanarRes {s : State}
    (hoff : OffRegisters s (sourceWindows .planarRes s ++ destWindows .planarRes s)) : Completes (execPlanarRes s) := by
  refine completes_guarded hoff ?_
  simp only
  split_ifs with hshort hwidth hcap hcut
  · exact completes_raise _ _
  · exact completes_raise _ _
  · exact completes_raise _ _
  · exact completes_raise _ _
  · exact completes_complete _ _ _ _ _

/-- Off the register window every command answers with its completion (R112). -/
theorem exec_command_completes {s : State} {i : Instr} (hi : i.isCommand = true)
    (hoff : OffRegisters s (sourceWindows i s ++ destWindows i s)) : Completes (exec i s) := by
  cases i with
  | rleOpen | planarUnpack | fieldSplit | maskBuild =>
    simp only [exec, execRleOpen, execPlanarUnpack, execFieldSplit, execMaskBuild]
    exact completes_guarded hoff (completes_complete _ _ _ _ _)
  | rleRead =>
    rw [exec, execRleRead]
    exact completes_guarded hoff (completes_runStream (by simp) (movesLeft_startRead s _ _).le)
  | lzDecode => exact completes_guarded hoff (completes_lzBody _ _ _ _ s)
  | planarRes => exact completes_execPlanarRes hoff
  | rleLit | rleNop | rleRep | lzLit | lzMatch | lzM0 | lzM1 | lzM2 | lzM3S | lzM3L => cases hi

/-- Settles O21: a pending word decodes to no command, which is a raise, or to a command, which completes. -/
theorem engineStepCompletes : Obligations.EngineStepCompletes := by
  intro s ts hi hb ht hoff
  rw [step_of_engine hi ht]
  cases hd : decodeCmd s.pend with
  | none =>
    rw [engineTurn_of_noDecode (s := { s with turns := ts }) hb hd]
    exact ⟨_, rfl, rfl, rfl, rfl, (raise_frame _ _).1⟩
  | some i =>
    have hcmd := decodeCmd_isCommand hd
    obtain ⟨t, ht, hbusy, hdone, hidle⟩ := exec_command_completes (s := { s with turns := ts }) hcmd
      (by rw [sourceWindows_turns, destWindows_turns]; exact hoff i hd)
    rw [engineTurn_of_decode (s := { s with turns := ts }) hb hd]
    exact ⟨t, ht, hbusy, hdone, hidle, (commandsKeepOtherUnits _ _ _ hcmd ht).1⟩

/-! ### The window checks -/

theorem inPlace_iff {i : Instr} {s : State} : inPlace i s = true ↔ i = .maskBuild ∧ s.operand 1 = s.operand 0 := by
  cases i <;> simp [inPlace]

/-- Off the register window a command whose windows are not admitted ends there (R115, R116). -/
theorem exec_of_not_admitted {i : Instr} {s : State} (hi : i.isCommand = true)
    (hoff : OffRegisters s (sourceWindows i s ++ destWindows i s)) (h : ¬windowsAdmitted i s = true) :
    exec i s = .next (failed .badCommand s) := by
  obtain ⟨body, hexec⟩ := exec_command hi
  rw [hexec, guarded_of_offRegisters hoff, if_neg fun hadm => h hadm.2, failed_eq_raise]

/-- Settles O23: admitted windows lie in M, and do not overlap unless MASK_BUILD is in place. -/
theorem windowChecksAreBadCommand : Obligations.WindowChecksAreBadCommand := by
  intro s i hi hoff
  refine ⟨fun hout => exec_of_not_admitted hi hoff fun hadm => ?_,
    fun hmeet hplace => exec_of_not_admitted hi hoff fun hadm => ?_⟩
  · exact hout (windowsAdmitted_iff.1 hadm).1
  · obtain hin | hapart := (windowsAdmitted_iff.1 hadm).2
    · obtain ⟨hmask, hsame⟩ := inPlace_iff.1 hin
      exact hplace hmask hsame
    · exact hmeet hapart

/-! ### A stream command is its codes in order -/

/-- RLE_READ of an open stream on admitted windows is its records in order (R133, R134). -/
theorem execRleRead_codeByCode {s : State} (hv : s.rleValid = true)
    (hadm : Admitted s (sourceWindows .rleRead s) (destWindows .rleRead s)) :
    ∃ t, execRleRead s = .next t ∧ CodeByCode (s.startRead (s.operand 0) (s.operand 1)) t := by
  rw [execRleRead, guarded_of_admitted (i := .rleRead) hv hadm]
  exact codeByCode_of_fuel (by simp) (movesLeft_startRead s _ _).le

/-- The main decoder is its codes in order, from the state with the skip bits read (R169, R170). -/
theorem inflate_codeByCode {x : LzCursor} (hskip : x.skip.toNat ≤ x.left) (s : State) :
    ∃ t, inflate x s = .next t ∧
      CodeByCode { s with engine := .inflating { x with c := x.c + x.skip.toNat } } t := by
  rw [inflate, if_neg (Nat.not_lt.2 hskip)]
  exact codeByCode_of_fuel (by simp) (movesLeft_inflating_le s x _)

theorem lzStart_c (m : Memory) (b n d : Nat) : (lzStart m b n d).c = 0 := rfl

/-- The first cursors of an LZ_DECODE past the skip bits, with the declared length and skip count (R164, R169, R181). -/
theorem lzStart_skipped (s : State) :
    (let x := lzStart s.mem (s.operand 0) (s.operand 1) (s.operand 2)
     { x with c := x.c + x.skip.toNat } : LzCursor) =
      { base := s.operand 0
        pay := s.operand 1 - 12
        dst := s.operand 2
        len := declaredLength s
        skip := BitVec.ofNat 8 (declaredSkip s)
        tab := readWidths s.mem (s.operand 0 + 4)
        c := declaredSkip s
        w := declaredLength s
        atMatch := false } := by
  rw [← lzStart_len, ← lzStart_skip, BitVec.ofNat_toNat, BitVec.setWidth_eq]
  simp only [lzStart_c, Nat.zero_add]
  rfl

/-- Settles O60: each of the two is the run of its codes, with fuel for all of them. -/
theorem completionIsItsCodesInOrder : Obligations.CompletionIsItsCodesInOrder := by
  refine ⟨fun s hv hadm => execRleRead_codeByCode hv hadm, fun s hadm hn hsig hcap hskip => ?_⟩
  rw [exec_lzDecode_of_supported hadm hn hsig hcap, ← lzStart_skipped s]
  exact inflate_codeByCode (by rw [lzStart_skip]; exact hskip) _

/-! ### LZ: the byte loops up to their limits -/

/-- A copy run longer than the output left is the run that fills it, and stops (R168). -/
theorem copyRun_overlong {off n : Nat} {x : LzCursor} (m : Memory) (h : x.w < n) :
    copyRun off n x m = { copyRun off x.w x m with ok := false } := by
  induction n generalizing x m with
  | zero => exact absurd h (Nat.not_lt_zero _)
  | succ n ih =>
    cases hw : x.w with
    | zero => simp only [copyRun, hw, if_true]
    | succ w =>
      rw [copyRun, if_neg (by omega), ih _ (by simp only; omega), copyRun, if_neg (by omega)]
      simp only [hw, Nat.add_sub_cancel]

/-- The bit cursor plays no part in what a copy run writes. -/
theorem copyRun_mem_withBits (off n c : Nat) (x : LzCursor) (m : Memory) :
    (copyRun off n { x with c := c } m).mem = (copyRun off n x m).mem := by
  induction n generalizing x m with
  | zero => rfl
  | succ n ih =>
    simp only [copyRun]
    split
    · rfl
    · exact ih { x with w := x.w - 1 } _

/-- A copy run of `n` bytes leaves every byte but the `n` highest free ones of the output. -/
theorem read_copyRun_outside {off n a : Nat} {x : LzCursor} {m : Memory} (hm : Memory.wf m = true)
    (ha : ¬(x.dst + (x.w - n) ≤ a ∧ a < x.dst + x.w)) :
    Memory.read (copyRun off n x m).mem a = Memory.read m a := by
  obtain ⟨j, rfl, -, -, -, hread⟩ := copyRun_frame off n x m hm
  exact hread a (by omega)

/-- A literal run of `n` bytes leaves every byte but the `n` highest free ones of the output. -/
theorem read_literalRun_outside {n a : Nat} {x : LzCursor} {m : Memory} (hm : Memory.wf m = true)
    (ha : ¬(x.dst + (x.w - n) ≤ a ∧ a < x.dst + x.w)) :
    Memory.read (literalRun n x m).mem a = Memory.read m a := by
  obtain ⟨j, hj, -, -, -, -, -, -, hread⟩ := literalRun_frame n x m hm
  exact hread a (by omega)

/-- The cursors of an LZ_DECODE in progress, with its output and its unread bits as they are. -/
theorem at_of_inflating {s : State} {x : LzCursor} (hm : Memory.wf s.mem = true) (h : Inflating s x) :
    x.At s.mem (x.output s.mem) (x.bits s.mem) := by
  obtain ⟨-, hw, hc, hapart⟩ := h
  refine ⟨hm, hw, hc, fun a ⟨hpay, hout⟩ => hapart a ⟨⟨?_, ?_⟩, hout⟩, rfl, rfl⟩
  · have : x.base + 8 ≤ a := hpay.1
    simp only; omega
  · have : a < x.base + 8 + x.pay := hpay.2
    simp only; omega

/-- A code whose byte loop stopped at a limit ends the command, and the bytes written stay (R117). -/
theorem afterCode_of_stopped (r : Written) (b : Bool) (s : State) :
    afterCode { r with ok := false } b s = failed .corruptStream { s with mem := r.mem } := rfl

/-- Settles O45: the overlong copy is the copy that fills the output, and stops there. -/
theorem lzOverlongMatchIsCorrupt : Obligations.LzOverlongMatchIsCorrupt := by
  intro s x i hm hx hfit hoff hlong
  have hat := at_of_inflating hm hx
  have hout := hat.length_out
  obtain ⟨m, hrun, hfull⟩ := copyRun_of_room (off := matchOffset i) hat (by omega) (le_refl x.w)
  have hmem : (copyRun (matchOffset i) x.w { x with c := x.c + codeLength i } s.mem).mem = m := by
    rw [copyRun_mem_withBits, hrun]
  refine ⟨m, ?_, ?_, fun a ha => ?_⟩
  · rw [exec_of_fitsAt_selector hfit, runMatch_inflating hx.1, if_pos hoff,
      copyRun_overlong (x := { x with c := x.c + codeLength i }) s.mem hlong, afterCode_of_stopped]
    simp only [hmem]
  · simpa [LzCursor.output] using hfull.output
  · rw [← hmem]
    exact read_copyRun_outside hm (by simp only; omega)

/-! ### LZ: the bytes of a literal run -/

/-- The next 8-bit group as a byte (R167, R172). -/
def LzCursor.nextByte (x : LzCursor) (m : Memory) : Byte :=
  BitVec.ofNat 8 (bitsVal (streamBits m x.base x.pay x.c 8))

/-- How many bytes of a literal run both the unread payload and the free output have room for (R167, R168). -/
def LzCursor.literalRoom (x : LzCursor) : Nat := min (x.left / 8) x.w

/-- The first bit of the group is the most significant (R83). -/
theorem getLsbD_nextByte (x : LzCursor) (m : Memory) {b : Nat} (hb : b < 8) :
    (x.nextByte m).getLsbD (7 - b) = streamBit m x.base x.pay (x.c + b) := by
  have hgroup := getLsbD_byte_of_bits (streamBit m x.base x.pay x.c) (streamBit m x.base x.pay (x.c + 1))
    (streamBit m x.base x.pay (x.c + 2)) (streamBit m x.base x.pay (x.c + 3)) (streamBit m x.base x.pay (x.c + 4))
    (streamBit m x.base x.pay (x.c + 5)) (streamBit m x.base x.pay (x.c + 6)) (streamBit m x.base x.pay (x.c + 7))
    ⟨b, hb⟩
  rw [LzCursor.nextByte]
  simp only [streamBits, Nat.add_assoc, Nat.reduceAdd]
  rw [hgroup]
  interval_cases b <;> rfl

/-- The cursors after one byte of a literal run. -/
abbrev LzCursor.afterByte (x : LzCursor) : LzCursor := { x with c := x.c + 8, w := x.w - 1 }

theorem literalRoom_afterByte (x : LzCursor) : x.afterByte.literalRoom = x.literalRoom - 1 := by
  simp only [LzCursor.literalRoom, LzCursor.left]
  omega

theorem literalRun_of_noRoom {n : Nat} {x : LzCursor} (m : Memory) (h : x.literalRoom = 0) :
    literalRun (n + 1) x m = ⟨false, x, m⟩ := by
  rw [LzCursor.literalRoom] at h
  rw [literalRun]
  split
  · rfl
  · rw [if_pos (by omega)]

theorem literalRun_of_room {n : Nat} {x : LzCursor} (m : Memory) (h : 0 < x.literalRoom) :
    literalRun (n + 1) x m = literalRun n x.afterByte (Memory.write m (x.dst + (x.w - 1)) (x.nextByte m)) := by
  rw [LzCursor.literalRoom] at h
  rw [literalRun, if_neg (by omega), if_neg (by omega)]
  rfl

/-- A literal run longer than the room for it is the run that fills the room, and stops (R167, R168). -/
theorem literalRun_overlong {n : Nat} {x : LzCursor} (m : Memory) (h : x.literalRoom < n) :
    literalRun n x m = { literalRun x.literalRoom x m with ok := false } := by
  induction n generalizing x m with
  | zero => exact absurd h (Nat.not_lt_zero _)
  | succ n ih =>
    cases hr : x.literalRoom with
    | zero => rw [literalRun_of_noRoom m hr, literalRun]
    | succ r =>
      have hafter : x.afterByte.literalRoom = r := by rw [literalRoom_afterByte, hr, Nat.add_sub_cancel]
      rw [literalRun_of_room m (by omega), ih _ (by omega), hafter, literalRun_of_room m (by omega)]

/-- A byte written to the output changes no bit of the payload (R116). -/
theorem streamBit_write {x : LzCursor} {m : Memory} {out : List Byte} {bits : List Bool} (h : x.At m out bits)
    (hw : 0 < x.w) (v : Byte) {i : Nat} (hi : i < 8 * x.pay) :
    streamBit (Memory.write m (x.dst + (x.w - 1)) v) x.base x.pay i = streamBit m x.base x.pay i := by
  have hroom := h.room
  rw [streamBit, Memory.read_write h.wf, if_neg, streamBit]
  intro hmeet
  exact h.apart (x.dst + (x.w - 1)) ⟨⟨by simp only; omega, by simp only; omega⟩, by simp only; omega, by simp only; omega⟩

/-- One byte of a literal run that has room: it goes to the highest free address, and eight bits are taken (R172). -/
theorem at_afterByte {x : LzCursor} {m : Memory} {out : List Byte} {bits : List Bool} (h : x.At m out bits)
    (hroom : 0 < x.literalRoom) :
    x.afterByte.At (Memory.write m (x.dst + (x.w - 1)) (x.nextByte m)) (x.nextByte m :: out) (bits.drop 8) := by
  rw [LzCursor.literalRoom, LzCursor.left] at hroom
  have htotal := h.length_bits
  have hgroup : (bits.take 8).length = 8 := by
    rw [List.length_take]
    omega
  rw [← List.take_append_drop 8 bits] at h
  have htaken := h.take x.atMatch
  rw [hgroup] at htaken
  exact htaken.write (by simp only; omega) _

/-- A literal run inside its room writes the next groups of the stream downwards: output byte `j` is group `j` (R172). -/
theorem getLsbD_read_literalRun {n j b : Nat} {x : LzCursor} {m : Memory} {out : List Byte} {bits : List Bool}
    (h : x.At m out bits) (hn : n ≤ x.literalRoom) (hj : j < n) (hb : b < 8) :
    (Memory.read (literalRun n x m).mem (x.dst + (x.w - 1 - j))).getLsbD (7 - b) =
      streamBit m x.base x.pay (x.c + 8 * j + b) := by
  induction n generalizing j x m out bits with
  | zero => exact absurd hj (Nat.not_lt_zero j)
  | succ n ih =>
    have hpos : 0 < x.literalRoom := by omega
    have hafter := literalRoom_afterByte x
    have hw : 0 < x.w := by rw [LzCursor.literalRoom] at hpos; omega
    have hend : x.c + 8 * (n + 1) ≤ 8 * x.pay := by
      rw [LzCursor.literalRoom, LzCursor.left] at hn
      omega
    have hat := at_afterByte h hpos
    rw [literalRun_of_room m hpos]
    cases j with
    | zero =>
      rw [read_literalRun_outside hat.wf (by simp only; omega), Nat.sub_zero, Memory.read_write h.wf, if_pos rfl]
      exact getLsbD_nextByte x m hb
    | succ j =>
      have hbit := ih hat (by omega) (Nat.lt_of_succ_lt_succ hj)
      rw [streamBit_write h hw _ (by simp only; omega)] at hbit
      rw [show x.w - 1 - (j + 1) = x.w - 1 - 1 - j by omega, show x.c + 8 * (j + 1) = x.c + 8 + 8 * j by omega]
      exact hbit

/-- Settles O46: the overlong run is the run that fills the room, and stops there. -/
theorem lzOverlongLiteralIsCorrupt : Obligations.LzOverlongLiteralIsCorrupt := by
  intro s x k g hm hx hcode c room hlong
  have hcount : codeLength (.lzLit k g) = 1 + 2 * (k + 1) := by
    simp only [codeLength, encode, Code.streamBits, List.length_cons, ext2Bits_length]
    omega
  have hat : LzCursor.At { x with c := c } s.mem _ _ :=
    { at_of_inflating hm hx with bound := hcode, bits := rfl }
  refine ⟨(literalRun room { x with c := c } s.mem).mem, ?_, fun j b hj hb => ?_, fun a ha => ?_⟩
  · rw [exec, execLzLit, hx.1]
    simp only [hcount, literalCount]
    rw [literalRun_overlong s.mem hlong, afterCode_of_stopped]
    rfl
  · exact getLsbD_read_literalRun hat (le_refl _) hj hb
  · exact read_literalRun_outside hm ha

end Sys2Proof.Machine

/-! The RLE family: one record inside an RLE_READ, the records a read begins, a read as its state after a list of records, and
reads in a row. -/

namespace Sys2Proof.Machine

open Sys2Proof.Claims Sys2Proof.Reference

/-! ### RLE_OPEN -/

/-- Settles O29: on admitted windows the body of RLE_OPEN runs. -/
theorem rleOpenOpensStream : Obligations.RleOpenOpensStream := by
  intro s hadm
  rw [exec, execRleOpen, guarded_of_admitted (i := .rleOpen) rfl hadm]
  rfl

/-! ### RLE: one record -/

/-- Settles O32: the payload is there, so the record is delivered. -/
theorem literalRecordExpands : Obligations.LiteralRecordExpands := by
  intro s x n he hpay
  rw [exec, execRleLit, he]
  simp only [deliver, Memory.readList_length]
  rw [if_neg (by omega)]

/-- Settles O33: 257 − b is 129 − n, and the payload byte is there. -/
theorem replicateRecordExpands : Obligations.ReplicateRecordExpands := by
  intro s x n he hpay
  rw [exec, execRleRep, he, show 257 - (128 + n.toNat) = 129 - n.toNat by omega]
  simp only [deliver, List.length_replicate]
  rw [if_neg (by omega)]

/-- Settles O34: the record's own meaning inside an RLE_READ. -/
theorem noOpRecordIsSkipped : Obligations.NoOpRecordIsSkipped := by
  intro s x he
  rw [exec, execRleNop, he]

/-- A truncated record's end, with results that fit their registers (R142). -/
theorem truncateRead_of_lt {x : ReadCursor} {s : State} (hprod : x.produced < 2 ^ 32) (hrem : s.rem.length < 2 ^ 32) :
    truncateRead x s =
      { s with rlePtr := s.rleEnd, rleTrunc := true }.complete .truncatedInput (BitVec.ofNat 32 x.produced)
        (BitVec.ofNat 32 s.rem.length) 0 := by
  rw [truncateRead, regWord_of_lt hprod, regWord_of_lt hrem]

theorem exec_rleLit_of_cut {s : State} {x : ReadCursor} {n : BitVec 7} (he : s.engine = .reading x)
    (hcut : s.rleEnd < s.rlePtr + 1 + (n.toNat + 1)) : exec (.rleLit n) s = .next (truncateRead x s) := by
  rw [exec, execRleLit, he]
  simp only
  rw [if_pos (by omega)]

theorem exec_rleRep_of_cut {s : State} {x : ReadCursor} (n : BitVec 7) (he : s.engine = .reading x)
    (hcut : s.rleEnd ≤ s.rlePtr + 1) : exec (.rleRep n) s = .next (truncateRead x s) := by
  rw [exec, execRleRep, he]
  simp only
  rw [if_pos hcut]

/-- Settles O35: both records end in `truncateRead`. -/
theorem cutRecordEndsRead : Obligations.CutRecordEndsRead := by
  intro s x n he hprod hrem
  have hend := truncateRead_of_lt hprod hrem
  exact ⟨fun hcut => by rw [exec_rleLit_of_cut he hcut, hend]; rfl,
    fun hcut => by rw [exec_rleRep_of_cut n he hcut, hend]; rfl⟩

/-! ### RLE: the record at RLE_PTR -/

theorem decodeRecord_not_command (b : Byte) : (decodeRecord b).isCommand = false := by
  obtain ⟨n, h⟩ | h | ⟨n, h, -⟩ := decodeRecord_cases b <;> rw [h] <;> rfl

/-- While an RLE_READ wants a record, it runs the one at RLE_PTR (R131, R133). -/
theorem streamStep_record {s : State} {x : ReadCursor} (he : s.engine = .reading x) (hw : x.wants s) :
    streamStep s = exec (decodeRecord (Memory.read s.mem s.rlePtr)) s := by
  have hcode : s.codeAtCursor = some (decodeRecord (Memory.read s.mem s.rlePtr)) := by rw [State.codeAtCursor, he]
  rw [streamStep, if_pos ((wantsCode_reading he).2 hw), hcode]
  exact execStream_of_not_command (decodeRecord_not_command _) s

/-- Settles O20: a step inside a command is `streamStep`, which runs the code at the cursor. -/
theorem stepRunsStreamCode : Obligations.StepRunsStreamCode := by
  refine fun s => ⟨fun x he hprod hptr => ?_, fun x i rest he hw hd => ?_⟩
  · rw [step_of_stream (by simp [he])]
    exact streamStep_record he ⟨hprod, hptr⟩
  · obtain ⟨hwf, hfit, hbits, -⟩ := encodeInvertsDecode _ _ _ _ _ hd
    rw [step_of_stream (by simp [he])]
    exact streamStep_of_bits he hw hwf hfit ((List.append_nil _).symm.trans hbits)

/-! ### RLE: lists of records -/

@[simp] theorem rleBytes_nil : rleBytes [] = [] := rfl

@[simp] theorem rleExpand_nil : rleExpand [] = [] := rfl

theorem rleBytes_append (items items' : List RleItem) : rleBytes (items ++ items') = rleBytes items ++ rleBytes items' :=
  List.flatMap_append

theorem rleExpand_append (items items' : List RleItem) :
    rleExpand (items ++ items') = rleExpand items ++ rleExpand items' := List.flatMap_append

@[simp] theorem rleBytes_cons (item : RleItem) (items : List RleItem) :
    rleBytes (item :: items) = item.bytes ++ rleBytes items := List.flatMap_cons

@[simp] theorem rleExpand_cons (item : RleItem) (items : List RleItem) :
    rleExpand (item :: items) = item.expand ++ rleExpand items := List.flatMap_cons

theorem lit_valid_iff (bs : List Byte) : (RleItem.lit bs).valid = true ↔ 1 ≤ bs.length ∧ bs.length ≤ 128 := by
  simp [RleItem.valid]

theorem rep_valid_iff (v : Byte) (n : Nat) : (RleItem.rep v n).valid = true ↔ 2 ≤ n ∧ n ≤ 128 := by
  simp [RleItem.valid]

theorem record_bytes_pos (item : RleItem) : 0 < item.bytes.length := by
  cases item <;> exact Nat.succ_pos _

/-- Each record takes at least its control byte. -/
theorem length_le_rleBytes (items : List RleItem) : items.length ≤ (rleBytes items).length := by
  induction items with
  | nil => exact le_refl _
  | cons item items ih =>
    have := record_bytes_pos item
    rw [rleBytes_cons, List.length_cons, List.length_append]
    omega

/-- A literal record is cut when fewer than its n+1 bytes follow (R141). -/
theorem cutRecord_literal_iff (n : BitVec 7) (rest : List Byte) :
    cutRecord ((0#1 ++ n) :: rest) = true ↔ rest.length < n.toNat + 1 := by
  have hlt := n.isLt
  simp only [cutRecord, toNat_literalByte, Bool.or_eq_true, Bool.and_eq_true, decide_eq_true_eq]
  exact ⟨fun h => by omega, fun h => .inl ⟨by omega, h⟩⟩

/-- A replicate record is cut when no byte follows (R141). -/
theorem cutRecord_replicate_iff {n : BitVec 7} (hn : n ≠ 0#7) (rest : List Byte) :
    cutRecord ((1#1 ++ n) :: rest) = true ↔ rest = [] := by
  have hpos := toNat_pos_of_ne_zero hn
  simp only [cutRecord, toNat_replicateByte, Bool.or_eq_true, Bool.and_eq_true, decide_eq_true_eq, List.isEmpty_iff]
  exact ⟨fun h => (h.resolve_left (by omega)).2, fun h => .inr ⟨by omega, h⟩⟩

/-- The records that a read of `need` bytes more begins (R133, R138): one after the other while bytes are wanted. -/
def recordsFor : Nat → List RleItem → List RleItem
  | _, [] => []
  | need, item :: items => if need = 0 then [] else item :: recordsFor (need - item.expand.length) items

@[simp] theorem recordsFor_nil (need : Nat) : recordsFor need [] = [] := rfl

@[simp] theorem recordsFor_zero (items : List RleItem) : recordsFor 0 items = [] := by
  cases items <;> rfl

theorem recordsFor_cons {need : Nat} (h : 0 < need) (item : RleItem) (items : List RleItem) :
    recordsFor need (item :: items) = item :: recordsFor (need - item.expand.length) items :=
  if_neg (Nat.ne_of_gt h)

/-- The records read and the records left (R133). -/
theorem recordsFor_append_drop (need : Nat) (items : List RleItem) :
    recordsFor need items ++ items.drop (recordsFor need items).length = items := by
  induction items generalizing need with
  | nil => rfl
  | cons item items ih =>
    obtain rfl | hneed := Nat.eq_zero_or_pos need
    · simp
    · rw [recordsFor_cons hneed, List.length_cons, List.drop_succ_cons, List.cons_append, ih]

/-- The records read give the bytes needed, or there are no more records (R138). -/
theorem recordsFor_enough (need : Nat) (items : List RleItem) :
    need ≤ (rleExpand (recordsFor need items)).length ∨ recordsFor need items = items := by
  induction items generalizing need with
  | nil => exact .inr rfl
  | cons item items ih =>
    obtain rfl | hneed := Nat.eq_zero_or_pos need
    · exact .inl (Nat.zero_le _)
    · rw [recordsFor_cons hneed, rleExpand_cons, List.length_append]
      exact (ih (need - item.expand.length)).imp (fun h => by omega) (congrArg _)

/-- Before the last record read, bytes were still needed (R138). -/
theorem recordsFor_short {need : Nat} {items front : List RleItem} {last : RleItem}
    (h : recordsFor need items = front ++ [last]) : (rleExpand front).length < need := by
  induction items generalizing need front with
  | nil => simp at h
  | cons item items ih =>
    obtain rfl | hneed := Nat.eq_zero_or_pos need
    · simp at h
    · rw [recordsFor_cons hneed] at h
      cases front with
      | nil => exact hneed
      | cons first front =>
        obtain ⟨rfl, htail⟩ := List.cons.inj h
        have := ih htail
        rw [rleExpand_cons, List.length_append]
        omega

/-- A read of `need + more` bytes begins the records of a read of `need` bytes, then those of a read of the bytes still
missing (R143). -/
theorem recordsFor_add (need more : Nat) (items : List RleItem) :
    recordsFor (need + more) items =
      recordsFor need items ++
        recordsFor (more - ((rleExpand (recordsFor need items)).length - need))
          (items.drop (recordsFor need items).length) := by
  induction items generalizing need more with
  | nil => rfl
  | cons item items ih =>
    obtain rfl | hneed := Nat.eq_zero_or_pos need
    · simp
    · rw [recordsFor_cons (by omega), recordsFor_cons hneed, rleExpand_cons, List.length_append, List.length_cons,
        List.drop_succ_cons, List.cons_append]
      obtain hle | hle := Nat.le_total item.expand.length need
      · rw [show need + more - item.expand.length = need - item.expand.length + more by omega, ih]
        congr 3; omega
      · rw [show need - item.expand.length = 0 by omega, recordsFor_zero, List.nil_append, List.length_nil,
          List.drop_zero, rleExpand_nil, List.length_nil]
        congr 2; omega

/-! ### RLE: the record of a list at RLE_PTR -/

/-- A block read that is two lists in a row, read one by one. -/
theorem Memory.readList_eq_append {m : Memory} {a n : Nat} {xs ys : List Byte}
    (h : Memory.readList m a n = xs ++ ys) :
    n = xs.length + ys.length ∧ Memory.readList m a xs.length = xs ∧
      Memory.readList m (a + xs.length) ys.length = ys := by
  have hn : n = xs.length + ys.length := by
    have := congrArg List.length h
    rwa [Memory.readList_length, List.length_append] at this
  rw [hn, Memory.readList_append] at h
  exact ⟨hn, List.append_inj h (Memory.readList_length ..)⟩

/-- An unread source of two lists in a row ends after both. -/
theorem rleEnd_of_unread {s : State} {xs ys : List Byte} (hle : s.rlePtr ≤ s.rleEnd)
    (h : unreadSource s = xs ++ ys) : s.rlePtr + xs.length + ys.length = s.rleEnd := by
  have := (Memory.readList_eq_append h).1
  omega

/-- The control byte of an unread source, and its payload. -/
theorem unreadSource_cons {s : State} {b : Byte} {payload rest : List Byte}
    (h : unreadSource s = (b :: payload) ++ rest) :
    Memory.read s.mem s.rlePtr = b ∧ Memory.readList s.mem (s.rlePtr + 1) payload.length = payload :=
  List.cons.inj (Memory.readList_eq_append h).2.1

theorem decodeRecord_of_literalLength {k : Nat} (h : k < 128) :
    decodeRecord (BitVec.ofNat 8 k) = .rleLit (BitVec.ofNat 7 k) := by
  have hbyte : BitVec.ofNat 8 k = 0#1 ++ BitVec.ofNat 7 k :=
    BitVec.eq_of_toNat_eq (by rw [toNat_literalByte, BitVec.toNat_ofNat, BitVec.toNat_ofNat]; omega)
  rw [hbyte, decodeRecord_literal]

theorem decodeRecord_of_copies {n : Nat} (h2 : 2 ≤ n) (h128 : n ≤ 128) :
    decodeRecord (BitVec.ofNat 8 (257 - n)) = .rleRep (BitVec.ofNat 7 (129 - n)) := by
  have hfield : (BitVec.ofNat 7 (129 - n)).toNat = 129 - n := by rw [BitVec.toNat_ofNat]; omega
  have hbyte : BitVec.ofNat 8 (257 - n) = 1#1 ++ BitVec.ofNat 7 (129 - n) :=
    BitVec.eq_of_toNat_eq (by rw [toNat_replicateByte, hfield, BitVec.toNat_ofNat]; omega)
  rw [hbyte, decodeRecord_replicate]
  intro h0
  rw [h0, BitVec.toNat_ofNat] at hfield
  omega

/-- The delivery of nothing, with no remainder to replace. -/
theorem deliver_nil {s : State} {x : ReadCursor} (he : s.engine = .reading x) (hrem : s.rem = []) :
    deliver x [] s = s := by
  cases s
  simp only at he hrem
  subst he hrem
  simp [deliver]

/-- A valid record at RLE_PTR of an RLE_READ that wants bytes and has no remainder is delivered (R133, R135 to R137). -/
theorem streamStep_item {s : State} {x : ReadCursor} {item : RleItem} {rest : List Byte} (he : s.engine = .reading x)
    (hroom : x.produced < x.max) (hrem : s.rem = []) (hle : s.rlePtr ≤ s.rleEnd) (hv : item.valid = true)
    (hsrc : unreadSource s = item.bytes ++ rest) :
    streamStep s = .next (deliver x item.expand { s with rlePtr := s.rlePtr + item.bytes.length }) := by
  have hend := rleEnd_of_unread hle hsrc
  have hpos := record_bytes_pos item
  rw [streamStep_record he ⟨hroom, by omega⟩]
  cases item with
  | lit bs =>
    obtain ⟨h1, h128⟩ : 1 ≤ bs.length ∧ bs.length ≤ 128 := (lit_valid_iff bs).1 hv
    have hcount : (BitVec.ofNat 7 (bs.length - 1)).toNat + 1 = bs.length := by rw [BitVec.toNat_ofNat]; omega
    have hlen : (RleItem.lit bs).bytes.length = 1 + bs.length := Nat.add_comm _ _
    obtain ⟨hctl, hpay⟩ := unreadSource_cons hsrc
    rw [hctl, decodeRecord_of_literalLength (by omega),
      literalRecordExpands s x _ he (by omega), hcount, hpay, hlen, ← Nat.add_assoc]
    rfl
  | rep v n =>
    obtain ⟨h2, h128⟩ : 2 ≤ n ∧ n ≤ 128 := (rep_valid_iff v n).1 hv
    have hcount : 257 - (128 + (BitVec.ofNat 7 (129 - n)).toNat) = n := by rw [BitVec.toNat_ofNat]; omega
    have hlen : (RleItem.rep v n).bytes.length = 2 := rfl
    obtain ⟨hctl, hpay⟩ := unreadSource_cons hsrc
    have hbyte : Memory.read s.mem (s.rlePtr + 1) = v := (List.cons.inj hpay).1
    rw [hctl, decodeRecord_of_copies h2 h128, replicateRecordExpands s x _ he (by omega), hcount, hbyte]
    simp only [RleItem.expand, deliver, List.length_replicate, hlen]
  | nop =>
    have hctl : Memory.read s.mem s.rlePtr = 0x80#8 := (unreadSource_cons hsrc).1
    have hnop : decodeRecord 0x80#8 = .rleNop := rfl
    rw [hctl, hnop, noOpRecordIsSkipped s x he, RleItem.expand, deliver_nil (by exact he) (by exact hrem)]
    rfl

/-- A cut record at RLE_PTR of an RLE_READ that wants bytes ends it (R141). -/
theorem streamStep_cut {s : State} {x : ReadCursor} {cut : List Byte} (he : s.engine = .reading x)
    (hroom : x.produced < x.max) (hle : s.rlePtr ≤ s.rleEnd) (hcut : cutRecord cut = true)
    (hsrc : unreadSource s = cut) : streamStep s = .next (truncateRead x s) := by
  cases cut with
  | nil => cases hcut
  | cons b rest =>
    have hend := rleEnd_of_unread (xs := [b]) (ys := rest) hle hsrc
    rw [List.length_singleton] at hend
    rw [streamStep_record he ⟨hroom, by omega⟩, (unreadSource_cons (payload := []) hsrc).1]
    obtain ⟨n, rfl⟩ | rfl | ⟨n, hn, rfl⟩ := controlByte_cases b
    · have hshort := (cutRecord_literal_iff n rest).1 hcut
      rw [decodeRecord_literal, exec_rleLit_of_cut he (by omega)]
    · cases hcut
    · rw [(cutRecord_replicate_iff hn rest).1 hcut, List.length_nil] at hend
      rw [decodeRecord_replicate hn, exec_rleRep_of_cut n he (by omega)]

/-- An RLE_READ that wants no record ends (R138). -/
theorem streamStep_finish {s : State} {x : ReadCursor} (he : s.engine = .reading x) (h : ¬x.wants s) :
    streamStep s = .next (finishRead x s) := by
  have hfinish : s.finish = finishRead x s := by rw [State.finish, he]
  rw [streamStep, if_neg fun hw => h ((wantsCode_reading he).1 hw), hfinish]

/-! ### RLE: a read after a list of records -/

theorem take_min_length {α : Type} (l : List α) (n : Nat) : l.take (min l.length n) = l.take n := by
  rw [List.take_eq_take_iff]; omega

theorem drop_min_length {α : Type} (l : List α) (n : Nat) : l.drop (min l.length n) = l.drop n := by
  rw [List.drop_eq_drop_iff]; omega

/-- The remainder and the expansions of the records, in order: what a read can deliver (R138). -/
def State.available (s : State) (items : List RleItem) : List Byte := s.rem ++ rleExpand items

@[simp] theorem available_nil (s : State) : s.available [] = s.rem := List.append_nil _

theorem available_append (s : State) (items items' : List RleItem) :
    s.available (items ++ items') = s.available items ++ rleExpand items' := by
  rw [State.available, State.available, rleExpand_append, List.append_assoc]

theorem available_length (s : State) (items : List RleItem) :
    (s.available items).length = s.rem.length + (rleExpand items).length := List.length_append

/-- An RLE_READ of `max` bytes to `dst` that began at `s`, after the remainder and the records: as much as fits is at the
destination, the rest is the remainder (R133, R134, R139). -/
def State.afterRecords (s : State) (dst max : Nat) (items : List RleItem) : State :=
  { s with
    mem := Memory.writeList s.mem dst ((s.available items).take max)
    rem := (s.available items).drop max
    rlePtr := s.rlePtr + (rleBytes items).length
    engine := .reading ⟨dst, max, min (s.available items).length max⟩ }

/-- A stream is open whose unread source is the records and then `cut`, and a read of `max` bytes to `dst` is admitted
(R115, R116, R145). -/
structure State.ReadsFrom (s : State) (dst max : Nat) (items : List RleItem) (cut : List Byte) : Prop where
  wf : Memory.wf s.mem = true
  opened : s.rleValid = true
  base : s.rleBase ≤ s.rlePtr
  ptr : s.rlePtr ≤ s.rleEnd
  admitted : Admitted s [⟨s.rleBase, s.rleEnd - s.rleBase⟩] [⟨dst, max⟩]
  valid : items.all RleItem.valid = true
  source : unreadSource s = rleBytes items ++ cut

/-- RLE_READ's first move is a read after no record (R134). -/
theorem startRead_eq (s : State) (dst max : Nat) : s.startRead dst max = s.afterRecords dst max [] := by
  simp [State.startRead, State.afterRecords, take_min_length, drop_min_length]

/-- A record more, while all before it fits (R133, R139). -/
theorem deliver_afterRecords {s : State} {dst max : Nat} {items : List RleItem} (item : RleItem)
    (h : (s.available items).length ≤ max) :
    deliver ⟨dst, max, min (s.available items).length max⟩ item.expand
        { s.afterRecords dst max items with rlePtr := s.rlePtr + (rleBytes items).length + item.bytes.length } =
      s.afterRecords dst max (items ++ [item]) := by
  have hall : s.available (items ++ [item]) = s.available items ++ item.expand := by simp [available_append]
  have hbytes : (rleBytes (items ++ [item])).length = (rleBytes items).length + item.bytes.length := by
    simp [rleBytes_append]
  simp only [deliver, State.afterRecords, hall, hbytes, Nat.min_eq_left h]
  generalize s.available items = out at h ⊢
  have hcount : out.length + min item.expand.length (max - out.length) = min (out.length + item.expand.length) max := by
    omega
  rw [take_min_length, drop_min_length, hcount, List.take_append, List.drop_append, List.take_of_length_le h,
    List.drop_of_length_le h, List.nil_append, Memory.writeList_append, List.length_append, Nat.add_assoc]

section Read

variable {s : State} {dst max : Nat} {items items' : List RleItem} {cut : List Byte}

/-- The source that an admitted read has still to read is not changed by what it writes (R116). -/
theorem unreadSource_afterRecords (h : s.ReadsFrom dst max (items ++ items') cut) :
    (s.afterRecords dst max items).rlePtr ≤ s.rleEnd ∧
      unreadSource (s.afterRecords dst max items) = rleBytes items' ++ cut := by
  have hsrc := h.source
  rw [rleBytes_append, List.append_assoc] at hsrc
  have hend := rleEnd_of_unread h.ptr hsrc
  obtain ⟨-, -, hrest⟩ := Memory.readList_eq_append hsrc
  have hbase := h.base
  have hapart := h.admitted.noOverlap.1 _ (List.mem_singleton_self _) _ (List.mem_singleton_self _)
  refine ⟨by simp only [State.afterRecords]; omega, ?_⟩
  simp only [unreadSource, State.afterRecords]
  rw [show s.rleEnd - (s.rlePtr + (rleBytes items).length) = (rleBytes items' ++ cut).length by omega]
  refine (Memory.readList_congr fun i hi => ?_).trans hrest
  refine Memory.read_writeList_outside h.wf _ _ _ ?_
  by_contra hin
  rw [List.length_take] at hin
  exact hapart (s.rlePtr + (rleBytes items).length + i)
    ⟨⟨by simp only; omega, by simp only; omega⟩, by simp only; omega, by simp only; omega⟩

/-- A read runs the records it needs (R133, R138). -/
theorem runStream_records (h : s.ReadsFrom dst max (items ++ items') cut) (fuel : Nat) :
    runStream (fuel + (recordsFor (max - (s.available items).length) items').length) (s.afterRecords dst max items) =
      runStream fuel
        (s.afterRecords dst max (items ++ recordsFor (max - (s.available items).length) items')) := by
  induction items' generalizing items with
  | nil => simp
  | cons item items' ih =>
    obtain hfull | hroom := le_or_gt max (s.available items).length
    · simp [Nat.sub_eq_zero_of_le hfull]
    · have hsnoc : items ++ item :: items' = (items ++ [item]) ++ items' := by simp
      have hneed : max - (s.available items).length - item.expand.length =
          max - (s.available (items ++ [item])).length := by
        simp only [available_append, rleExpand_cons, rleExpand_nil, List.length_append, List.append_nil]
        omega
      obtain ⟨hptr, hsrc⟩ := unreadSource_afterRecords h
      rw [rleBytes_cons, List.append_assoc] at hsrc
      have hv : item.valid = true := List.all_eq_true.1 h.valid item (by simp)
      have hstep := streamStep_item rfl (by simp only; omega) (List.drop_of_length_le hroom.le) hptr hv hsrc
      rw [recordsFor_cons (by omega), hneed, List.length_cons, ← Nat.add_assoc,
        runStream_succ (by simp [State.afterRecords]) (hstep.trans (congrArg _ (deliver_afterRecords item hroom.le))),
        ih (hsnoc ▸ h), List.append_assoc, List.singleton_append]

/-- The records that a read of `max` bytes consumes (R133, R138). -/
abbrev State.taken (s : State) (max : Nat) (items : List RleItem) : List RleItem :=
  recordsFor (max - s.rem.length) items

/-- An admitted RLE_READ comes to the state after the records it consumes, with a move left. -/
theorem exec_rleRead_records (h : s.ReadsFrom dst max items cut) (hdst : s.operand 0 = dst)
    (hmax : s.operand 1 = max) :
    ∃ fuel, exec .rleRead s = runStream (fuel + 1) (s.afterRecords dst max (s.taken max items)) := by
  subst hdst hmax
  have hrun := runStream_records (items := []) h
  have htaken := congrArg List.length (recordsFor_append_drop (s.operand 1 - s.rem.length) items)
  have hbytes := length_le_rleBytes items
  have hend := rleEnd_of_unread h.ptr h.source
  rw [List.length_append] at htaken
  simp only [available_nil, List.nil_append] at hrun
  refine ⟨s.rleEnd - s.rlePtr - (s.taken (s.operand 1) items).length, ?_⟩
  rw [← hrun, exec, execRleRead, guarded_of_admitted (i := .rleRead) h.opened h.admitted, startRead_eq]
  congr 1
  simp only [State.taken]
  omega

/-- The records that a read of `max` bytes leaves. -/
abbrev State.untaken (s : State) (max : Nat) (items : List RleItem) : List RleItem :=
  items.drop (s.taken max items).length

theorem taken_append_untaken (s : State) (max : Nat) (items : List RleItem) :
    s.taken max items ++ s.untaken max items = items := recordsFor_append_drop _ _

/-- What a read can deliver is what its records give, and what the records it leaves give. -/
theorem available_eq_append (s : State) (max : Nat) (items : List RleItem) :
    s.available items = s.available (s.taken max items) ++ rleExpand (s.untaken max items) := by
  rw [← available_append, taken_append_untaken]

/-- The records of a read give the bytes it asks for, or none are left. -/
theorem available_taken (s : State) (max : Nat) (items : List RleItem) :
    max ≤ (s.available (s.taken max items)).length ∨ s.untaken max items = [] := by
  refine (recordsFor_enough (max - s.rem.length) items).imp (fun h => ?_) fun hall => ?_
  · rw [available_length]
    exact Nat.sub_le_iff_le_add'.1 h
  · exact List.drop_of_length_le (congrArg List.length hall).ge

/-- A read that its records do not fill takes them all. -/
theorem taken_of_short {s : State} {max : Nat} {items : List RleItem}
    (h : (s.available (s.taken max items)).length < max) : s.taken max items = items := by
  have hall := taken_append_untaken s max items
  rwa [(available_taken s max items).resolve_left (Nat.not_le.2 h), List.append_nil] at hall

/-- The records a read leaves have no part in what it delivers. -/
theorem take_available_taken (s : State) (max : Nat) (items : List RleItem) :
    (s.available (s.taken max items)).take max = (s.available items).take max := by
  rw [available_eq_append s max items]
  obtain hfull | hnone := available_taken s max items
  · rw [List.take_append_of_le_length hfull]
  · rw [hnone, rleExpand_nil, List.append_nil]

theorem min_available_taken (s : State) (max : Nat) (items : List RleItem) :
    min (s.available (s.taken max items)).length max = min (s.available items).length max := by
  have := congrArg List.length (take_available_taken s max items)
  rw [List.length_take, List.length_take] at this
  rwa [Nat.min_comm, Nat.min_comm _ max]

end Read

/-! ### RLE_READ to its end -/

/-- The end of an RLE_READ that reaches no cut record (R138, R142). -/
def State.afterRead (s : State) (dst max : Nat) (items : List RleItem) : State :=
  finishRead ⟨dst, max, min (s.available (s.taken max items)).length max⟩
    (s.afterRecords dst max (s.taken max items))

@[simp] theorem afterRead_mem (s : State) (dst max : Nat) (items : List RleItem) :
    (s.afterRead dst max items).mem =
      Memory.writeList s.mem dst ((s.available (s.taken max items)).take max) := rfl

@[simp] theorem afterRead_rem (s : State) (dst max : Nat) (items : List RleItem) :
    (s.afterRead dst max items).rem = (s.available (s.taken max items)).drop max := rfl

@[simp] theorem afterRead_ptr (s : State) (dst max : Nat) (items : List RleItem) :
    (s.afterRead dst max items).rlePtr = s.rlePtr + (rleBytes (s.taken max items)).length := rfl

@[simp] theorem afterRead_result0 (s : State) (dst max : Nat) (items : List RleItem) :
    (s.afterRead dst max items).result0 = regWord (min (s.available (s.taken max items)).length max) := rfl

@[simp] theorem afterRead_result1 (s : State) (dst max : Nat) (items : List RleItem) :
    (s.afterRead dst max items).result1 = regWord (s.afterRead dst max items).rem.length := rfl

section Read

variable {s : State} {dst max : Nat} {items : List RleItem} {cut : List Byte}

/-- An admitted RLE_READ that reaches no cut record ends after the records it consumes (R138). -/
theorem exec_rleRead_of_whole (h : s.ReadsFrom dst max items cut) (hdst : s.operand 0 = dst) (hmax : s.operand 1 = max)
    (hcut : cut = [] ∨ max ≤ (s.available items).length) :
    exec .rleRead s = .next (s.afterRead dst max items) := by
  obtain ⟨fuel, hrun⟩ := exec_rleRead_records h hdst hmax
  rw [hrun, runStream_succ (by simp [State.afterRecords]) (streamStep_finish rfl ?_), runStream_idle rfl,
    State.afterRead]
  rintro ⟨hroom, hptr⟩
  simp only at hroom
  have hall : s.taken max items = items := taken_of_short (by omega)
  rw [hall] at hroom hptr
  obtain rfl | hfull := hcut
  · have hend := rleEnd_of_unread h.ptr h.source
    simp only [State.afterRecords, List.length_nil] at hptr hend
    omega
  · omega

/-- An admitted RLE_READ of more than its source's whole records give ends at the cut record (R141). -/
theorem exec_rleRead_of_cut (h : s.ReadsFrom dst max items cut) (hdst : s.operand 0 = dst) (hmax : s.operand 1 = max)
    (hcut : cutRecord cut = true) (hlong : (s.available items).length < max) :
    exec .rleRead s =
      .next (truncateRead ⟨dst, max, (s.available items).length⟩ (s.afterRecords dst max items)) := by
  have hshort : (s.available (s.taken max items)).length < max := by
    rw [available_eq_append s max items, List.length_append] at hlong
    omega
  have hall := taken_of_short hshort
  obtain ⟨fuel, hrun⟩ := exec_rleRead_records h hdst hmax
  obtain ⟨hptr, hsrc⟩ := unreadSource_afterRecords (items := items) (items' := []) (by simpa using h)
  rw [hrun, hall, runStream_succ (by simp [State.afterRecords])
    (streamStep_cut rfl (by simp only; omega) hptr hcut hsrc), runStream_idle rfl, Nat.min_eq_left hlong.le]

/-- Settles O31: the whole records are run, and the cut one ends the read. -/
theorem rleReadReportsTruncation : Obligations.RleReadReportsTruncation := by
  intro s items cut hm hv hbase hptr hadm hvalid hcut hsrc hlong
  have hexec := exec_rleRead_of_cut ⟨hm, hv, hbase, hptr, hadm, hvalid, hsrc⟩ rfl rfl hcut hlong
  have hmax := s.operand_lt 1
  have hrem : (s.available items).drop (s.operand 1) = [] := List.drop_of_length_le hlong.le
  have hmem : (s.available items).take (s.operand 1) = s.available items := List.take_of_length_le hlong.le
  refine ⟨_, hexec, ⟨rfl, rfl, rfl, regWord_of_lt (hlong.trans hmax), ?_, rfl, rfl, (execRleRead_frame hexec).1⟩,
    congrArg (Memory.writeList s.mem (s.operand 0)) hmem, rfl, hrem, rfl, rfl, rfl, hv, rfl⟩
  show regWord ((s.available items).drop (s.operand 1)).length = 0
  rw [hrem]
  rfl

theorem expand_length_le {item : RleItem} (h : item.valid = true) : item.expand.length ≤ 128 := by
  cases item with
  | lit bs => exact ((lit_valid_iff bs).1 h).2
  | rep v n => simpa [RleItem.expand] using ((rep_valid_iff v n).1 h).2
  | nop => exact Nat.zero_le _

/-- A read leaves a part of the remainder, or of one record (R139). -/
theorem length_leftover_le (s : State) (max : Nat) (hvalid : items.all RleItem.valid = true) :
    ((s.available (s.taken max items)).drop max).length ≤ s.rem.length ∨
      ((s.available (s.taken max items)).drop max).length ≤ 128 := by
  rw [List.length_drop, available_length]
  obtain hnil | ⟨front, last, hlast⟩ := List.eq_nil_or_concat (s.taken max items)
  · rw [hnil, rleExpand_nil, List.length_nil]
    omega
  · rw [List.concat_eq_append] at hlast
    have hshort := recordsFor_short hlast
    have hmem : last ∈ items := by
      rw [← taken_append_untaken s max items, hlast]
      simp
    have hle := expand_length_le (List.all_eq_true.1 hvalid last hmem)
    rw [hlast, rleExpand_append, rleExpand_cons, rleExpand_nil, List.append_nil, List.length_append]
    omega

/-- The end of a read that reaches no cut record: RESULT0 counts the bytes delivered, RESULT1 those left (R142). -/
theorem completed_afterRead (hvalid : items.all RleItem.valid = true) (hrem : s.rem.length < 2 ^ 32)
    (hexec : exec .rleRead s = .next (s.afterRead (s.operand 0) (s.operand 1) items)) :
    Completed s (s.afterRead (s.operand 0) (s.operand 1) items) .none
      (BitVec.ofNat 32 (min (s.available items).length (s.operand 1)))
      (BitVec.ofNat 32 (s.afterRead (s.operand 0) (s.operand 1) items).rem.length) 0 := by
  have hmax := s.operand_lt 1
  have hleft := length_leftover_le s (s.operand 1) hvalid
  refine ⟨rfl, rfl, rfl, ?_, ?_, rfl, rfl, (execRleRead_frame hexec).1⟩
  · rw [afterRead_result0, min_available_taken, regWord_of_lt (by omega)]
  · rw [afterRead_result1, regWord_of_lt (by rw [afterRead_rem]; omega)]

/-- Settles O30: the records taken are the shortest run that gives the bytes delivered. -/
theorem rleReadDeliversExpansions : Obligations.RleReadDeliversExpansions := by
  intro s items cut hm hv hbase hptr hrem hadm hvalid hsrc hcut
  have hexec := exec_rleRead_of_whole ⟨hm, hv, hbase, hptr, hadm, hvalid, hsrc⟩ rfl rfl (hcut.imp id And.right)
  have hcount := min_available_taken s (s.operand 1) items
  have hmem := (take_available_taken s (s.operand 1) items).trans (take_min_length _ _).symm
  have hleft := (drop_min_length (s.available (s.taken (s.operand 1) items)) (s.operand 1)).symm
  rw [hcount] at hleft
  refine ⟨_, s.taken (s.operand 1) items, s.untaken (s.operand 1) items, hexec, (taken_append_untaken s _ items).symm,
    ⟨completed_afterRead hvalid hrem hexec, congrArg (Memory.writeList s.mem (s.operand 0)) hmem, rfl, hleft,
      fun hless => ?_, hcount ▸ Nat.min_le_left _ _, fun front last hlast => ?_⟩, rfl, rfl, hv, rfl, rfl⟩
  · refine (available_taken s (s.operand 1) items).resolve_left fun hfull => hless.ne ?_
    exact hcount.symm.trans (Nat.min_eq_right hfull)
  · have hshort := recordsFor_short hlast
    rw [List.length_append]
    omega

end Read

/-! ### RLE: reads in a row -/

/-- A block write of the first bytes, then of the next ones. -/
theorem Memory.writeList_take_add (m : Memory) (a n k : Nat) (bs : List Byte) :
    Memory.writeList m a (bs.take (n + k)) =
      Memory.writeList (Memory.writeList m a (bs.take n)) (a + n) ((bs.drop n).take k) := by
  rw [List.take_add, Memory.writeList_append, List.length_take]
  obtain hle | hle := Nat.le_total n bs.length
  · rw [Nat.min_eq_left hle]
  · rw [List.drop_of_length_le hle, List.take_nil, Memory.writeList_nil, Memory.writeList_nil]

/-- What is admitted of one source and one destination (R67, R115, R116). -/
theorem admitted_pair_iff {s : State} {v w : Window} :
    Admitted s [v] [w] ↔
      (v.base + v.len ≤ s.cfg.memBytes ∧ w.base + w.len ≤ s.cfg.memBytes) ∧ Apart v w ∧
        (s.cfg.regsInMem = true → Apart v ⟨s.cfg.regBase, 0x100⟩ ∧ Apart w ⟨s.cfg.regBase, 0x100⟩) := by
  constructor
  · rintro ⟨hmem, ⟨hapart, -⟩, hoff⟩
    exact ⟨by simpa [InMemory] using hmem, by simpa using hapart, by simpa [OffRegisters] using hoff⟩
  · rintro ⟨hmem, hapart, hoff⟩
    exact ⟨by simpa [InMemory] using hmem, ⟨by simpa using hapart, List.pairwise_singleton _ _⟩,
      by simpa [OffRegisters] using hoff⟩

/-- A part of an admitted destination is admitted, with the same parameters. -/
theorem admitted_part {s t : State} {v : Window} {d n off k : Nat} (h : Admitted s [v] [⟨d, n⟩])
    (hcfg : t.cfg = s.cfg) (hk : off + k ≤ n) : Admitted t [v] [⟨d + off, k⟩] := by
  obtain ⟨⟨hsrc, hdst⟩, hapart, hoff⟩ := admitted_pair_iff.1 h
  have hin : ∀ a, In ⟨d + off, k⟩ a → In ⟨d, n⟩ a := fun a ⟨hlo, hhi⟩ =>
    ⟨(Nat.le_add_right d off).trans hlo, hhi.trans_le (by simp only; omega)⟩
  rw [admitted_pair_iff, hcfg]
  exact ⟨⟨hsrc, by simp only at hdst ⊢; omega⟩, fun a ha => hapart a ⟨ha.1, hin a ha.2⟩, fun hregs =>
    ⟨(hoff hregs).1, fun a ha => (hoff hregs).2 a ⟨hin a ha.1, ha.2⟩⟩⟩

theorem readCall_operands {dst max : Nat} (hdst : dst < 2 ^ 32) (hmax : max < 2 ^ 32) (s : State) :
    (readCall dst max s).operand 0 = dst ∧ (readCall dst max s).operand 1 = max :=
  ⟨by simp only [State.operand, readCall, Args.get, BitVec.toNat_ofNat]; omega,
    by simp only [State.operand, readCall, Args.get, BitVec.toNat_ofNat]; omega⟩

/-- The memory and the reading state of the RLE unit are those of `u` (R143). -/
structure SameReading (t u : State) : Prop where
  mem : t.mem = u.mem
  ptr : t.rlePtr = u.rlePtr
  rem : t.rem = u.rem
  trunc : t.rleTrunc = u.rleTrunc

theorem SameReading.symm {t u : State} (h : SameReading t u) : SameReading u t :=
  ⟨h.mem.symm, h.ptr.symm, h.rem.symm, h.trunc.symm⟩

theorem SameReading.trans {t u v : State} (h : SameReading t u) (h' : SameReading u v) : SameReading t v :=
  ⟨h.mem.trans h'.mem, h.ptr.trans h'.ptr, h.rem.trans h'.rem, h.trunc.trans h'.trunc⟩

/-- The latched arguments play no part in what a read leaves. -/
theorem afterRead_readCall (s : State) (d m dst max : Nat) (items : List RleItem) :
    SameReading ((readCall d m s).afterRead dst max items) (s.afterRead dst max items) := ⟨rfl, rfl, rfl, rfl⟩

section Split

variable {s u : State} {n more : Nat} {items : List RleItem}

/-- A read of `n + more` bytes takes the records of a read of `n` bytes, then those of a read of `more` bytes after it. -/
theorem taken_add (hrem : u.rem = (s.available (s.taken n items)).drop n) :
    s.taken (n + more) items = s.taken n items ++ u.taken more (s.untaken n items) := by
  have hlen := congrArg List.length hrem
  rw [List.length_drop, available_length] at hlen
  obtain hle | hle := Nat.le_total s.rem.length n
  · simp only [State.taken, State.untaken] at hlen ⊢
    rw [show n + more - s.rem.length = n - s.rem.length + more by omega, recordsFor_add]
    congr 2; omega
  · have hnone : s.taken n items = [] := by
      rw [State.taken, Nat.sub_eq_zero_of_le hle, recordsFor_zero]
    rw [State.untaken, hnone, List.length_nil, List.drop_zero, List.nil_append]
    rw [hnone, rleExpand_nil, List.length_nil] at hlen
    simp only [State.taken]
    congr 1; omega

/-- A read of `n` bytes and then one of `more` bytes leave what one read of `n + more` bytes leaves (R143). -/
theorem afterRead_add (s : State) (dst n more : Nat) (items : List RleItem) :
    SameReading ((s.afterRead dst n items).afterRead (dst + n) more (s.untaken n items))
      (s.afterRead dst (n + more) items) := by
  generalize hu : s.afterRead dst n items = u
  have hmem : u.mem = Memory.writeList s.mem dst ((s.available (s.taken n items)).take n) := hu ▸ rfl
  have hptr : u.rlePtr = s.rlePtr + (rleBytes (s.taken n items)).length := hu ▸ rfl
  have hrem : u.rem = (s.available (s.taken n items)).drop n := hu ▸ rfl
  have htrunc : u.rleTrunc = s.rleTrunc := hu ▸ rfl
  have hstop := available_taken s n items
  have hall := taken_add (more := more) hrem
  have hrest : u.available (u.taken more (s.untaken n items)) =
      (s.available (s.taken n items ++ u.taken more (s.untaken n items))).drop n := by
    rw [State.available, hrem, available_append]
    obtain hfull | hnone := hstop
    · rw [List.drop_append_of_le_length hfull]
    · simp [hnone]
  have hfirst : (s.available (s.taken n items)).take n =
      (s.available (s.taken n items ++ u.taken more (s.untaken n items))).take n := by
    rw [available_append]
    obtain hfull | hnone := hstop
    · rw [List.take_append_of_le_length hfull]
    · simp [hnone]
  refine ⟨?_, ?_, ?_, htrunc⟩
  · rw [afterRead_mem, afterRead_mem, hall, Memory.writeList_take_add, hmem, hfirst, hrest]
  · rw [afterRead_ptr, afterRead_ptr, hall, hptr, rleBytes_append, List.length_append, Nat.add_assoc]
  · rw [afterRead_rem, afterRead_rem, hall, hrest, List.drop_drop]

end Split

section Reads

variable {s : State} {dst n more : Nat} {items : List RleItem} {cut : List Byte}

/-- The latched arguments are not part of the stream. -/
theorem State.ReadsFrom.call (h : s.ReadsFrom dst n items cut) (d m : Nat) :
    (readCall d m s).ReadsFrom dst n items cut :=
  { h with admitted := admitted_part (off := 0) h.admitted rfl (Nat.zero_add n).le }

theorem State.ReadsFrom.part (h : s.ReadsFrom dst (n + more) items cut) : s.ReadsFrom dst n items cut :=
  { h with admitted := admitted_part (off := 0) h.admitted rfl (by omega) }

/-- After a read the next one goes on with the records that are left. -/
theorem State.ReadsFrom.next (h : s.ReadsFrom dst (n + more) items cut) :
    (s.afterRead dst n items).ReadsFrom (dst + n) more (s.untaken n items) cut := by
  have hall := taken_append_untaken s n items
  obtain ⟨hptr, hsrc⟩ := unreadSource_afterRecords (hall.symm ▸ h.part)
  exact
    { wf := Memory.wf_writeList h.wf _ _
      opened := h.opened
      base := h.base.trans (Nat.le_add_right _ _)
      ptr := hptr
      admitted := admitted_part (off := n) h.admitted rfl (le_refl _)
      valid := List.all_eq_true.2 fun item hi => List.all_eq_true.1 h.valid item (List.mem_of_mem_drop hi)
      source := hsrc }

/-- What a next read can deliver is what one longer read could deliver beyond the bytes read. -/
theorem available_length_next (dst : Nat) (hle : n + more ≤ (s.available items).length) :
    more ≤ ((s.afterRead dst n items).available (s.untaken n items)).length := by
  rw [available_eq_append s n items, List.length_append] at hle
  rw [available_length, afterRead_rem, List.length_drop]
  omega

/-- Reads of those sizes in a row leave what one read of their sum leaves, when that reaches no cut record (R143). -/
theorem readCalls_records {sizes : List Nat} (h : s.ReadsFrom dst sizes.sum items cut)
    (hcut : cut = [] ∨ sizes.sum ≤ (s.available items).length) (hlt : dst + sizes.sum < 2 ^ 32) :
    ∃ t, readCalls dst sizes s = some t ∧ SameReading t (s.afterRead dst sizes.sum items) := by
  induction sizes generalizing s dst items with
  | nil =>
    have hnone : s.taken 0 items = [] := by simp [State.taken]
    refine ⟨s, rfl, ?_, ?_, ?_, rfl⟩
    · simp [afterRead_mem]
    · simp [afterRead_ptr, hnone]
    · simp [afterRead_rem, hnone]
  | cons n sizes ih =>
    rw [List.sum_cons] at h hcut hlt ⊢
    obtain ⟨h0, h1⟩ := readCall_operands (dst := dst) (max := n) (by omega) (by omega) s
    have hcall := h.call dst n
    have hexec := exec_rleRead_of_whole hcall.part h0 h1 (hcut.imp id (Nat.le_add_right _ _).trans)
    obtain ⟨t, hcalls, hsame⟩ := ih hcall.next (hcut.imp id (available_length_next dst)) (by omega)
    refine ⟨t, ?_, (hsame.trans (afterRead_add _ dst n sizes.sum items)).trans (afterRead_readCall ..)⟩
    rw [readCalls, hexec]
    exact hcalls

end Reads

/-- The bytes are valid records and then nothing or a cut record (R79, R141). -/
def IsRecords (src : List Byte) : Prop :=
  ∃ items cut, items.all RleItem.valid = true ∧ src = rleBytes items ++ cut ∧ (cut = [] ∨ cutRecord cut = true)

theorem IsRecords.cons {item : RleItem} {rest : List Byte} (hv : item.valid = true) (h : IsRecords rest) :
    IsRecords (item.bytes ++ rest) := by
  obtain ⟨items, cut, hitems, rfl, hcut⟩ := h
  exact ⟨item :: items, cut, by simp [hv, hitems], by simp, hcut⟩

theorem isRecords_of_cut {src : List Byte} (h : cutRecord src = true) : IsRecords src :=
  ⟨[], src, rfl, rfl, .inr h⟩

/-- The code space is total, so every source is of that form (R79). -/
theorem isRecords (src : List Byte) : IsRecords src := by
  match src with
  | [] => exact ⟨[], [], rfl, rfl, .inl rfl⟩
  | b :: rest =>
    obtain ⟨n, rfl⟩ | rfl | ⟨n, hn, rfl⟩ := controlByte_cases b
    · have hlt := n.isLt
      obtain hshort | hwhole := lt_or_ge rest.length (n.toNat + 1)
      · exact isRecords_of_cut ((cutRecord_literal_iff n rest).2 hshort)
      · have hlen : (rest.take (n.toNat + 1)).length = n.toNat + 1 := by rw [List.length_take]; omega
        have hctl : BitVec.ofNat 8 (n.toNat + 1 - 1) = 0#1 ++ n :=
          BitVec.eq_of_toNat_eq (by rw [toNat_literalByte, BitVec.toNat_ofNat]; omega)
        have hsplit : (0#1 ++ n) :: rest = (RleItem.lit (rest.take (n.toNat + 1))).bytes ++ rest.drop (n.toNat + 1) := by
          rw [RleItem.bytes, hlen, hctl, List.cons_append, List.take_append_drop]
        rw [hsplit]
        exact .cons ((lit_valid_iff _).2 (by omega)) (isRecords (rest.drop (n.toNat + 1)))
    · exact .cons (item := .nop) rfl (isRecords rest)
    · have hlt := n.isLt
      have hpos := toNat_pos_of_ne_zero hn
      match rest with
      | [] => exact isRecords_of_cut ((cutRecord_replicate_iff hn []).2 rfl)
      | v :: rest =>
        have hctl : BitVec.ofNat 8 (257 - (129 - n.toNat)) = 1#1 ++ n :=
          BitVec.eq_of_toNat_eq (by rw [toNat_replicateByte, BitVec.toNat_ofNat]; omega)
        have hsplit : (1#1 ++ n) :: v :: rest = (RleItem.rep v (129 - n.toNat)).bytes ++ rest := by
          rw [RleItem.bytes, hctl]
          rfl
        rw [hsplit]
        exact .cons ((rep_valid_iff ..).2 (by omega)) (isRecords rest)
termination_by src.length

/-- Settles O36: the one read ends with no error, so it reaches no cut record, and neither do the reads in a row. -/
theorem chunkedReadsAgree : Obligations.ChunkedReadsAgree := by
  intro s u dst sizes hm hv hbase hptr hlt hadm hexec herr
  obtain ⟨items, cut, hvalid, hsrc, hcut⟩ := isRecords (unreadSource s)
  have h : s.ReadsFrom dst sizes.sum items cut := ⟨hm, hv, hbase, hptr, hadm, hvalid, hsrc⟩
  obtain ⟨h0, h1⟩ := readCall_operands (dst := dst) (max := sizes.sum) (by omega) (by omega) s
  have hwhole : cut = [] ∨ sizes.sum ≤ (s.available items).length := by
    refine hcut.imp id fun hcut => le_of_not_gt fun hlong => ?_
    have := hexec.symm.trans (exec_rleRead_of_cut (h.call dst sizes.sum) h0 h1 hcut hlong)
    cases this
    cases herr
  obtain ⟨t, hcalls, hsame⟩ := readCalls_records h hwhole hlt
  cases hexec.symm.trans (exec_rleRead_of_whole (h.call dst sizes.sum) h0 h1 hwhole)
  obtain ⟨hmem, hptr, hrem, htrunc⟩ := hsame.trans (afterRead_readCall s dst sizes.sum dst sizes.sum items).symm
  exact ⟨t, hcalls, hmem, hptr, hrem, htrunc⟩

/-- A block written is read back. -/
theorem Memory.readList_writeList {m : Memory} (hm : Memory.wf m = true) (a : Nat) (bs : List Byte) :
    Memory.readList (Memory.writeList m a bs) a bs.length = bs := by
  refine List.ext_getElem (Memory.readList_length ..) fun i hi hi' => ?_
  rw [Memory.getElem_readList, Memory.read_writeList hm, if_pos ⟨Nat.le_add_right _ _, by omega⟩, Nat.add_sub_cancel_left,
    List.getD_eq_getElem _ _ hi']

theorem admitted_noDest {s : State} {vs ws : List Window} (h : Admitted s vs ws) : Admitted s vs [] where
  inMemory w hw := h.inMemory w (List.mem_append_left _ (by simpa using hw))
  noOverlap := ⟨fun _ _ _ hw => absurd hw List.not_mem_nil, .nil⟩
  offRegisters hregs w hw := h.offRegisters hregs w (List.mem_append_left _ (by simpa using hw))

/-- The stream just opened over records, with the destination of its reads apart (R132). -/
theorem readsFrom_of_opened {s : State} {b n dst max : Nat} {items : List RleItem} (hm : Memory.wf s.mem = true)
    (hvalid : items.all RleItem.valid = true) (hsrc : Memory.readList s.mem b n = rleBytes items)
    (hadm : Admitted s [⟨b, n⟩] [⟨dst, max⟩]) :
    ((s.openStream b n).complete .none 0 0 0).ReadsFrom dst max items [] := by
  have hlen : b + n - b = n := Nat.add_sub_cancel_left ..
  refine ⟨hm, rfl, le_refl _, Nat.le_add_right _ _, ?_, hvalid, ?_⟩
  · simp only [State.complete_rleBase, State.complete_rleEnd, State.openStream_rleBase, State.openStream_rleEnd, hlen]
    exact admitted_part (off := 0) hadm rfl (Nat.zero_add max).le
  · rw [List.append_nil, ← hsrc]
    exact congrArg (Memory.readList s.mem b) hlen

/-- Settles O37: the stream just opened is the records, and the reads leave what one read of their sum leaves. -/
theorem rleRoundTrip : Obligations.RleRoundTrip := by
  intro s u items dst sizes hm hvalid hsrc hadm hlt hlen hopen
  have hreads := readsFrom_of_opened hm hvalid hsrc hadm
  cases hopen.symm.trans (rleOpenOpensStream s (admitted_noDest hadm))
  obtain ⟨t, hcalls, hsame⟩ := readCalls_records hreads (.inl rfl) hlt
  have hmem : t.mem = Memory.writeList s.mem dst (rleExpand items) := by
    rw [hsame.mem, afterRead_mem, take_available_taken]
    exact congrArg (Memory.writeList s.mem dst) (List.take_of_length_le hlen)
  refine ⟨t, hcalls, hmem ▸ Memory.readList_writeList hm dst _, fun a ha => ?_⟩
  have hout : ¬(dst ≤ a ∧ a < dst + (rleExpand items).length) := ha _ (List.mem_singleton_self _)
  rw [hmem, Memory.read_writeList_outside hm]
  omega

end Sys2Proof.Machine

/-! The LZ family: the checks of LZ_DECODE before its stream, the declared length as the bound of its writes, a literal run and
a match that have room, and a payload that ends inside a code. -/

namespace Sys2Proof.Machine

open Sys2Proof.Claims Sys2Proof.Reference

/-! ### LZ: the checks before the stream -/

theorem exec_lzDecode_of_admitted {s : State} (hadm : lzAdmitted s) :
    exec .lzDecode s = lzBody (s.operand 0) (s.operand 1) (s.operand 2) (s.operand 3) s := by
  rw [exec, execLzDecode, guarded_of_admitted (i := .lzDecode) rfl hadm]

/-- A blob without room for a signature (R161). -/
theorem lzBody_of_noSignature {b n d cap : Nat} {s : State} (h4 : n < 4) :
    lzBody b n d cap s = .next (failed .corruptStream { s with lzSig := .supported }) := if_pos h4

/-- The signature is classified before the blob's further length is looked at (R163). -/
theorem lzBody_of_unsupported {b n d cap : Nat} {s : State} {sig : SigClass} (h4 : 4 ≤ n)
    (hclass : classify s.cfg (Memory.readWord s.mem b) = sig) (hsig : sig ≠ .supported) :
    lzBody b n d cap s = .next (failed .unsupportedFormat { s with lzSig := sig }) := by
  rw [lzBody, if_neg (Nat.not_lt.2 h4)]
  simp only [hclass]
  exact if_pos hsig

/-- Past the signature: the length of the blob, then the declared length, then the stream (R161, R165). -/
theorem lzBody_of_supported {b n d cap : Nat} {s : State} (h4 : 4 ≤ n)
    (hsig : Memory.readWord s.mem b = s.cfg.sigSupported) :
    lzBody b n d cap s =
      if n < 12 ∨ cap < (lzStart s.mem b n d).len then
        .next (failed .corruptStream { s with lzSig := .supported })
      else inflate (lzStart s.mem b n d) { s with lzSig := .supported } := by
  have hclass : classify s.cfg (Memory.readWord s.mem b) = .supported := if_pos hsig
  rw [lzBody, if_neg (Nat.not_lt.2 h4)]
  simp only [hclass]
  rw [if_neg (not_not_intro rfl), ite_or]
  rfl

/-- A stream shorter than its skip count (R169). -/
theorem inflate_of_shortSkip {x : LzCursor} (h : x.left < x.skip.toNat) (s : State) :
    inflate x s = .next (failed .corruptStream s) := if_pos h

/-- The class of a signature that is not the supported one (R162). -/
theorem classify_of_ne {c : Config} {sig : Word} (h : sig ≠ c.sigSupported) :
    classify c sig = if sig = c.sigAlt1 then .alt1 else if sig = c.sigAlt2 then .alt2 else .unknown := if_neg h

/-- Settles O38: the checks in the order of R180, each on a blob that passes those before it. -/
theorem lzOuterErrors : Obligations.LzOuterErrors := by
  intro s hadm
  refine ⟨fun h4 => ?_, fun h4 hsig => ?_, fun h4 h12 hsig => ?_, fun h12 hsig hcap => ?_,
    fun h12 hsig hcap hskip => ?_⟩
  · rw [exec_lzDecode_of_admitted hadm, lzBody_of_noSignature h4]
  · rw [exec_lzDecode_of_admitted hadm]
    refine lzBody_of_unsupported h4 (classify_of_ne hsig) ?_
    split_ifs <;> decide
  · rw [exec_lzDecode_of_admitted hadm, lzBody_of_supported h4 hsig, if_pos (.inl h12)]
  · rw [exec_lzDecode_of_admitted hadm, lzBody_of_supported (by omega) hsig, lzStart_len, if_pos (.inr hcap)]
  · rw [exec_lzDecode_of_supported hadm h12 hsig hcap]
    refine inflate_of_shortSkip ?_ _
    rw [lzStart_skip]
    exact hskip

/-! ### LZ: the declared length bounds the writes -/

/-- Room beyond the declared length plays no part (R165, R168). -/
theorem lzBody_of_fits {b n d cap : Nat} {s : State} (hcap : (lzStart s.mem b n d).len ≤ cap) :
    lzBody b n d cap s = lzBody b n d (lzStart s.mem b n d).len s := by
  simp only [lzBody, Nat.not_lt.2 hcap, Nat.lt_irrefl]

/-- Settles O40: with room for the declared length the command is the one with just that room, and with less it writes
inside the room there is. -/
theorem lzWritesOnlyDeclaredLength : Obligations.LzWritesOnlyDeclaredLength := by
  intro s t hm h
  rw [exec, execLzDecode] at h
  refine guarded_leaves (SameOutside [⟨s.operand 2, declaredLength s⟩] s) h (sameOutside_of_mem_eq rfl) fun h => ?_
  obtain hcap | hcap := le_total (declaredLength s) (s.operand 3)
  · rw [← lzStart_len] at hcap ⊢
    rw [lzBody_of_fits hcap] at h
    exact lzBody_sameOutside hm h
  · intro a ha
    refine lzBody_sameOutside hm h a fun w hw hin => ?_
    rw [List.mem_singleton.1 hw] at hin
    exact ha _ (List.mem_singleton_self _) (in_of_len_le hcap hin)

/-! ### LZ: the byte loops with room -/

/-- A literal run inside its room goes on to its end (R172). -/
theorem literalRun_of_literalRoom {n : Nat} {x : LzCursor} {m : Memory} (hm : Memory.wf m = true)
    (h : n ≤ x.literalRoom) :
    literalRun n x m = ⟨true, { x with c := x.c + 8 * n, w := x.w - n }, (literalRun n x m).mem⟩ := by
  rw [LzCursor.literalRoom] at h
  obtain ⟨j, hj, -, -, hcur, hok, hend, -⟩ := literalRun_frame n x m hm
  obtain rfl : j = n := by omega
  rw [← hcur, ← hok.2 rfl]

/-- A copy run inside its room goes on to its end (R177). -/
theorem copyRun_of_fits {off n : Nat} {x : LzCursor} {m : Memory} (hm : Memory.wf m = true) (h : n ≤ x.w) :
    copyRun off n x m = ⟨true, { x with w := x.w - n }, (copyRun off n x m).mem⟩ := by
  obtain ⟨j, hj, hcur, hok, -⟩ := copyRun_frame off n x m hm
  obtain rfl : j = n := by omega
  rw [← hcur, ← hok.2 rfl]

/-- A code whose byte loop went on to its end: decoding goes on at the next code (R170). -/
theorem afterCode_of_ended (x : LzCursor) (m : Memory) (b : Bool) (s : State) :
    afterCode ⟨true, x, m⟩ b s = { s with mem := m, engine := .inflating { x with atMatch := b } } := rfl

theorem codeLength_lzLit (k : Nat) (g : BitVec 2) : codeLength (.lzLit k g) = 1 + 2 * (k + 1) := by
  simp only [codeLength, encode, Code.streamBits, List.length_cons, ext2Bits_length]
  omega

/-- Settles O41: the run has room in the payload and in the output, so it goes on to its end. -/
theorem lzLiteralWritesBytes : Obligations.LzLiteralWritesBytes := by
  intro s x k g hm hx hw hbits count c
  have hat : LzCursor.At { x with c := c } s.mem _ _ :=
    { at_of_inflating hm hx with bound := by simp only; omega, bits := rfl }
  have hroom : count ≤ LzCursor.literalRoom { x with c := c } := by
    simp only [LzCursor.literalRoom, LzCursor.left]
    omega
  refine ⟨(literalRun count { x with c := c } s.mem).mem, ?_, fun j b hj hb => ?_, fun a ha => ?_⟩
  · rw [exec, execLzLit, hx.1]
    simp only [codeLength_lzLit, literalCount]
    rw [literalRun_of_literalRoom hm hroom, afterCode_of_ended]
  · exact getLsbD_read_literalRun hat hroom hj hb
  · exact read_literalRun_outside hm ha

/-- Settles O43: the copy passes R176 and has room, so it goes on to its end. -/
theorem lzMatchCopies : Obligations.LzMatchCopies := by
  intro s x i hm hx hfit hoff hw
  have hat := at_of_inflating hm hx
  have hout := hat.length_out
  obtain ⟨m, hrun, hcopied⟩ := copyRun_of_room (off := matchOffset i) hat (by omega) hw
  have hmem : (copyRun (matchOffset i) (matchLength i) { x with c := x.c + codeLength i } s.mem).mem = m := by
    rw [copyRun_mem_withBits, hrun]
  refine ⟨m, ?_, hcopied.output, fun a ha => ?_⟩
  · rw [exec_of_fitsAt_selector hfit, runMatch_inflating hx.1, if_pos hoff,
      copyRun_of_fits (x := { x with c := x.c + codeLength i }) hm hw, hmem, afterCode_of_ended]
    rfl
  · rw [← hmem]
    exact read_copyRun_outside hm ha

/-! ### LZ: a payload that ends inside a code -/

/-- A code is read back from the bits of its place, and what follows it is left (R84, R167). -/
theorem decodeAt_code {x : LzCursor} {i : Instr} (rest : List Bool) (hwf : i.wf = true)
    (hfit : fitsAt x.place i = true) :
    decodeAt x.place (.bits []) ((encode i).streamBits ++ rest) = some (i, rest) := by
  have hdecode := decodeInvertsEncode i x.place rest hwf hfit
  rw [(encode_eq_bits hfit).1] at hdecode
  rw [← hdecode]
  unfold LzCursor.place
  split <;> rfl

/-- The unread bits begin with the code at the cursor (R167). -/
theorem bits_of_next {x : LzCursor} {m : Memory} {i : Instr} (h : x.next m = some i) :
    i.wf = true ∧ fitsAt x.place i = true ∧ ∃ rest, x.bits m = (encode i).streamBits ++ rest := by
  rw [LzCursor.next, Option.map_eq_some_iff] at h
  obtain ⟨⟨j, rest⟩, hdecode, rfl⟩ := h
  obtain ⟨hwf, hfit, hbits, -⟩ := encodeInvertsDecode _ _ _ _ _ hdecode
  exact ⟨hwf, hfit, rest, hbits⟩

/-- Where the payload ends inside a code there is no code at the cursor: one that fits the unread bits would begin the
longer one, and the longer one would be read back as both. -/
theorem next_of_cutCode {x : LzCursor} {m : Memory} {i : Instr} {more : List Bool} (hwf : i.wf = true)
    (hfit : fitsAt x.place i = true) (hmore : more ≠ []) (hcut : x.bits m ++ more = (encode i).streamBits) :
    x.next m = none := by
  by_contra hsome
  obtain ⟨j, hnext⟩ := Option.ne_none_iff_exists'.1 hsome
  obtain ⟨hwf', hfit', rest, hrest⟩ := bits_of_next hnext
  have hlong := decodeAt_code [] hwf hfit
  rw [List.append_nil, ← hcut, hrest, List.append_assoc, decodeAt_code _ hwf' hfit', Option.some.injEq] at hlong
  obtain ⟨-, hnil⟩ := List.append_eq_nil_iff.1 (congrArg Prod.snd hlong)
  exact hmore hnil

/-- Output is wanted and no code is left to read (R167). -/
theorem streamStep_of_noCode {s : State} {x : LzCursor} (he : s.engine = .inflating x) (hw : 0 < x.w)
    (hnone : x.next s.mem = none) : streamStep s = .next (failed .corruptStream s) := by
  have hwants : s.wantsCode = true := by simp [State.wantsCode, he, hw]
  have hcode : s.codeAtCursor = none := by rw [State.codeAtCursor, he]; exact hnone
  rw [streamStep, if_pos hwants, hcode]
  rfl

/-- Settles O47: no code of the position is read from a proper beginning of one. -/
theorem lzExhaustedInputIsCorrupt : Obligations.LzExhaustedInputIsCorrupt := by
  intro s x i more he hw hwf hfit hmore hcut
  rw [step_of_stream (by simp [he])]
  exact streamStep_of_noCode he hw (next_of_cutCode hwf hfit hmore hcut)

end Sys2Proof.Machine

namespace Sys2Proof.Machine

open Sys2Proof.Claims

/-! ### PLANAR_UNPACK, and the errors of PLANAR_RES -/

/-- PLANAR_UNPACK past its checks (R201): the capacity is a word, so the count of bytes fits RESULT0. -/
theorem execPlanarUnpack_of_admitted {s : State} (hl : operandsLegal .planarUnpack s = true)
    (hadm : Admitted s (sourceWindows .planarUnpack s) (destWindows .planarUnpack s)) :
    execPlanarUnpack s =
      .next ({ s with mem := unpack (s.operand 0) (s.operand 1) (s.operand 2) (s.operand 3) (s.operand 4) s.mem }.complete
        .none (BitVec.ofNat 32 (s.operand 4 * s.operand 3 * 8)) 0 0) := by
  obtain ⟨-, -, hcap⟩ := (planarUnpack_legal_iff s).1 hl
  rw [execPlanarUnpack, guarded_of_admitted hl hadm, regWord_of_lt (hcap.trans_lt (s.operand_lt 5))]

/-- Settles O48: past the checks of R201 the effect is `Unpack`, whose source planes do not meet its output. -/
theorem planarUnpackSetsPixels : Obligations.PlanarUnpackSetsPixels := by
  intro s src dst pc ps fc hm hpc1 hpc8 hcap hadm
  have hexec := execPlanarUnpack_of_admitted ((planarUnpack_legal_iff s).2 ⟨hpc1, hpc8, hcap⟩) hadm
  obtain ⟨hrest, hrle, hsig⟩ := complete_frame s (unpack src dst pc ps fc s.mem) .none
    (BitVec.ofNat 32 (fc * ps * 8)) 0 0
  have hsep : Apart ⟨src, fc * pc * ps⟩ ⟨dst, fc * ps * 8⟩ :=
    hadm.noOverlap.1 _ (List.mem_singleton_self _) _ (List.mem_singleton_self _)
  exact ⟨_, hexec, ⟨rfl, rfl, rfl, rfl, rfl, rfl, rfl, hrest⟩, hrle, hsig,
    fun f j i p hf hj hi hp => getLsbD_read_unpack hm hf hj hi hp hsep, (local_unpack _ _ _ _ _).sameOutside hm rfl⟩

/-- Settles O50: past the checks of the command the header is the one FLAGS says, and each clause takes its own branch of
R204's pseudocode. -/
theorem planarResErrors : Obligations.PlanarResErrors := by
  intro s h fc w ht src pc byte ps hflags hpc1 hpc8 h1 h0 hadm
  have hl := (planarRes_legal_iff s).2 ⟨hflags, hpc1, hpc8⟩
  obtain ⟨hlen, hhead⟩ := readHeader_of_flags hflags h1 h0
  simp only [exec, execPlanarRes, guarded_of_admitted hl hadm, hlen, hhead, PlanarHeader.planeSize, failed_eq_raise]
  refine ⟨fun hshort => ?_, fun hlong hwidth => ?_, fun hlong hwidth hcap => ?_, fun hlong hwidth hcap hcut => ?_⟩
  · rw [if_pos hshort]
  · rw [if_neg hlong.not_gt, if_pos hwidth]
  · rw [if_neg hlong.not_gt, if_neg (not_not_intro hwidth), if_pos hcap]
  · rw [if_neg hlong.not_gt, if_neg (not_not_intro hwidth), if_neg hcap.not_gt, if_pos hcut]

end Sys2Proof.Machine

namespace Sys2Proof.Machine

open Sys2Proof.Claims

/-! ### FIELD_SPLIT twice -/

/-- The second call finds the packed bytes of the first (R116), and ORs in bits that are set already (R225). -/
theorem read_splitPixels_splitPixels {src count j0 cd md pd npix : Nat} {m : Memory} (hm : Memory.wf m = true)
    (hpix : j0 + count ≤ npix) (hno : NoOverlap [⟨src, count⟩] (splitBuffers cd md pd npix)) (a : Nat) :
    Memory.read (splitPixels src count j0 cd md pd (splitPixels src count j0 cd md pd m)) a =
      Memory.read (splitPixels src count j0 cd md pd m) a := by
  have hsrc : ∀ i, i < count → ∀ w ∈ splitBuffers cd md pd npix, ¬In w (src + i) := fun _ hi w hw hin =>
    hno.1 _ (List.mem_singleton_self _) w hw _ ⟨in_of_lt hi, hin⟩
  obtain ⟨hwf, hkeep⟩ := splitPixels_keeps (src := src) (cd := cd) (md := md) (pd := pd) hpix hm
  have hpacked : ∀ i, i < count →
      Memory.read (splitPixels src count j0 cd md pd m) (src + i) = Memory.read m (src + i) := fun i hi => by
    obtain ⟨hc, hk, hp⟩ := forall_mem_splitBuffers.1 (hsrc i hi)
    exact hkeep _ hc hk hp
  refine BitVec.eq_of_getLsbD_eq fun k _ => ?_
  rw [Bool.eq_iff_iff, getLsbD_read_splitPixels hwf hpix hsrc]
  refine or_iff_left_of_imp fun ⟨i, hi, hset⟩ => ?_
  rw [hpacked i hi] at hset
  exact (getLsbD_read_splitPixels hm hpix hsrc a k).2 (.inr ⟨i, hi, hset⟩)

/-- A guarded command that ends passed its checks and ended as its body, or failed one and is BadCommand. -/
theorem guarded_eq_next {i : Instr} {s t : State} {body : State → Result} (h : guarded i s body = .next t) :
    (operandsLegal i s = true ∧ windowsAdmitted i s = true → body s = .next t) ∧
      (¬(operandsLegal i s = true ∧ windowsAdmitted i s = true) → t = s.raise .badCommand) := by
  unfold guarded at h
  split_ifs at h with hl hcovers hadm
  · exact ⟨fun _ => h, fun hfail => (hfail ⟨hl, hadm⟩).elim⟩
  · exact ⟨fun hpass => (hadm hpass.2).elim, fun _ => (Host.Outcome.next.inj h).symm⟩
  · exact ⟨fun hpass => (hl hpass.1).elim, fun _ => (Host.Outcome.next.inj h).symm⟩

/-- The latched operands and the windows of a FIELD_SPLIT pass its checks (R114 to R116). -/
def State.splitPasses (s : State) : Prop :=
  operandsLegal .fieldSplit s = true ∧ windowsAdmitted .fieldSplit s = true

/-- The checks look at the latched operands and the parameters alone. -/
theorem State.splitPasses_congr {s t : State} (hcfg : t.cfg = s.cfg) (hop : t.operand = s.operand) :
    t.splitPasses ↔ s.splitPasses := by
  simp only [State.splitPasses, operandsLegal, windowsAdmitted, inPlace, sourceWindows, destWindows, hcfg, hop]

theorem State.splitPasses.pixels {s : State} (h : s.splitPasses) : s.operand 2 + s.operand 1 ≤ s.operand 6 :=
  (fieldSplit_legal_iff s).1 h.1

theorem State.splitPasses.noOverlap {s : State} (h : s.splitPasses) :
    NoOverlap [⟨s.operand 0, s.operand 1⟩]
      (splitBuffers (s.operand 3) (s.operand 4) (s.operand 5) (s.operand 6)) :=
  (windowsAdmitted_iff.1 h.2).2.resolve_left Bool.false_ne_true

/-- M after a FIELD_SPLIT that passes its checks (R221). -/
theorem execFieldSplit_mem_of_passes {s t : State} (h : execFieldSplit s = .next t) (hpass : s.splitPasses) :
    t.mem = splitPixels (s.operand 0) (s.operand 1) (s.operand 2) (s.operand 3) (s.operand 4) (s.operand 5) s.mem := by
  cases (guarded_eq_next h).1 hpass
  rfl

/-- A FIELD_SPLIT that fails a check writes nothing (R114, R115). -/
theorem execFieldSplit_mem_of_fails {s t : State} (h : execFieldSplit s = .next t) (hfail : ¬s.splitPasses) :
    t.mem = s.mem := by
  cases (guarded_eq_next h).2 hfail
  rfl

/-- Settles O52: both calls have the same checks. Where they pass, the second finds its bits set; where one fails, the
second writes nothing. -/
theorem fieldSplitRepeatChangesNothing : Obligations.FieldSplitRepeatChangesNothing := by
  intro s t u hm hst htu a
  obtain ⟨hframe, -, -⟩ := execFieldSplit_frame hst
  have hop : t.operand = s.operand := by
    funext i
    rw [State.operand, hframe.larg, State.operand]
  by_cases hpass : t.splitPasses
  · have hfirst : s.splitPasses := (State.splitPasses_congr hframe.cfg hop).1 hpass
    rw [execFieldSplit_mem_of_passes htu hpass, hop, execFieldSplit_mem_of_passes hst hfirst]
    exact read_splitPixels_splitPixels hm hfirst.pixels hfirst.noOverlap a
  · rw [execFieldSplit_mem_of_fails htu hpass]

end Sys2Proof.Machine

namespace Sys2Proof.Machine

open Sys2Proof.Claims

/-! ### MASK: the tables -/

/-- Settles O54, on the sixteen nibbles. -/
theorem maskTablesMatchFormulas : Obligations.MaskTablesMatchFormulas := by
  unfold Obligations.MaskTablesMatchFormulas
  decide

/-- T0 puts pixel `k` of a nibble at bit 2k and leaves bit 2k + 1 to T1 (R236). -/
theorem getLsbD_tableT0 (n : BitVec 4) :
    ∀ k < 4, (tableT0.getD n.toNat 0).getLsbD (2 * k) = n.getLsbD (3 - k) ∧
      (tableT0.getD n.toNat 0).getLsbD (2 * k + 1) = false := by
  revert n
  decide

/-- T1 is T0 one bit up, so it puts pixel `k` at bit 2k + 1 and leaves bit 2k to T0 (R237). -/
theorem getLsbD_tableT1 (n : BitVec 4) {k : Nat} (hk : k < 4) :
    (tableT1.getD n.toNat 0).getLsbD (2 * k) = false ∧
      (tableT1.getD n.toNat 0).getLsbD (2 * k + 1) = n.getLsbD (3 - k) := by
  rw [(maskTablesMatchFormulas n).2, BitVec.getLsbD_shiftLeft, BitVec.getLsbD_shiftLeft, Nat.add_sub_cancel,
    (getLsbD_tableT0 n k hk).1]
  constructor
  · cases k with
    | zero => simp
    | succ k =>
      rw [show 2 * (k + 1) - 1 = 2 * k + 1 by omega, (getLsbD_tableT0 n k (by omega)).2, Bool.and_false]
  · simp [show 2 * k + 1 < 8 by omega]

theorem getLsbD_maskEntry (a b : BitVec 4) {k : Nat} (hk : k < 4) :
    (maskEntry a b).getLsbD (2 * k) = a.getLsbD (3 - k) ∧ (maskEntry a b).getLsbD (2 * k + 1) = b.getLsbD (3 - k) := by
  obtain ⟨h0, h0'⟩ := getLsbD_tableT0 a k hk
  obtain ⟨h1, h1'⟩ := getLsbD_tableT1 b hk
  simp only [maskEntry, BitVec.getLsbD_or, h0, h0', h1, h1', Bool.or_false, Bool.false_or, and_self]

/-! ### MASK: the scanlines -/

/-- The two output bytes of a pair of plane bytes at pixels `k` and `k + 4`: plane 0 in the even bits, plane 1 in the odd
ones, the first pixels in the first byte (R240, R242). -/
def InterleavedAt (k : Nat) (p0 p1 high low : Byte) : Prop :=
  high.getLsbD (2 * k) = p0.getLsbD (7 - k) ∧ high.getLsbD (2 * k + 1) = p1.getLsbD (7 - k) ∧
    low.getLsbD (2 * k) = p0.getLsbD (3 - k) ∧ low.getLsbD (2 * k + 1) = p1.getLsbD (3 - k)

theorem interleavedAt_maskEntry (a b : Byte) {k : Nat} (hk : k < 4) :
    InterleavedAt k a b (maskEntry (a.extractLsb' 4 4) (b.extractLsb' 4 4))
      (maskEntry (a.extractLsb' 0 4) (b.extractLsb' 0 4)) := by
  obtain ⟨hhigh0, hhigh1⟩ := getLsbD_maskEntry (a.extractLsb' 4 4) (b.extractLsb' 4 4) hk
  obtain ⟨hlow0, hlow1⟩ := getLsbD_maskEntry (a.extractLsb' 0 4) (b.extractLsb' 0 4) hk
  have hnibble : ∀ (c : Byte) (lo : Nat), (c.extractLsb' lo 4).getLsbD (3 - k) = c.getLsbD (lo + (3 - k)) :=
    fun c lo => by simp [show 3 - k < 4 by omega]
  rw [hnibble] at hhigh0 hhigh1 hlow0 hlow1
  rw [show 4 + (3 - k) = 7 - k by omega] at hhigh0 hhigh1
  rw [Nat.zero_add] at hlow0 hlow1
  exact ⟨hhigh0, hhigh1, hlow0, hlow1⟩

/-- Pair `j` of plane bytes gives the output bytes 2j and 2j + 1 of its row (R238). -/
theorem interleavedAt_maskRow {p0 p1 : List Byte} {j k : Nat} (h0 : j < p0.length) (h1 : j < p1.length) (hk : k < 4) :
    InterleavedAt k (p0.getD j 0) (p1.getD j 0) ((maskRow p0 p1).getD (2 * j) 0)
      ((maskRow p0 p1).getD (2 * j + 1) 0) := by
  induction j generalizing p0 p1 with
  | zero =>
    obtain ⟨a, p0, rfl⟩ := List.exists_cons_of_length_pos h0
    obtain ⟨b, p1, rfl⟩ := List.exists_cons_of_length_pos h1
    exact interleavedAt_maskEntry a b hk
  | succ j ih =>
    obtain ⟨a, p0, rfl⟩ := List.exists_cons_of_length_pos (Nat.zero_lt_of_lt h0)
    obtain ⟨b, p1, rfl⟩ := List.exists_cons_of_length_pos (Nat.zero_lt_of_lt h1)
    exact ih (Nat.lt_of_succ_lt_succ h0) (Nat.lt_of_succ_lt_succ h1)

/-- A scanline interleaves its own two plane rows as they stand before it (R238, R239, R241). -/
theorem interleavedAt_maskScanline {src dst w r j k : Nat} {m : Memory} (hm : Memory.wf m = true) (hj : j < w)
    (hk : k < 4) :
    InterleavedAt k (Memory.read m (src + 2 * w * r + j)) (Memory.read m (src + 2 * w * r + w + j))
      (Memory.read (maskScanline src dst w r m) (dst + 2 * w * r + 2 * j))
      (Memory.read (maskScanline src dst w r m) (dst + 2 * w * r + 2 * j + 1)) := by
  have hrow := interleavedAt_maskRow (p0 := Memory.readList m (src + 2 * w * r) w)
    (p1 := Memory.readList m (src + 2 * w * r + w) w) (j := j) (by simpa using hj) (by simpa using hj) hk
  rw [Memory.getD_readList _ _ _ _ hj, Memory.getD_readList _ _ _ _ hj] at hrow
  have hout : ∀ i < 2 * w, Memory.read (maskScanline src dst w r m) (dst + 2 * w * r + i) =
      (maskRow (Memory.readList m (src + 2 * w * r) w) (Memory.readList m (src + 2 * w * r + w) w)).getD i 0 :=
    fun i hi => by
      rw [maskScanline, Memory.read_writeList hm, if_pos (by simpa using hi), Nat.add_sub_cancel_left]
  rw [Nat.add_assoc _ (2 * j), hout _ (by omega), hout _ (by omega)]
  exact hrow

theorem scanline_end_le {r rows w : Nat} (hr : r < rows) : 2 * w * r + 2 * w ≤ 2 * w * rows :=
  Nat.mul_le_mul_left (2 * w) hr

/-- In place or apart, the scanlines before `r` write none of its input bytes (R241). -/
theorem scanline_input_not_written {src dst rows w r i : Nat} (hr : r < rows) (hi : i < 2 * w)
    (hplace : dst = src ∨ Apart ⟨src, 2 * w * rows⟩ ⟨dst, 2 * w * rows⟩) :
    ¬(dst ≤ src + 2 * w * r + i ∧ src + 2 * w * r + i < dst + 2 * w * r) := by
  rintro ⟨hlo, hhi⟩
  obtain rfl | happart := hplace
  · omega
  · have hend := scanline_end_le (w := w) hr
    exact happart (src + 2 * w * r + i) ⟨⟨by simp only; omega, by simp only; omega⟩, hlo, by simp only; omega⟩

/-- The scanlines interleave the plane rows as they stand before the command, apart and in place (R238 to R241). -/
theorem interleavedAt_maskRows {src dst rows w r j k : Nat} {m : Memory} (hm : Memory.wf m = true) (hr : r < rows)
    (hj : j < w) (hk : k < 4) (hplace : dst = src ∨ Apart ⟨src, 2 * w * rows⟩ ⟨dst, 2 * w * rows⟩) :
    InterleavedAt k (Memory.read m (src + 2 * w * r + j)) (Memory.read m (src + 2 * w * r + w + j))
      (Memory.read (maskRows src dst rows w m) (dst + 2 * w * r + 2 * j))
      (Memory.read (maskRows src dst rows w m) (dst + 2 * w * r + 2 * j + 1)) := by
  have hbefore := local_maskRows src dst r w
  have hinput : ∀ i < 2 * w, Memory.read (maskRows src dst r w m) (src + 2 * w * r + i) =
      Memory.read m (src + 2 * w * r + i) := fun i hi =>
    hbefore.outside m hm _ (scanline_input_not_written hr hi hplace)
  have houtput : ∀ i < 2 * w, Memory.read (maskRows src dst rows w m) (dst + 2 * w * r + i) =
      Memory.read (maskScanline src dst w r (maskRows src dst r w m)) (dst + 2 * w * r + i) := fun i hi =>
    read_forN_of_last (fun g _ => local_maskScanline src dst w g) hm hr fun g hrg _ => by
      have := scanline_end_le (w := w) hrg
      omega
  have hrow := interleavedAt_maskScanline (src := src) (dst := dst) (r := r) (hbefore.wf m hm) hj hk
  rwa [Nat.add_assoc _ w, Nat.add_assoc _ (2 * j), hinput _ (by omega), hinput _ (by omega), ← houtput _ (by omega),
    ← houtput _ (by omega), ← Nat.add_assoc, ← Nat.add_assoc] at hrow

/-! ### MASK_BUILD -/

theorem noOverlap_singleton {v w : Window} : NoOverlap [v] [w] ↔ Apart v w := by
  simp [NoOverlap]

/-- MASK_BUILD in place or on windows apart, inside M and off the register window (R238, R241). -/
theorem execMaskBuild_of_inPlace_or_apart {s : State}
    (hmem : InMemory s (sourceWindows .maskBuild s ++ destWindows .maskBuild s))
    (hoff : OffRegisters s (sourceWindows .maskBuild s ++ destWindows .maskBuild s))
    (hplace : s.operand 1 = s.operand 0 ∨
      Apart ⟨s.operand 0, 2 * s.operand 3 * s.operand 2⟩ ⟨s.operand 1, 2 * s.operand 3 * s.operand 2⟩) :
    execMaskBuild s =
      .next ({ s with mem := maskRows (s.operand 0) (s.operand 1) (s.operand 2) (s.operand 3) s.mem }.complete .none
        (regWord (2 * s.operand 3 * s.operand 2)) 0 0) := by
  have hadm : windowsAdmitted .maskBuild s = true :=
    windowsAdmitted_iff.2 ⟨hmem, hplace.imp (fun h => inPlace_iff.2 ⟨rfl, h⟩) noOverlap_singleton.2⟩
  rw [execMaskBuild, guarded_of_offRegisters hoff, if_pos ⟨rfl, hadm⟩]

/-- Settles O53: each scanline reads its plane rows before it writes, and no earlier one has written them. -/
theorem maskBuildInterleaves : Obligations.MaskBuildInterleaves := by
  intro s src dst rows w n hm hmem hoff hplace
  obtain ⟨hrest, hrle, hsig⟩ := complete_frame s (maskRows src dst rows w s.mem) .none (regWord n) 0 0
  exact ⟨_, _, execMaskBuild_of_inPlace_or_apart hmem hoff hplace,
    ⟨rfl, rfl, rfl, rfl, rfl, rfl, rfl, hrest⟩, regWord_of_lt, hrle, hsig,
    fun _ _ _ hr hj hk => interleavedAt_maskRows hm hr hj hk hplace,
    (local_maskRows src dst rows w).sameOutside hm rfl⟩

end Sys2Proof.Machine

/-! The exceptions family: BadCommand is reported by the checks alone, before any other effect (R255, R256). -/

namespace Sys2Proof.Machine

open Sys2Proof.Claims

/-! ### No body of a command reports BadCommand -/

/-- A guarded command whose body never reports BadCommand reports it from its checks alone. -/
theorem guarded_badCommand {i : Instr} {s t : State} {body : State → Result} (h : guarded i s body = .next t)
    (hbody : body s = .next t → t.err ≠ .badCommand) (he : t.err = .badCommand) : t = failed .badCommand s :=
  guarded_leaves (fun t => t.err = .badCommand → t = failed .badCommand s) h
    (fun _ => (failed_eq_raise .badCommand s).symm) (fun h he => absurd he (hbody h)) he

/-- A stream command with fuel for every move reports success or a fault of its input. -/
theorem runStream_ne_badCommand {s t : State} (he : s.engine ≠ .idle) {fuel : Nat} (hf : s.movesLeft ≤ fuel)
    (h : runStream fuel s = .next t) : t.err ≠ .badCommand := by
  obtain ⟨u, hu, -, -, -, herr⟩ := runStream_ends he hf
  cases hu.symm.trans h
  exact herr

theorem inflate_ne_badCommand {x : LzCursor} {s t : State} (h : inflate x s = .next t) : t.err ≠ .badCommand := by
  unfold inflate at h
  split at h
  · cases h; exact ErrKind.noConfusion
  · exact runStream_ne_badCommand (by simp) (movesLeft_inflating_le s x _) h

theorem lzBody_ne_badCommand {b n d cap : Nat} {s t : State} (h : lzBody b n d cap s = .next t) :
    t.err ≠ .badCommand := by
  simp only [lzBody] at h
  split_ifs at h with h4 hclass h12 hcap
  · cases h; exact ErrKind.noConfusion
  · cases h; exact ErrKind.noConfusion
  · cases h; exact ErrKind.noConfusion
  · cases h; exact ErrKind.noConfusion
  · exact inflate_ne_badCommand h

/-! ### The commands with more than one end after their checks -/

theorem execRleRead_badCommand {s t : State} (h : execRleRead s = .next t) (he : t.err = .badCommand) :
    t = failed .badCommand s :=
  guarded_badCommand h (fun h => runStream_ne_badCommand (by simp) (movesLeft_startRead s _ _).le h) he

theorem execLzDecode_badCommand {s t : State} (h : execLzDecode s = .next t) (he : t.err = .badCommand) :
    t = failed .badCommand s :=
  guarded_badCommand h lzBody_ne_badCommand he

/-- The errors of R204's own pseudocode are TruncatedInput and CorruptStream. -/
theorem execPlanarRes_badCommand {s t : State} (h : execPlanarRes s = .next t) (he : t.err = .badCommand) :
    t = failed .badCommand s := by
  refine guarded_badCommand h (fun h => ?_) he
  simp only at h
  split_ifs at h <;> (cases h; exact ErrKind.noConfusion)

/-- Settles O26: past its checks a command ends in success or in an error of its input, so BadCommand is the end of a
failed check, which has done nothing yet. -/
theorem badCommandHasNoEffect : Obligations.BadCommandHasNoEffect := by
  intro s t i hi h he
  cases i with
  | rleRead => exact execRleRead_badCommand h he
  | lzDecode => exact execLzDecode_badCommand h he
  | planarRes => exact execPlanarRes_badCommand h he
  | rleOpen | planarUnpack | fieldSplit | maskBuild =>
    simp only [exec, execRleOpen, execPlanarUnpack, execFieldSplit, execMaskBuild] at h
    refine guarded_badCommand h (fun h => ?_) he
    cases h
    exact ErrKind.noConfusion
  | rleLit | rleNop | rleRep | lzLit | lzMatch | lzM0 | lzM1 | lzM2 | lzM3S | lzM3L => cases hi

end Sys2Proof.Machine

/-! The reset and hazards family: host accesses the block does not allow, and what a reset does to M (R281, R282, R286,
R287). -/

namespace Sys2Proof.Machine

open Sys2Proof.Claims

/-! ### Hazards -/

/-- A host read of a byte of a pending command's destinations (R286). -/
theorem hostPeek_of_hazard {s : State} {a : Nat} (ha : a < s.cfg.memBytes) (hr : OffRegister s a)
    (hw : ∃ w ∈ s.busyDests, In w a) : hostPeek a s = .fault .hazardHostRead := by
  rw [hostPeek, onRegisters_eq_false.2 hr, if_neg Bool.false_ne_true, if_neg (by omega), if_pos (anyHolds_iff.2 hw)]

/-- A host write of a byte of a pending command's windows (R286). -/
theorem hostPoke_of_hazard {s : State} {a : Nat} {v : Byte} (ha : a < s.cfg.memBytes) (hr : OffRegister s a)
    (hw : ∃ w ∈ s.busySources ++ s.busyDests, In w a) : hostPoke a v s = .fault .hazardHostWrite := by
  rw [hostPoke, onRegisters_eq_false.2 hr, if_neg Bool.false_ne_true, if_neg (by omega), if_pos (anyHolds_iff.2 hw)]

/-- Settles O13: the pending command's windows are the ones the access is checked against. -/
theorem hostAccessToBusyWindowsFaults : Obligations.HostAccessToBusyWindowsFaults := by
  intro s ts i a v hi hb hd ha hr
  refine ⟨fun ht hw => ?_, fun ht hw => ?_⟩
  · rw [step_of_turn hi ht]
    refine hostPoke_of_hazard ha hr ?_
    rwa [State.busySources_turns, State.busyDests_turns, State.busySources_of_decode hb hd,
      State.busyDests_of_decode hb hd]
  · rw [step_of_turn hi ht]
    refine hostPeek_of_hazard ha hr ?_
    rwa [State.busyDests_turns, State.busyDests_of_decode hb hd]

/-! ### Reset and M -/

/-- A reset to which the platform adds no bytes of its own (R281, R282). -/
theorem hostReset_nil_mem (s : State) :
    (hostReset [] s).mem = s.busyDests.foldl (Memory.abandon s.cfg.memBytes s.draws) s.mem := rfl

/-- With no command to abandon, such a reset leaves M as it is (R281). -/
theorem hostReset_nil_mem_of_none {s : State} (h : s.busy = false ∨ decodeCmd s.pend = none) :
    (hostReset [] s).mem = s.mem := by
  rw [hostReset_nil_mem, State.busyDests_of_none h, List.foldl_nil]

/-- A byte of M after such a reset: drawn in an abandoned destination window, as before elsewhere (R281, R282). -/
theorem read_hostReset_nil {s : State} (hm : Memory.wf s.mem = true) (a : Nat) :
    Memory.read (hostReset [] s).mem a =
      if (∃ w ∈ s.busyDests, In w a) ∧ a < s.cfg.memBytes then Config.drawnByte s.draws a else Memory.read s.mem a := by
  rw [hostReset_nil_mem, (Memory.read_foldl_abandon hm _ a).2]

/-- Settles O18: a reset touches M in the destination windows of the pending command alone, and there are none unless a
legal command is pending. -/
theorem resetLeavesMemory : Obligations.ResetLeavesMemory := by
  intro s ts hi ht hm
  refine ⟨hostReset [] { s with turns := ts }, step_of_turn hi ht,
    fun hb => hostReset_nil_mem_of_none (.inl hb), fun _ hd => hostReset_nil_mem_of_none (.inr hd), fun i hb hd => ?_⟩
  have hread := read_hostReset_nil (s := { s with turns := ts }) hm
  rw [State.busyDests_turns, State.busyDests_of_decode hb hd] at hread
  refine ⟨fun a hout => ?_, fun a ha hin => ?_⟩
  · rw [hread, if_neg fun ⟨⟨w, hw, hin⟩, _⟩ => hout w hw hin]
  · rw [hread, if_pos ⟨hin, ha⟩]

/-! ### Narrow register accesses -/

/-- Settles O12: such an access has no register offset, and both accesses then answer with the refusal by name. -/
theorem narrowRegisterAccessIsRefused : Obligations.NarrowRegisterAccessIsRefused := by
  intro s ts off width v hi hoff hnarrow
  have hnone := registerOffset_narrow (c := s.cfg) hoff hnarrow
  refine ⟨fun ht => ?_, fun ht => ?_⟩
  · rw [step_of_turn hi ht]
    simp only [takeTurn, hostRegRead, hnone]
  · rw [step_of_turn hi ht]
    simp only [takeTurn, hostRegWrite, hnone]

end Sys2Proof.Machine
